-- ==== Sys2Proof/Word.lean ====
section
/-! DEFINITION. Word.lean: the two word types of the command port and the register image. -/
namespace Sys2Proof

/-- One register of the image, one opcode byte (R28, R91). -/
abbrev Byte := BitVec 8

/-- One operand word or result word of the command port (R25, R91). -/
abbrev Word := BitVec 32

end Sys2Proof
end

