-- ==== Sys2Proof/Config.lean ====
section
/-! DEFINITION. Config.lean: the named parameter RAW_CODING, the types of the free inputs (`draw(T)`, R15), and the free
values themselves: opaque constants without a body, so that nothing can be proved of their values. -/
namespace Sys2Proof

/-- RAW_CODING (R10, D3): whether raw-data numeric fields carry decoded decimal values or the BCD bits. -/
inductive RawCoding where
  | decimal
  | bcd
deriving DecidableEq, Repr, Inhabited

/-- The outcome of one transaction or detach: `draw({ok, fail})` (R72, R123). -/
inductive BusOutcome where
  | ok
  | fail
deriving DecidableEq, Repr, Inhabited

/-- The outcome of CONFIG's attach: `draw({ok, attachFail, allocFail})` (R122). Where the attach succeeds the bus
collaborator supplies the capability, an opaque token (R21; log 13). -/
inductive AttachOutcome where
  | ok (capability : Nat)
  | attachFail
  | allocFail (capability : Nat)
deriving DecidableEq, Repr, Inhabited

/-- Which part of ENV writes (R74): another agent of the bus (a), or the chip's own timekeeping TICK (b). -/
inductive Writer where
  | other
  | tick
deriving DecidableEq, Repr, Inhabited

/-- One byte that a step of ENV writes into the image (R74). -/
structure EnvWrite where
  writer : Writer
  addr   : BitVec 6
  byte   : Byte
deriving DecidableEq, Repr, Inhabited

/-- Everything one bus transaction takes from outside the block: the ENV steps since the transaction before it
(R74), its outcome (R72), and one free byte for each byte it moves: the reserved bits of a byte read (R38), or what a
failed write leaves (R72). -/
structure Txn where
  env     : List EnvWrite
  outcome : BusOutcome
  noise   : List Byte
deriving DecidableEq, Repr, Inhabited

/-- Free inputs of a transaction, by the count of transactions before it (R15, R72, R74; log 5). -/
opaque Config.freeTxn : Nat → Txn

/-- A free byte for byte `i` of a transaction, by the count of transactions before it (R38, R72; log 5). -/
opaque Config.freeNoise : Nat → Nat → Byte

/-- Free outcome of an attach (R122; log 5). -/
opaque Config.freeAttach : Nat → AttachOutcome

/-- Free outcome of a detach (R123; log 5). -/
opaque Config.freeDetach : Nat → BusOutcome

/-- A free byte: `toBCD` outside 0..99 (R141), a SETTIME field out of range (R172) (log 5). -/
opaque Config.freeByte : Nat → Byte

/-- The chip's register pointer after a transaction or a reset: unspecified (R45, R56; log 3). -/
opaque Config.freePointer : Nat → Byte

end Sys2Proof
end

