-- ==== Sys2Proof/Syntax.lean ====
section
/-! DEFINITION. Syntax.lean: the 22 commands of R97, one constructor per row of spec/opcode_table.json, and the two
operand records (R42, R43). INT32 and U32 operands are their 32-bit words; `int32(w)` is `w.toInt` (R12, R94). -/
namespace Sys2Proof

/-- The Calendar Time record, seven INT32 words in word order (R42). -/
structure CalendarTime where
  sec  : Word
  min  : Word
  hour : Word
  mday : Word
  mon  : Word
  year : Word
  wday : Word
deriving DecidableEq, Repr

/-- The Raw Data record, nine words in word order: BYTE words, and BOOL words for `hour12` and `pm` (R43). -/
structure RawData where
  seconds : Byte
  minutes : Byte
  hours   : Byte
  hour12  : Bool
  pm      : Bool
  day     : Byte
  date    : Byte
  month   : Byte
  year    : Byte
deriving DecidableEq, Repr

/-- A command with its operands (R93, R97). SETRAM's length operand is the length of its list (R101). -/
inductive Instr where
  | tobcd (n : Word)
  | frombcd (b : Byte)
  | dec12h (b : Byte)
  | enc12h (h : Word)
  | config (century : Word) (dev : BitVec 7) (speed : Word)
  | deconfig
  | gettime
  | settime (t : CalendarTime)
  | getraw
  | setraw (d : RawData)
  | gethalt
  | sethalt (v : Bool)
  | getout
  | setout (v : Bool)
  | getsqwe
  | setsqwe (v : Bool)
  | getrate
  | setrate (v : BitVec 2)
  | get12h
  | set12h (v : Bool)
  | getram (offset length : Word)
  | setram (offset : Word) (bytes : List Byte)
deriving DecidableEq, Repr

end Sys2Proof
end

