-- ==== Sys2Proof/WellFormed.lean ====
section
/-! DEFINITION. WellFormed.lean: the one check that the types of Syntax leave open. Every other operand is of exactly
the width its kind has (R94), so an operand out of its kind's range cannot be written. -/
namespace Sys2Proof

/-- SETRAM's length operand is a U32 word (R93), so its list is shorter than 2^32. -/
def Instr.wellFormed (i : Instr) : Bool :=
  match i with
  | .setram _ bytes => decide (bytes.length < 2 ^ 32)
  | .tobcd _ | .frombcd _ | .dec12h _ | .enc12h _ | .config _ _ _ | .deconfig
  | .gettime | .settime _ | .getraw | .setraw _
  | .gethalt | .sethalt _ | .getout | .setout _ | .getsqwe | .setsqwe _ | .getrate | .setrate _
  | .get12h | .set12h _ | .getram _ _ => true

end Sys2Proof
end

