-- ==== Sys2Proof/Decode.lean ====
section
/-! DEFINITION. Decode.lean: the decoder of R95, total on every opcode byte and every list of operand words, and after
it the encoder, both from the tables R93, R94 and R97. -/
namespace Sys2Proof

/-- A command as the host presents it: the opcode byte `OP` and the operand words (R91). -/
structure Encoded where
  op    : Byte
  words : List Word
deriving DecidableEq, Repr

/-- Why a presented command is no command (R95, R286). -/
inductive DecodeError where
  | reservedOpcode
  | shortCommand
  | reservedOperandBits
deriving DecidableEq, Repr

/-- The rows of the opcode map (R97). -/
inductive Opcode where
  | tobcd | frombcd | dec12h | enc12h | config | deconfig
  | gettime | settime | getraw | setraw
  | gethalt | sethalt | getout | setout | getsqwe | setsqwe | getrate | setrate | get12h | set12h
  | getram | setram
deriving DecidableEq, Repr

/-- The kinds of operand words (R94). -/
inductive Kind where
  | int32 | u32 | byte | bool | rs2 | addr7
deriving DecidableEq, Repr

/-! ## Opcode fields (R92) -/

/-- `FAM`, bits 7-4. -/
def opFam (op : Byte) : BitVec 4 := op.extractLsb' 4 4

/-- `FN`, bits 3-0. -/
def opFn (op : Byte) : BitVec 4 := op.extractLsb' 0 4

/-- `SEL`, `FN[3:1]`: the field selector of family 3. -/
def opSel (op : Byte) : BitVec 3 := op.extractLsb' 1 3

/-- `SET`, `FN[0]`: 0 = get, 1 = set, in families 2, 3 and 4. -/
def opSet (op : Byte) : Bool := op.getLsbD 0

/-! ## The tables -/

/-- The opcode byte of a row (R97). -/
def Opcode.byte (o : Opcode) : Byte :=
  match o with
  | .tobcd => 0x01 | .frombcd => 0x02 | .dec12h => 0x03 | .enc12h => 0x04
  | .config => 0x10 | .deconfig => 0x11
  | .gettime => 0x20 | .settime => 0x21 | .getraw => 0x22 | .setraw => 0x23
  | .gethalt => 0x30 | .sethalt => 0x31 | .getout => 0x32 | .setout => 0x33 | .getsqwe => 0x34
  | .setsqwe => 0x35 | .getrate => 0x36 | .setrate => 0x37 | .get12h => 0x38 | .set12h => 0x39
  | .getram => 0x40 | .setram => 0x41

/-- Every row of the opcode map, in its order (R97). -/
def Opcode.all : List Opcode :=
  [.tobcd, .frombcd, .dec12h, .enc12h, .config, .deconfig, .gettime, .settime, .getraw, .setraw,
   .gethalt, .sethalt, .getout, .setout, .getsqwe, .setsqwe, .getrate, .setrate, .get12h, .set12h,
   .getram, .setram]

/-- The row of an opcode byte, matched on all 8 bits; every other byte is reserved (R97, R98). -/
def Opcode.ofByte (op : Byte) : Option Opcode := Opcode.all.find? fun o => o.byte == op

/-- The kinds of the operand words that the format fixes (R93); SETRAM's data words follow these. -/
def Opcode.kinds (o : Opcode) : List Kind :=
  match o with
  | .tobcd | .enc12h => [.int32]
  | .frombcd | .dec12h => [.byte]
  | .config => [.int32, .addr7, .u32]
  | .settime => [.int32, .int32, .int32, .int32, .int32, .int32, .int32]
  | .setraw => [.byte, .byte, .byte, .bool, .bool, .byte, .byte, .byte, .byte]
  | .sethalt | .setout | .setsqwe | .set12h => [.bool]
  | .setrate => [.rs2]
  | .getram | .setram => [.u32, .u32]
  | .deconfig | .gettime | .getraw | .gethalt | .getout | .getsqwe | .getrate | .get12h => []

/-- How many data words follow the fixed operands: `op[1]` for SETRAM, none for every other command (R93, R100). -/
def Opcode.dataCount (o : Opcode) (words : List Word) : Nat :=
  match o with
  | .setram => (words.getD 1 0).toNat
  | .tobcd | .frombcd | .dec12h | .enc12h | .config | .deconfig
  | .gettime | .settime | .getraw | .setraw
  | .gethalt | .sethalt | .getout | .setout | .getsqwe | .setsqwe | .getrate | .setrate | .get12h | .set12h
  | .getram => 0

/-- `N`, the number of operand words of a command (R93, R95). -/
def Opcode.operandCount (o : Opcode) (words : List Word) : Nat := o.kinds.length + o.dataCount words

/-- The bits that a kind requires zero (R94). -/
def Kind.zeroBits (k : Kind) : Word :=
  match k with
  | .int32 | .u32 => 0
  | .byte => 0xFFFFFF00
  | .bool => 0xFFFFFFFE
  | .rs2 => 0xFFFFFFFC
  | .addr7 => 0xFFFFFF80

/-- A word of kind `k` has none of the bits that `k` requires zero (R94, R99). -/
def Kind.admits (k : Kind) (w : Word) : Bool := w &&& k.zeroBits == 0

/-- BYTE: `w[7:0]` (R94). -/
def byteOf (w : Word) : Byte := w.extractLsb' 0 8

/-- BOOL: `w[0]` (R94). -/
def boolOf (w : Word) : Bool := w.getLsbD 0

/-- RS2: `w[1:0]` (R94). -/
def rs2Of (w : Word) : BitVec 2 := w.extractLsb' 0 2

/-- ADDR7: `w[6:0]` (R94). -/
def addr7Of (w : Word) : BitVec 7 := w.extractLsb' 0 7

/-- Every operand word is of its kind: the fixed operands, then BYTE data words (R95, R99). -/
def Opcode.wordsAdmitted (o : Opcode) (words : List Word) : Bool :=
  ((o.kinds.zip words).all fun p => p.1.admits p.2) &&
    ((words.drop o.kinds.length).take (o.dataCount words)).all Kind.byte.admits

/-- The command of a row and its operand words (R93); none where a word it reads is absent. -/
def Opcode.assemble (o : Opcode) (words : List Word) : Option Instr :=
  match o with
  | .tobcd => match words with
    | n :: _ => some (.tobcd n)
    | [] => none
  | .frombcd => match words with
    | b :: _ => some (.frombcd (byteOf b))
    | [] => none
  | .dec12h => match words with
    | b :: _ => some (.dec12h (byteOf b))
    | [] => none
  | .enc12h => match words with
    | h :: _ => some (.enc12h h)
    | [] => none
  | .config => match words with
    | century :: dev :: speed :: _ => some (.config century (addr7Of dev) speed)
    | _ => none
  | .deconfig => some .deconfig
  | .gettime => some .gettime
  | .settime => match words with
    | sec :: min :: hour :: mday :: mon :: year :: wday :: _ => some (.settime ⟨sec, min, hour, mday, mon, year, wday⟩)
    | _ => none
  | .getraw => some .getraw
  | .setraw => match words with
    | s :: m :: h :: h12 :: pm :: day :: date :: mon :: y :: _ =>
      some (.setraw ⟨byteOf s, byteOf m, byteOf h, boolOf h12, boolOf pm, byteOf day, byteOf date, byteOf mon, byteOf y⟩)
    | _ => none
  | .gethalt => some .gethalt
  | .sethalt => match words with
    | v :: _ => some (.sethalt (boolOf v))
    | [] => none
  | .getout => some .getout
  | .setout => match words with
    | v :: _ => some (.setout (boolOf v))
    | [] => none
  | .getsqwe => some .getsqwe
  | .setsqwe => match words with
    | v :: _ => some (.setsqwe (boolOf v))
    | [] => none
  | .getrate => some .getrate
  | .setrate => match words with
    | v :: _ => some (.setrate (rs2Of v))
    | [] => none
  | .get12h => some .get12h
  | .set12h => match words with
    | v :: _ => some (.set12h (boolOf v))
    | [] => none
  | .getram => match words with
    | offset :: length :: _ => some (.getram offset length)
    | _ => none
  | .setram => match words with
    | offset :: length :: data => some (.setram offset ((data.take length.toNat).map byteOf))
    | _ => none

/-- The decoder (R95), with the refusals in the order of R288: ReservedOpcode, ShortCommand, ReservedOperandBits.
Words after the `N` that the command reads are not looked at (log 9). -/
def decode (c : Encoded) : Except DecodeError Instr :=
  match Opcode.ofByte c.op with
  | none => .error .reservedOpcode
  | some o =>
    if c.words.length < o.operandCount c.words then .error .shortCommand
    else if o.wordsAdmitted c.words then
      match o.assemble c.words with
      | some i => .ok i
      | none => .error .shortCommand
    else .error .reservedOperandBits

/-! ## The host's numbering of a command's bits -/

/-- The command whose bits are `w`, bit 0 the least significant of the opcode byte, operand word `i` at bits
`8 + 32*i` and up, every bit from `nbits` on zero, with exactly the operand words its row reads (R91, R93). -/
def commandOfTableWord (nbits w : Nat) : Encoded :=
  let bits := w % 2 ^ nbits
  let op := BitVec.ofNat 8 bits
  let word := fun i => BitVec.ofNat 32 (bits >>> (8 + 32 * i))
  match Opcode.ofByte op with
  | none => ⟨op, []⟩
  | some o => ⟨op, (List.range (o.operandCount [word 0, word 1])).map word⟩

/-- The instruction that the decoder reads from an instruction whose bits are `w` (numbered as above). -/
def decodeTableWord (nbits w : Nat) : Option Instr :=
  match decode (commandOfTableWord nbits w) with
  | .ok i => some i
  | .error _ => none

/-! ## The encoder -/

/-- The word of a BYTE value: its upper bits are 0 (R94). -/
def wordOfByte (b : Byte) : Word := b.zeroExtend 32

/-- The word of a BOOL value: its upper bits are 0 (R94). -/
def wordOfBool (v : Bool) : Word := if v then 1 else 0

/-- The operand words of a Calendar Time record, in word order (R42, R93). -/
def CalendarTime.words (t : CalendarTime) : List Word := [t.sec, t.min, t.hour, t.mday, t.mon, t.year, t.wday]

/-- The operand words of a Raw Data record, in word order (R43, R93). -/
def RawData.words (d : RawData) : List Word :=
  [wordOfByte d.seconds, wordOfByte d.minutes, wordOfByte d.hours, wordOfBool d.hour12, wordOfBool d.pm,
   wordOfByte d.day, wordOfByte d.date, wordOfByte d.month, wordOfByte d.year]

/-- The opcode byte and operand words of a command (R91, R93, R97). -/
def encode (i : Instr) : Encoded :=
  match i with
  | .tobcd n => ⟨0x01, [n]⟩
  | .frombcd b => ⟨0x02, [wordOfByte b]⟩
  | .dec12h b => ⟨0x03, [wordOfByte b]⟩
  | .enc12h h => ⟨0x04, [h]⟩
  | .config century dev speed => ⟨0x10, [century, dev.zeroExtend 32, speed]⟩
  | .deconfig => ⟨0x11, []⟩
  | .gettime => ⟨0x20, []⟩
  | .settime t => ⟨0x21, t.words⟩
  | .getraw => ⟨0x22, []⟩
  | .setraw d => ⟨0x23, d.words⟩
  | .gethalt => ⟨0x30, []⟩
  | .sethalt v => ⟨0x31, [wordOfBool v]⟩
  | .getout => ⟨0x32, []⟩
  | .setout v => ⟨0x33, [wordOfBool v]⟩
  | .getsqwe => ⟨0x34, []⟩
  | .setsqwe v => ⟨0x35, [wordOfBool v]⟩
  | .getrate => ⟨0x36, []⟩
  | .setrate v => ⟨0x37, [v.zeroExtend 32]⟩
  | .get12h => ⟨0x38, []⟩
  | .set12h v => ⟨0x39, [wordOfBool v]⟩
  | .getram offset length => ⟨0x40, [offset, length]⟩
  | .setram offset bytes => ⟨0x41, offset :: BitVec.ofNat 32 bytes.length :: bytes.map wordOfByte⟩

end Sys2Proof
end

