-- ==== Sys2Proof/Machine/State.lean ====
section
/-! DEFINITION. Machine/State.lean: the state of the block instances, the register image and the world around them, as
plain data; the reasons a run can stop; the state after reset. -/
namespace Sys2Proof.Machine

/-- The model's faults: `arithOverflow` is a command's only one (R281 (c)). -/
inductive Fault where
  /-- A 32-bit signed result does not fit: raised by CONFIG (`yearBase`, R121) and GETTIME (the year sum, R171). The
  spec's own fault, so the stop is the spec's (safe). -/
  | arithOverflow
  /-- The host presents a command to an instance whose command is in progress, or reads its response, raised by `step`:
  outside the model, and stuck where a model must give it a step (R297, U16; log 18), so the stop is the spec's (safe). -/
  | concurrentUse
deriving DecidableEq, Repr

/-- The refusals (R281 (d), R286): the command has no meaning and changes nothing. -/
inductive Refusal where
  /-- An instruction without a meaning in this model, raised by no arm of `exec`: safe. -/
  | notModelled (mnemonic : String)
  /-- An opcode byte not in the opcode map, raised at decode (R98): the spec's own refusal, safe. -/
  | reservedOpcode
  /-- An operand word with a bit that its kind requires zero, raised at decode (R99): the spec's own refusal, safe. -/
  | reservedOperandBits
  /-- A command with fewer words than it reads, raised at decode (R95; log 10): safe. -/
  | shortCommand
  /-- CONFIG on a configured instance, raised by CONFIG (R122): the spec's own refusal, safe. -/
  | alreadyConfigured
deriving DecidableEq, Repr

/-- The four codes of the status register (R27). -/
inductive Status where
  | ok
  | invalidArgument
  | outOfMemory
  | busError
deriving DecidableEq, Repr

/-- The three error kinds a command can raise (R281 (b)). -/
inductive ErrorKind where
  | invalidArgument
  | outOfMemory
  | busError
deriving DecidableEq, Repr

/-- The handle: the configuration state of one instance (R21). `bus` is the capability held, none where none is. -/
structure Cfg where
  configured : Bool
  yearBase   : Word
  dev        : BitVec 7
  speed      : Word
  bus        : Option Nat
deriving DecidableEq, Repr

/-- The command port of one instance (R25, R27). `hasCommand` says that `OP` and the operand words hold a value,
`hasStatus` that the status register does; a word list that holds no word has no value (R56; log 2). -/
structure Port where
  hasCommand : Bool
  op         : Byte
  operands   : List Word
  hasStatus  : Bool
  status     : Status
  results    : List Word
deriving DecidableEq, Repr

/-- The write that a read-modify-write command in progress still owes: its first address and its bytes, computed from
the bytes read (R66, R78). -/
structure Pending where
  addr  : Nat
  bytes : List Byte
deriving DecidableEq, Repr

/-- One block instance RC[k] (R7, R296): its handle, its port, and the write it owes where its command stands between
its two transactions (log 18). -/
structure Rc where
  cfg     : Cfg
  port    : Port
  pending : Option Pending
deriving DecidableEq, Repr

/-- The handle after reset (R56): not configured, no capability; the unspecified fields hold 0 (log 1). -/
def Cfg.reset : Cfg := { configured := false, yearBase := 0, dev := 0, speed := 0, bus := none }

/-- The command port after reset (R56): no value anywhere (log 2). -/
def Port.reset : Port :=
  { hasCommand := false, op := 0, operands := [], hasStatus := false, status := .ok, results := [] }

/-- An instance after reset (R56, R296): no command in progress. -/
def Rc.reset : Rc := { cfg := Cfg.reset, port := Port.reset, pending := none }

/-- The register image (R28): address and byte pairs in canonical form (`Memory.wf`). -/
abbrev Memory := List Host.Cell

/-- One operation on the bus collaborator (R61): what the block asked for and what came of it. -/
inductive BusOp where
  /-- `attachDevice` (R122): the capability obtained, none where the attach failed. -/
  | attach (dev : BitVec 7) (speed : Word) (capability : Option Nat)
  /-- `detachDevice` (R123), or the release of a capability when CONFIG rolls back (R122). -/
  | detach (capability : Option Nat) (outcome : BusOutcome)
  /-- `MemRead(addr, n)` on a device with a capability (R14): the bytes returned, none where it failed. -/
  | memRead (dev : BitVec 7) (capability : Option Nat) (addr n : Nat) (bytes : Option (List Byte))
  /-- `MemWrite(addr, n, v)` on a device with a capability (R14). -/
  | memWrite (dev : BitVec 7) (capability : Option Nat) (addr : Nat) (bytes : List Byte) (outcome : BusOutcome)
deriving DecidableEq, Repr

/-- One entry of the transaction record (R298), with the instance that issued it. -/
structure BusRecord where
  rc : Nat
  op : BusOp
deriving DecidableEq, Repr

/-- What comes next in the total order of R77: an act of the host (R26, R321) or a turn of an instance (R296). -/
inductive HostEvent where
  /-- The host presents a command and the instance runs it to its end, no other instance in between. -/
  | command (rc : Nat) (c : Encoded)
  /-- The host presents a command and the instance runs it as far as its second transaction, which waits for the
  instance's `finish` (R78, R296; log 18). A command that issues no second transaction runs to its end. -/
  | start (rc : Nat) (c : Encoded)
  /-- The instance issues the second transaction of its command and ends it; with no command in progress, an idle
  turn. -/
  | finish (rc : Nat)
  /-- The host reads the response of an instance. -/
  | readResponse (rc : Nat)
  /-- The host restarts the block. -/
  | restart
deriving DecidableEq, Repr

/-- The free inputs (`draw(T)`, R15): for each kind a script, read before the opaque free values of Config, and the
count of draws of the kind so far (log 5). The model's own field, not the spec's. -/
structure Inputs where
  txns     : List Txn
  nTxn     : Nat
  attaches : List AttachOutcome
  nAttach  : Nat
  detaches : List BusOutcome
  nDetach  : Nat
  bytes    : List Byte
  nByte    : Nat
  nPointer : Nat
deriving DecidableEq, Repr

/-- The machine: every instance (R296), the one whose command runs, the register image (R28), the chip's register
pointer (R45), RAW_CODING (R10), what comes next (R26, R77), the free inputs (R15) and the transaction record
(R298). -/
structure State where
  insts   : List (Nat × Rc)
  cur     : Nat
  mem     : Memory
  pointer : Byte
  coding  : RawCoding
  inbox   : List HostEvent
  inputs  : Inputs
  busLog  : List BusRecord
deriving DecidableEq, Repr

/-- No script: every free value is an opaque constant of Config (log 5). -/
def Inputs.reset : Inputs :=
  { txns := [], nTxn := 0, attaches := [], nAttach := 0, detaches := [], nDetach := 0, bytes := [], nByte := 0,
    nPointer := 0 }

/-- The machine after reset (R56, R321): no instance configured, every port empty, nothing listed in the image (log 4),
RAW_CODING at its default (log 12). -/
def State.reset : State :=
  { insts := [], cur := 0, mem := [], pointer := 0, coding := .decimal, inbox := [], inputs := Inputs.reset,
    busLog := [] }

end Sys2Proof.Machine
end

