-- ==== Sys2Proof/Machine/Flags.lean ====
section
/-! DEFINITION. Machine/Flags.lean: the status register, the block's only flag state (R27). -/
namespace Sys2Proof.Machine

/-- The numeric code of a status (R27, D33). -/
def Status.code (st : Status) : Nat :=
  match st with
  | .ok => 0
  | .invalidArgument => 1
  | .outOfMemory => 2
  | .busError => 3

/-- The status that an error kind leaves (R281 (b)). -/
def ErrorKind.status (e : ErrorKind) : Status :=
  match e with
  | .invalidArgument => .invalidArgument
  | .outOfMemory => .outOfMemory
  | .busError => .busError

/-- The port of a command that ended with a status and result words; the operand words stay until the host has read
the response (R25, R27, R289). -/
def Port.ended (p : Port) (st : Status) (results : List Word) : Port :=
  { p with hasStatus := true, status := st, results := results }

/-- The port when a command is presented: `OP` and the operand words hold it, no result word holds a value, the status
is what the last command left (R25, R27). -/
def Port.presented (p : Port) (c : Encoded) : Port :=
  { p with hasCommand := true, op := c.op, operands := c.words, results := [] }

/-- The port after the host has read the response: operand and result words hold no value (R25; log 15). -/
def Port.read (p : Port) : Port :=
  { Port.reset with hasStatus := p.hasStatus, status := p.status }

end Sys2Proof.Machine
end

