-- ==== Sys2Proof/Machine/Operands.lean ====
section
/-! DEFINITION. Machine/Operands.lean: how operand values become integers and how results become words (R12, R94), the
field table of the single-field accessors (R211), the legal ranges of calendar fields (R172), and the RAM bound (R261). -/
namespace Sys2Proof.Machine

/-- `int32(w)`: two's complement (R12, R94). -/
abbrev int32 (w : Word) : Int := w.toInt

/-- An integer fits INT32 (R121, R171). -/
def fitsInt32 (n : Int) : Bool := decide (-2 ^ 31 ≤ n ∧ n ≤ 2 ^ 31 - 1)

/-- An INT32 result word: the two's-complement word (R94). -/
def int32Word (n : Int) : Word := BitVec.ofInt 32 n

/-- `zext_32` of a byte (R12, R94). -/
abbrev zext32 (b : Byte) : Word := b.zeroExtend 32

/-- A BYTE result word of a value 0..255 (R94, R176). -/
abbrev byteWord (n : Nat) : Word := BitVec.ofNat 32 n

/-- A BOOL result word (R94). -/
def boolWord (v : Bool) : Word := if v then 1 else 0

/-- A single bit field of one register (R211). -/
structure Field where
  addr  : Nat
  mask  : Byte
  shift : Nat
deriving DecidableEq, Repr

/-- CH (R211, SEL 0). -/
def fieldCH : Field := { addr := 0x00, mask := 0x80, shift := 7 }

/-- OUT (R211, SEL 1). -/
def fieldOUT : Field := { addr := 0x07, mask := 0x80, shift := 7 }

/-- SQWE (R211, SEL 2). -/
def fieldSQWE : Field := { addr := 0x07, mask := 0x10, shift := 4 }

/-- RS1:RS0 (R211, SEL 3). -/
def fieldRS : Field := { addr := 0x07, mask := 0x03, shift := 0 }

/-- The 12/24 mode flag (R211, SEL 4). -/
def fieldMode : Field := { addr := 0x02, mask := 0x40, shift := 6 }

/-- The byte of a BOOL operand (R212). -/
def boolByte (v : Bool) : Byte := if v then 1 else 0

/-- `(r & m) >> s` (R211). -/
def Field.extract (f : Field) (r : Byte) : Byte := (r &&& f.mask) >>> f.shift

/-- `nb = (v << s) & m` (R212). -/
def Field.newBits (f : Field) (v : Byte) : Byte := (v <<< f.shift) &&& f.mask

/-- The field of `r` already holds `v`: the skip test (R212, R213). -/
def Field.holds (f : Field) (r v : Byte) : Bool := r &&& f.mask == f.newBits v

/-- `(r & ~m) | nb` (R212). -/
def Field.insert (f : Field) (r v : Byte) : Byte := (r &&& ~~~f.mask) ||| f.newBits v

/-- Legal ranges of the Calendar Time fields (R172). -/
def legalSec (n : Int) : Bool := decide (0 ≤ n ∧ n ≤ 59)
def legalMin (n : Int) : Bool := decide (0 ≤ n ∧ n ≤ 59)
def legalHour (n : Int) : Bool := decide (0 ≤ n ∧ n ≤ 23)
def legalWday (n : Int) : Bool := decide (0 ≤ n ∧ n ≤ 6)
def legalMday (n : Int) : Bool := decide (1 ≤ n ∧ n ≤ 31)
def legalMon (n : Int) : Bool := decide (0 ≤ n ∧ n ≤ 11)

/-- `inRange(offset, length)`: `offset + length <= 56` on mathematical integers (R261). -/
def inRange (offset length : Nat) : Bool := decide (offset + length ≤ 56)

/-- The RAM base: offset `o` is register address `8 + o` (R37, R73). -/
def ramBase : Nat := 0x08

/-- The century normalisation, literally (R121): none where the base does not fit INT32. -/
def yearBase (century : Int) : Option Word :=
  let c := if century = 0 then 21 else if century < 0 then century + 1 else century
  let yb := (c - 20) * 100
  if fitsInt32 yb then some (int32Word yb) else none

end Sys2Proof.Machine
end

