-- ==== Sys2Proof/Machine/Ops.lean ====
section
/-! DEFINITION. Machine/Ops.lean: the named operations over the instances, the register image, the free inputs, the
bus and the host's port; ending a command in an error (`raise`, R15, R289); block reset (R321). -/
namespace Sys2Proof.Machine

/-! ## Sparse tables: key and value pairs, keys strictly rising, no entry equal to the default -/

/-- The value at a key; the default where no entry has the key. -/
def Sparse.get {α : Type} (d : α) (m : List (Nat × α)) (k : Nat) : α :=
  match m with
  | [] => d
  | (k', v) :: rest => if k = k' then v else Sparse.get d rest k

/-- The entry for a key at the head of a table whose keys are larger: none where the value is the default. -/
def Sparse.cons {α : Type} [DecidableEq α] (d : α) (k : Nat) (v : α) (m : List (Nat × α)) : List (Nat × α) :=
  if v = d then m else (k, v) :: m

/-- Set the value at a key, keeping the canonical form. -/
def Sparse.set {α : Type} [DecidableEq α] (d : α) (m : List (Nat × α)) (k : Nat) (v : α) : List (Nat × α) :=
  match m with
  | [] => Sparse.cons d k v []
  | (k', v') :: rest =>
    if k < k' then Sparse.cons d k v ((k', v') :: rest)
    else if k = k' then Sparse.cons d k v rest
    else (k', v') :: Sparse.set d rest k v

/-- Keys from `lo` on, strictly rising, and no entry equal to the default. -/
def Sparse.wfFrom {α : Type} [DecidableEq α] (d : α) (lo : Nat) (m : List (Nat × α)) : Bool :=
  match m with
  | [] => true
  | (k, v) :: rest => decide (lo ≤ k) && !decide (v = d) && Sparse.wfFrom d (k + 1) rest

/-! ## The register image -/

/-- The number of registers: addresses 0x00-0x3F (R28). -/
def imageSize : Nat := 64

/-- What an image byte that nothing has written holds (log 4). -/
def unlistedByte : Byte := 0x00

/-- The canonical form of the image: addresses in 0x00-0x3F, strictly rising, no entry equal to `unlistedByte`. -/
def Memory.wf (m : Memory) : Bool :=
  Sparse.wfFrom unlistedByte 0 m && m.all fun c => decide (c.1 < imageSize)

/-- The byte that the image holds at an address (R39). -/
def Memory.get (m : Memory) (a : Nat) : Byte := Sparse.get unlistedByte m a

/-- The image with one byte written (R39). No address beyond 0x3F exists (R28), and no command reaches one (R67). -/
def Memory.set (m : Memory) (a : Nat) (v : Byte) : Memory :=
  if a < imageSize then Sparse.set unlistedByte m a v else m

/-- The image with byte `i` of a list at address `a + i` (R14, R63). -/
def Memory.setList (m : Memory) (a : Nat) (v : List Byte) : Memory :=
  match v with
  | [] => m
  | b :: rest => Memory.setList (m.set a b) (a + 1) rest

/-- The image after the ENV steps of a transaction's input, in their order (R74). -/
def Memory.afterEnv (m : Memory) (env : List EnvWrite) : Memory :=
  env.foldl (fun m w => m.set w.addr.toNat w.byte) m

/-- The reserved bits of a register (R38). -/
def reservedMask (a : Nat) : Byte :=
  match a with
  | 0x01 => 0x80
  | 0x02 => 0x80
  | 0x03 => 0xF8
  | 0x04 => 0xC0
  | 0x05 => 0xE0
  | 0x07 => 0x6C
  | _ => 0x00

/-- A byte as a read returns it: the stored bits, and a free value in each reserved bit (R38, R39). -/
def readBack (a : Nat) (stored free : Byte) : Byte :=
  (stored &&& ~~~reservedMask a) ||| (free &&& reservedMask a)

/-! ## The instances -/

/-- Instance `k` (R296). -/
def State.rcAt (s : State) (k : Nat) : Rc := Sparse.get Rc.reset s.insts k

/-- The instance whose command runs. -/
def State.rc (s : State) : Rc := s.rcAt s.cur

/-- Its handle (R21). -/
def State.cfg (s : State) : Cfg := s.rc.cfg

/-- Its command port (R25). -/
def State.port (s : State) : Port := s.rc.port

/-- Write instance `k`. -/
def State.setRcAt (s : State) (k : Nat) (r : Rc) : State := { s with insts := Sparse.set Rc.reset s.insts k r }

/-- Write the port of the instance whose command runs. -/
def State.setPort (s : State) (p : Port) : State := s.setRcAt s.cur { s.rc with port := p }

/-- Write the handle of the instance whose command runs. -/
def State.setCfg (s : State) (c : Cfg) : State := s.setRcAt s.cur { s.rc with cfg := c }

/-- Write what the instance whose command runs still owes. -/
def State.setPending (s : State) (p : Option Pending) : State := s.setRcAt s.cur { s.rc with pending := p }

/-- Whether the command of instance `k` is in progress: between its two transactions (R297; log 18). -/
def State.busy (s : State) (k : Nat) : Bool := (s.rcAt k).pending.isSome

/-! ## The end of a command -/

/-- `status <- OK` with the result words (R27). -/
def State.complete (s : State) (results : List Word) : State := s.setPort (s.port.ended .ok results)

/-- `raise E`: the command ends with the error's status, no result word holds a value, and nothing else is saved: no
cause, no address, no handler (R15, R289). There is no return from an error: the instance accepts the host's next
command (R291). -/
def State.raise (s : State) (e : ErrorKind) : State := s.setPort (s.port.ended e.status [])

/-! ## Free inputs (R15; log 5) -/

/-- The input of the coming transaction. -/
def State.txn (s : State) : Txn :=
  match s.inputs.txns with
  | t :: _ => t
  | [] => Config.freeTxn s.inputs.nTxn

/-- The free byte for byte `i` of the coming transaction. -/
def State.noise (s : State) (i : Nat) : Byte := s.txn.noise.getD i (Config.freeNoise s.inputs.nTxn i)

/-- The outcome of the coming attach. -/
def State.attachOutcome (s : State) : AttachOutcome :=
  match s.inputs.attaches with
  | o :: _ => o
  | [] => Config.freeAttach s.inputs.nAttach

/-- The outcome of the coming detach. -/
def State.detachOutcome (s : State) : BusOutcome :=
  match s.inputs.detaches with
  | o :: _ => o
  | [] => Config.freeDetach s.inputs.nDetach

/-- The `i`-th free byte from here on. -/
def State.freeByte (s : State) (i : Nat) : Byte := s.inputs.bytes.getD i (Config.freeByte (s.inputs.nByte + i))

/-- Past `n` free bytes. -/
def State.skipBytes (s : State) (n : Nat) : State :=
  { s with inputs := { s.inputs with bytes := s.inputs.bytes.drop n, nByte := s.inputs.nByte + n } }

/-! ## Bus transactions -/

/-- The image that the coming transaction meets: the ENV steps since the one before it have been taken (R68, R74). -/
def State.imageNow (s : State) : Memory := s.mem.afterEnv s.txn.env

/-- The bytes that `MemRead(a, _)` returns, by index (R14, R38, R63). -/
def State.readByte (s : State) (a i : Nat) : Byte := readBack (a + i) (s.imageNow.get (a + i)) (s.noise i)

/-- After a transaction that leaves an image: its input is used up, the register pointer holds a free value (R45), and
the record has one more entry (R298). -/
def State.transacted (s : State) (m : Memory) (op : BusOp) : State :=
  { s with
    mem := m
    pointer := Config.freePointer s.inputs.nPointer
    inputs := { s.inputs with
      txns := s.inputs.txns.tail, nTxn := s.inputs.nTxn + 1, nPointer := s.inputs.nPointer + 1 }
    busLog := s.busLog ++ [{ rc := s.cur, op := op }] }

/-- After a successful `MemRead(a, n)`: the image is as ENV left it (R69). -/
def State.afterRead (s : State) (a n : Nat) : State :=
  s.transacted s.imageNow (.memRead s.cfg.dev s.cfg.bus a n (some ((List.range n).map (s.readByte a))))

/-- After a failed `MemRead(a, n)`: no image byte changes and no byte is returned (R72). -/
def State.afterFailedRead (s : State) (a n : Nat) : State :=
  s.transacted s.imageNow (.memRead s.cfg.dev s.cfg.bus a n none)

/-- After a successful `MemWrite(a, _, v)` (R14). -/
def State.afterWrite (s : State) (a : Nat) (v : List Byte) : State :=
  s.transacted (s.imageNow.setList a v) (.memWrite s.cfg.dev s.cfg.bus a v .ok)

/-- After a failed `MemWrite(a, _, v)`: each addressed byte holds a free value, no other byte changes (R72). -/
def State.afterFailedWrite (s : State) (a : Nat) (v : List Byte) : State :=
  s.transacted (s.imageNow.setList a ((List.range v.length).map s.noise)) (.memWrite s.cfg.dev s.cfg.bus a v .fail)

/-- The handle check (R22): with no handle the command ends with InvalidArgument and issues no transaction. -/
def State.withHandle (s : State) (k : State → Host.Outcome State Fault Refusal) : Host.Outcome State Fault Refusal :=
  if s.cfg.configured then k s else .next (s.raise .invalidArgument)

/-- One `MemRead(a, n)`, then the rest of the command with the bytes; on failure the command ends with BusError (R72). -/
def State.onRead (s : State) (a n : Nat) (k : (Nat → Byte) → State → Host.Outcome State Fault Refusal) :
    Host.Outcome State Fault Refusal :=
  match s.txn.outcome with
  | .ok => k (s.readByte a) (s.afterRead a n)
  | .fail => .next ((s.afterFailedRead a n).raise .busError)

/-- One `MemWrite(a, _, v)`, the last act of every command that writes: the command ends with OK or BusError (R72). -/
def State.writeAndEnd (s : State) (a : Nat) (v : List Byte) : State :=
  match s.txn.outcome with
  | .ok => (s.afterWrite a v).complete []
  | .fail => (s.afterFailedWrite a v).raise .busError

/-! ## A command between its two transactions (R78, R296; log 18) -/

/-- The final write waits: the command stays in progress and its instance owes the write. -/
def State.hold (s : State) (a : Nat) (v : List Byte) : State := s.setPending (some { addr := a, bytes := v })

/-- The turn of instance `k`: it issues the write it owes and its command ends; with none, nothing happens. -/
def State.finish (s : State) (k : Nat) : State :=
  match (s.rcAt k).pending with
  | none => s
  | some p => (State.setPending { s with cur := k } none).writeAndEnd p.addr p.bytes

/-! ## Attach and detach -/

/-- Record an attach or a detach (R61, R298). -/
def State.recordBus (s : State) (op : BusOp) : State := { s with busLog := s.busLog ++ [{ rc := s.cur, op := op }] }

/-- Past one attach outcome. -/
def State.skipAttach (s : State) : State :=
  { s with inputs := { s.inputs with attaches := s.inputs.attaches.tail, nAttach := s.inputs.nAttach + 1 } }

/-- Past one detach outcome. -/
def State.skipDetach (s : State) : State :=
  { s with inputs := { s.inputs with detaches := s.inputs.detaches.tail, nDetach := s.inputs.nDetach + 1 } }

/-! ## The host's side -/

/-- A command is presented to instance `k`: its port holds the command, and it is the instance that runs (R25, R26). -/
def State.present (s : State) (k : Nat) (c : Encoded) : State :=
  let s := { s with cur := k }
  s.setPort (s.port.presented c)

/-- The host has read the response of instance `k` (R25). -/
def State.responseRead (s : State) (k : Nat) : State :=
  s.setRcAt k { s.rcAt k with port := (s.rcAt k).port.read }

/-- Block reset (R321): every instance at its reset values, no capability released; the image is not touched (R41,
R323), the register pointer is unspecified (R56), and what lies outside the block goes on (log 16). -/
def State.blockReset (s : State) : State :=
  { s with
    insts := []
    cur := 0
    pointer := Config.freePointer s.inputs.nPointer
    inputs := { s.inputs with nPointer := s.inputs.nPointer + 1 } }

/-- The refusal of a command that the decoder turns away (R286). -/
def refusalOf (e : DecodeError) : Refusal :=
  match e with
  | .reservedOpcode => .reservedOpcode
  | .shortCommand => .shortCommand
  | .reservedOperandBits => .reservedOperandBits

end Sys2Proof.Machine
end

