-- ==== Sys2Proof/Machine/Codec.lean ====
section
/-! DEFINITION. Machine/Codec.lean: the BCD codec and the 12/24-hour converter (R141-R148), and family 0. Where a
function needs `draw(byte)`, the free byte is its argument `free`. -/
namespace Sys2Proof.Machine

/-- `toBCD(n)`: tens in bits 7-4, units in bits 3-0; a free byte outside 0..99 (R141). -/
def toBCD (n : Int) (free : Byte) : Byte :=
  if 0 ≤ n ∧ n ≤ 99 then (BitVec.ofNat 8 (n.toNat / 10) <<< 4) ||| BitVec.ofNat 8 (n.toNat % 10) else free

/-- `fromBCD(b)`: `(b >> 4) * 10 + (b & 0x0F)`, on every byte (R143). -/
def fromBCD (b : Byte) : Nat := (b >>> 4).toNat * 10 + (b &&& 0x0F).toNat

/-- `decode12Hour(b)` (R145). -/
def decode12Hour (b : Byte) : Nat :=
  let h := fromBCD (b &&& 0x1F)
  let h := if h = 12 then 0 else h
  if b.getLsbD 5 then h + 12 else h

/-- `encode12Hour(h)` (R147). -/
def encode12Hour (h : Int) (free : Byte) : Byte :=
  let pm := decide (12 ≤ h)
  let h := if pm then h - 12 else h
  let h := if h = 0 then 12 else h
  let b := toBCD h free
  let b := if pm then b ||| 0x20 else b
  b ||| 0x40

/-- TOBCD n (R142). -/
def execTobcd (n : Word) (s : State) : Host.Outcome State Fault Refusal :=
  .next ((s.skipBytes 1).complete [zext32 (toBCD (int32 n) (s.freeByte 0))])

/-- FROMBCD b (R144). -/
def execFrombcd (b : Byte) (s : State) : Host.Outcome State Fault Refusal :=
  .next (s.complete [byteWord (fromBCD b)])

/-- DEC12H b (R146). -/
def execDec12h (b : Byte) (s : State) : Host.Outcome State Fault Refusal :=
  .next (s.complete [int32Word (decode12Hour b)])

/-- ENC12H h (R148). -/
def execEnc12h (h : Word) (s : State) : Host.Outcome State Fault Refusal :=
  .next ((s.skipBytes 1).complete [zext32 (encode12Hour (int32 h) (s.freeByte 0))])

end Sys2Proof.Machine
end

