-- ==== Sys2Proof/Machine/Fields.lean ====
section
/-! DEFINITION. Machine/Fields.lean: family 3, the single-field accessors (R211-R224). -/
namespace Sys2Proof.Machine

/-- The getter pattern (R211). -/
def getField (f : Field) (s : State) : Host.Outcome State Fault Refusal :=
  s.withHandle fun s => s.onRead f.addr 1 fun r s' => .next (s'.complete [zext32 (f.extract (r 0))])

/-- The setter pattern, read-check-write, its final write done by `write` (log 18): it is skipped where the field
already holds the value (R212, R213). -/
def setFieldWith (write : State → Nat → List Byte → State) (f : Field) (v : Byte) (s : State) :
    Host.Outcome State Fault Refusal :=
  s.withHandle fun s => s.onRead f.addr 1 fun r s' =>
    .next (if f.holds (r 0) v then s'.complete [] else write s' f.addr [f.insert (r 0) v])

/-- The setter pattern (R212, R213). -/
def setField (f : Field) (v : Byte) (s : State) : Host.Outcome State Fault Refusal := setFieldWith State.writeAndEnd f v s

/-- GETHALT (R214). -/
def execGethalt (s : State) : Host.Outcome State Fault Refusal := getField fieldCH s

/-- SETHALT v (R215). -/
def execSethalt (v : Bool) (s : State) : Host.Outcome State Fault Refusal := setField fieldCH (boolByte v) s

/-- GETOUT (R216). -/
def execGetout (s : State) : Host.Outcome State Fault Refusal := getField fieldOUT s

/-- SETOUT v (R217). -/
def execSetout (v : Bool) (s : State) : Host.Outcome State Fault Refusal := setField fieldOUT (boolByte v) s

/-- GETSQWE (R218). -/
def execGetsqwe (s : State) : Host.Outcome State Fault Refusal := getField fieldSQWE s

/-- SETSQWE v (R219). -/
def execSetsqwe (v : Bool) (s : State) : Host.Outcome State Fault Refusal := setField fieldSQWE (boolByte v) s

/-- GETRATE (R220). -/
def execGetrate (s : State) : Host.Outcome State Fault Refusal := getField fieldRS s

/-- SETRATE v (R221). -/
def execSetrate (v : BitVec 2) (s : State) : Host.Outcome State Fault Refusal := setField fieldRS (v.zeroExtend 8) s

/-- GET12H (R222). -/
def execGet12h (s : State) : Host.Outcome State Fault Refusal := getField fieldMode s

/-- `reencode(b, v)`: the hours byte `b` in the target mode `v` (R223). The codec's argument is in 0..99 for every `b`,
so `free` never shows. -/
def reencode (b : Byte) (v : Bool) (free : Byte) : Byte :=
  if v then encode12Hour (fromBCD (b &&& 0x3F)) free else toBCD (decode12Hour b) free

/-- SET12H v (R224), its final write done by `write` (log 18). -/
def set12hWith (write : State → Nat → List Byte → State) (v : Bool) (s : State) : Host.Outcome State Fault Refusal :=
  s.withHandle fun s => s.onRead 0x02 1 fun r s' =>
    .next (if (r 0).getLsbD 6 == v then s'.complete []
      else write s' 0x02 [reencode (r 0) v (s'.freeByte 0)])

/-- SET12H v (R224). -/
def execSet12h (v : Bool) (s : State) : Host.Outcome State Fault Refusal := set12hWith State.writeAndEnd v s

end Sys2Proof.Machine
end

