-- ==== Sys2Proof/Machine/Handle.lean ====
section
/-! DEFINITION. Machine/Handle.lean: family 1, the handle lifecycle (R121-R124). -/
namespace Sys2Proof.Machine

/-- CONFIG on an unconfigured instance with a base that fits: attach, then by its outcome the handle is written, or the
instance is left as it was, a capability that was obtained being released first (R122, R290). -/
def State.configure (s : State) (dev : BitVec 7) (speed yb : Word) : State :=
  match s.attachOutcome with
  | .attachFail => (s.skipAttach.recordBus (.attach dev speed none)).raise .busError
  | .allocFail cap =>
    ((s.skipAttach.recordBus (.attach dev speed (some cap))).recordBus (.detach (some cap) .ok)).raise .outOfMemory
  | .ok cap =>
    ((s.skipAttach.recordBus (.attach dev speed (some cap))).setCfg
      { configured := true, yearBase := yb, dev := dev, speed := speed, bus := some cap }).complete []

/-- CONFIG century, dev, speed (R122). -/
def execConfig (century : Word) (dev : BitVec 7) (speed : Word) (s : State) : Host.Outcome State Fault Refusal :=
  if s.cfg.configured then .refused .alreadyConfigured
  else match yearBase (int32 century) with
    | none => .fault .arithOverflow
    | some yb => .next (s.configure dev speed yb)

/-- DECONFIG on a configured instance: detach; on both outcomes the instance is unconfigured and holds no capability
(R123, R290). -/
def State.deconfigure (s : State) : State :=
  let released := (s.skipDetach.recordBus (.detach s.cfg.bus s.detachOutcome)).setCfg
    { s.cfg with configured := false, bus := none }
  match s.detachOutcome with
  | .ok => released.complete []
  | .fail => released.raise .busError

/-- DECONFIG (R123). -/
def execDeconfig (s : State) : Host.Outcome State Fault Refusal :=
  s.withHandle fun s => .next s.deconfigure

end Sys2Proof.Machine
end

