-- ==== Sys2Proof/Machine/Ram.lean ====
section
/-! DEFINITION. Machine/Ram.lean: family 4, the RAM window (R261-R263). -/
namespace Sys2Proof.Machine

/-- The bound check, before any transaction (R261). -/
def State.withinRam (s : State) (offset length : Nat) (k : State → Host.Outcome State Fault Refusal) :
    Host.Outcome State Fault Refusal :=
  if inRange offset length then k s else .next (s.raise .invalidArgument)

/-- GETRAM offset, length (R262). -/
def execGetram (offset length : Word) (s : State) : Host.Outcome State Fault Refusal :=
  s.withHandle fun s => s.withinRam offset.toNat length.toNat fun s =>
    s.onRead (ramBase + offset.toNat) length.toNat fun r s' =>
      .next (s'.complete ((List.range length.toNat).map fun i => zext32 (r i)))

/-- SETRAM offset, [bytes] (R263). -/
def execSetram (offset : Word) (bytes : List Byte) (s : State) : Host.Outcome State Fault Refusal :=
  s.withHandle fun s => s.withinRam offset.toNat bytes.length fun s =>
    .next (s.writeAndEnd (ramBase + offset.toNat) bytes)

end Sys2Proof.Machine
end

