-- ==== Sys2Proof/Machine/Time.lean ====
section
/-! DEFINITION. Machine/Time.lean: family 2, calendar time (R171-R174) and raw register data (R176-R178). -/
namespace Sys2Proof.Machine

/-! ## Calendar time -/

/-- The hour that an hours byte shows, by its mode bit (R171). -/
def hourOf (b : Byte) : Nat := if b.getLsbD 6 then decode12Hour b else fromBCD (b &&& 0x3F)

/-- The year of a year byte on a base (R171). -/
def yearOf (base : Word) (b : Byte) : Int := int32 base + fromBCD b

/-- The result words of GETTIME: `sec, min, hour, mday, mon, year, wday` (R42, R171). -/
def timeWords (base : Word) (r : Nat → Byte) : List Word :=
  [int32Word (fromBCD (r 0 &&& 0x7F)),
   int32Word (fromBCD (r 1 &&& 0x7F)),
   int32Word (hourOf (r 2)),
   int32Word (fromBCD (r 4 &&& 0x3F)),
   int32Word ((fromBCD (r 5 &&& 0x1F) : Int) - 1),
   int32Word (yearOf base (r 6)),
   int32Word (((r 3 &&& 0x07).toNat : Int) - 1)]

/-- GETTIME (R171). -/
def execGettime (s : State) : Host.Outcome State Fault Refusal :=
  s.withHandle fun s => s.onRead 0x00 7 fun r s' =>
    if fitsInt32 (yearOf s.cfg.yearBase (r 6)) then .next (s'.complete (timeWords s.cfg.yearBase r))
    else .fault .arithOverflow

/-- `emod(year, 100)` (R12, R173). -/
def yearOfCentury (year : Word) : Int := int32 year % 100

/-- `L(f, e)`: the byte where the field is in its legal range, else a free byte (R172, R174). -/
def legalOr (legal : Bool) (byte free : Byte) : Byte := if legal then byte else free

/-- The hours byte of an hour in a mode (R174). -/
def hourByte (mode : Bool) (hour : Int) (free : Byte) : Byte :=
  if mode then encode12Hour hour free else toBCD hour free

/-- The seven bytes SETTIME writes: `r` holds the bytes read back, `free i` is the free byte of byte `i` (R174). -/
def timeBytes (t : CalendarTime) (r : Nat → Byte) (free : Nat → Byte) : List Byte :=
  [legalOr (legalSec (int32 t.sec)) ((r 0 &&& 0x80) ||| toBCD (int32 t.sec) (free 0)) (free 0),
   legalOr (legalMin (int32 t.min)) (toBCD (int32 t.min) (free 1)) (free 1),
   legalOr (legalHour (int32 t.hour)) (hourByte ((r 2).getLsbD 6) (int32 t.hour) (free 2)) (free 2),
   legalOr (legalWday (int32 t.wday)) (toBCD (int32 t.wday + 1) (free 3)) (free 3),
   legalOr (legalMday (int32 t.mday)) (toBCD (int32 t.mday) (free 4)) (free 4),
   legalOr (legalMon (int32 t.mon)) (toBCD (int32 t.mon + 1) (free 5)) (free 5),
   toBCD (yearOfCentury t.year) (free 6)]

/-- SETTIME t (R174), its final write done by `write`: at once, or held for a later turn (log 18). -/
def settimeWith (write : State → Nat → List Byte → State) (t : CalendarTime) (s : State) :
    Host.Outcome State Fault Refusal :=
  s.withHandle fun s => s.onRead 0x00 3 fun r s' =>
    .next (write (s'.skipBytes 7) 0x00 (timeBytes t r s'.freeByte))

/-- SETTIME t (R174). -/
def execSettime (t : CalendarTime) (s : State) : Host.Outcome State Fault Refusal := settimeWith State.writeAndEnd t s

/-! ## Raw register data -/

/-- `dec(x)` (R176). -/
def rawDec (coding : RawCoding) (x : Byte) : Word :=
  match coding with
  | .decimal => byteWord (fromBCD x)
  | .bcd => zext32 x

/-- The result words of GETRAW: `seconds, minutes, hours, hour12, pm, day, date, month, year` (R43, R176). -/
def rawWords (coding : RawCoding) (r : Nat → Byte) : List Word :=
  let h12 := (r 2).getLsbD 6
  let pm := if h12 then (r 2).getLsbD 5 else false
  let hf := if h12 then r 2 &&& 0x1F else r 2 &&& 0x3F
  [rawDec coding (r 0 &&& 0x7F), rawDec coding (r 1 &&& 0x7F), rawDec coding hf, boolWord h12, boolWord pm,
   rawDec coding (r 3 &&& 0x07), rawDec coding (r 4 &&& 0x3F), rawDec coding (r 5 &&& 0x1F), rawDec coding (r 6)]

/-- GETRAW (R176). -/
def execGetraw (s : State) : Host.Outcome State Fault Refusal :=
  s.withHandle fun s => s.onRead 0x00 7 fun r s' => .next (s'.complete (rawWords s.coding r))

/-- `enc(v, mask)` (R177). -/
def rawEnc (coding : RawCoding) (v mask free : Byte) : Byte :=
  (match coding with
    | .decimal => toBCD v.toNat free
    | .bcd => v) &&& mask

/-- The hours byte SETRAW writes: mode and PM from the record, `pm` ignored in 24-hour mode (R178). -/
def rawHourByte (coding : RawCoding) (d : RawData) (free : Byte) : Byte :=
  if d.hour12 then 0x40 ||| (boolByte d.pm <<< 5) ||| rawEnc coding d.hours 0x1F free
  else rawEnc coding d.hours 0x3F free

/-- The seven bytes SETRAW writes: `sec` is the seconds byte read back, `free i` the free byte of byte `i` (R178). -/
def rawBytes (coding : RawCoding) (d : RawData) (sec : Byte) (free : Nat → Byte) : List Byte :=
  [(sec &&& 0x80) ||| rawEnc coding d.seconds 0x7F (free 0),
   rawEnc coding d.minutes 0x7F (free 1),
   rawHourByte coding d (free 2),
   rawEnc coding d.day 0x07 (free 3),
   rawEnc coding d.date 0x3F (free 4),
   rawEnc coding d.month 0x1F (free 5),
   rawEnc coding d.year 0xFF (free 6)]

/-- SETRAW d (R178), its final write done by `write` (log 18). -/
def setrawWith (write : State → Nat → List Byte → State) (d : RawData) (s : State) : Host.Outcome State Fault Refusal :=
  s.withHandle fun s => s.onRead 0x00 1 fun r s' =>
    .next (write (s'.skipBytes 7) 0x00 (rawBytes s.coding d (r 0) s'.freeByte))

/-- SETRAW d (R178). -/
def execSetraw (d : RawData) (s : State) : Host.Outcome State Fault Refusal := setrawWith State.writeAndEnd d s

end Sys2Proof.Machine
end

