-- ==== Sys2Proof/Machine/Dispatch.lean ====
section
/-! DEFINITION. Machine/Dispatch.lean: one arm per command. -/
namespace Sys2Proof.Machine

def exec (i : Instr) (s : State) : Host.Outcome State Fault Refusal :=
  match i with
  | .tobcd n => Sys2Proof.Machine.execTobcd n s
  | .frombcd b => Sys2Proof.Machine.execFrombcd b s
  | .dec12h b => Sys2Proof.Machine.execDec12h b s
  | .enc12h h => Sys2Proof.Machine.execEnc12h h s
  | .config century dev speed => Sys2Proof.Machine.execConfig century dev speed s
  | .deconfig => Sys2Proof.Machine.execDeconfig s
  | .gettime => Sys2Proof.Machine.execGettime s
  | .settime t => Sys2Proof.Machine.execSettime t s
  | .getraw => Sys2Proof.Machine.execGetraw s
  | .setraw d => Sys2Proof.Machine.execSetraw d s
  | .gethalt => Sys2Proof.Machine.execGethalt s
  | .sethalt v => Sys2Proof.Machine.execSethalt v s
  | .getout => Sys2Proof.Machine.execGetout s
  | .setout v => Sys2Proof.Machine.execSetout v s
  | .getsqwe => Sys2Proof.Machine.execGetsqwe s
  | .setsqwe v => Sys2Proof.Machine.execSetsqwe v s
  | .getrate => Sys2Proof.Machine.execGetrate s
  | .setrate v => Sys2Proof.Machine.execSetrate v s
  | .get12h => Sys2Proof.Machine.execGet12h s
  | .set12h v => Sys2Proof.Machine.execSet12h v s
  | .getram offset length => Sys2Proof.Machine.execGetram offset length s
  | .setram offset bytes => Sys2Proof.Machine.execSetram offset bytes s

end Sys2Proof.Machine
end

