-- ==== Sys2Proof/Machine/Split.lean ====
section
/-! DEFINITION. Machine/Split.lean: a command run as far as its second transaction, so that other instances can come
between its two transactions (R78, R296; log 18); and how an instance takes a command. -/
namespace Sys2Proof.Machine

/-- Command `i`, where a read-modify-write command does its final write by `write`; the others issue at most one transaction
(R66) and are as `exec` has them. -/
def runWith (write : State → Nat → List Byte → State) (i : Instr) (s : State) : Host.Outcome State Fault Refusal :=
  match i with
  | .settime t => settimeWith write t s
  | .setraw d => setrawWith write d s
  | .sethalt v => setFieldWith write fieldCH (boolByte v) s
  | .setout v => setFieldWith write fieldOUT (boolByte v) s
  | .setsqwe v => setFieldWith write fieldSQWE (boolByte v) s
  | .setrate v => setFieldWith write fieldRS (v.zeroExtend 8) s
  | .set12h v => set12hWith write v s
  | .tobcd n => execTobcd n s
  | .frombcd b => execFrombcd b s
  | .dec12h b => execDec12h b s
  | .enc12h h => execEnc12h h s
  | .config century dev speed => execConfig century dev speed s
  | .deconfig => execDeconfig s
  | .gettime => execGettime s
  | .getraw => execGetraw s
  | .gethalt => execGethalt s
  | .getout => execGetout s
  | .getsqwe => execGetsqwe s
  | .getrate => execGetrate s
  | .get12h => execGet12h s
  | .getram offset length => execGetram offset length s
  | .setram offset bytes => execSetram offset bytes s

/-- The command as far as its second transaction: where it comes to its final write, the instance owes it. -/
def startCommand (i : Instr) (s : State) : Host.Outcome State Fault Refusal := runWith State.hold i s

/-- A command presented to instance `k` (R25, R26): decoded, and run by `run` on the state whose port holds it. A command
the decoder refuses changes nothing (R95, R286); an instance whose command is in progress takes none (R297). -/
def State.take (s : State) (k : Nat) (c : Encoded) (run : Instr → State → Host.Outcome State Fault Refusal) :
    Host.Outcome State Fault Refusal :=
  match decode c with
  | .error e => .refused (refusalOf e)
  | .ok i => if s.busy k then .fault .concurrentUse else run i (s.present k c)

end Sys2Proof.Machine
end

