-- ==== Sys2Proof/Machine/Step.lean ====
section
/-! DEFINITION. Machine/Step.lean: one step of the machine. The block has no program counter (R26): a step takes the
next event of the total order (R77). -/
namespace Sys2Proof.Machine

/-- The event at the head of the inbox is taken; with none, the block waits (R322; log 8). -/
def step (s : State) : Host.Outcome State Fault Refusal :=
  match s.inbox with
  | [] => .next s
  | .command k c :: rest => State.take { s with inbox := rest } k c exec
  | .start k c :: rest => State.take { s with inbox := rest } k c startCommand
  | .finish k :: rest => .next (State.finish { s with inbox := rest } k)
  | .readResponse k :: rest =>
    if s.busy k then .fault .concurrentUse else .next (State.responseRead { s with inbox := rest } k)
  | .restart :: rest => .next (State.blockReset { s with inbox := rest })

/-- `s` with the command whose bits are `w` next in the host's hand, for the instance that ran last, which has no command
in progress (log 8). -/
def State.withFetchWord (s : State) (nbits w : Nat) : State :=
  { s.setPending none with inbox := .command s.cur (commandOfTableWord nbits w) :: s.inbox }

end Sys2Proof.Machine
end

