-- ==== Sys2Proof/Safety.lean ====
section
/-! DEFINITION. Safety.lean: the words that claims are stated in: the invariant, the premises about the world outside
the block, the frame, what a command reports and stores, and the tables of the spec as claims read them. -/
namespace Sys2Proof.Machine

/-! ## The invariant -/

/-- A handle is configured exactly where it holds a capability (R21, R22), and its base is then a multiple of 100
(R121). -/
def Cfg.Inv (c : Cfg) : Prop := (c.configured = c.bus.isSome) ∧ (c.configured = true → c.yearBase.toInt % 100 = 0)

/-- A result word holds a value only after a command that ended OK (R91, R289); with no command on the port there is no
operand word (R25). -/
def Port.Inv (p : Port) : Prop :=
  (p.results ≠ [] → p.hasStatus = true ∧ p.status = .ok) ∧ (p.hasCommand = false → p.operands = [])

/-- A command in progress is one of a configured instance, it is on the port, and the write it owes lies inside the
registers 0x00-0x07 (R22, R66). -/
def Rc.InProgress (r : Rc) (p : Pending) : Prop :=
  r.cfg.configured = true ∧ r.port.hasCommand = true ∧ p.addr + p.bytes.length ≤ 8

/-- The bytes a recorded transaction addresses lie inside 0x00-0x3F (R67). -/
def BusOp.InImage (op : BusOp) : Prop :=
  match op with
  | .memRead _ _ a n _ => a + n ≤ 64
  | .memWrite _ _ a v _ => a + v.length ≤ 64
  | .attach _ _ _ => True
  | .detach _ _ => True

/-- The invariant of the machine: the image and the table of instances are in canonical form, every handle, every port
and every command in progress is as the spec lets it be, and every recorded transaction lies inside the image. -/
structure State.Inv (s : State) : Prop where
  mem     : s.mem.wf = true
  table   : Sparse.wfFrom Rc.reset 0 s.insts = true
  cfg     : ∀ k, (s.rcAt k).cfg.Inv
  port    : ∀ k, (s.rcAt k).port.Inv
  pending : ∀ k p, (s.rcAt k).pending = some p → (s.rcAt k).InProgress p
  log     : ∀ e ∈ s.busLog, e.op.InImage

/-! ## The world outside the block -/

/-- The input of a command's second transaction (R66): it does not depend on what the first one moves. -/
def State.secondTxn (s : State) : Txn := (s.afterRead 0 0).txn

/-- The image that a command's second transaction meets: ENV may have stepped after the first (R74, R78). -/
def State.secondImage (s : State) : Memory := (s.afterRead 0 0).imageNow

/-- The free bytes of a command's second transaction (R72). -/
def State.secondNoise (s : State) (i : Nat) : Byte := (s.afterRead 0 0).noise i

/-- The image after `n` transactions that moved nothing: what ENV alone leaves (R74). -/
def State.imageAfter (s : State) (n : Nat) : Memory :=
  match n with
  | 0 => s.mem
  | 1 => s.imageNow
  | _ => s.secondImage

/-- SOLE_WRITER (R75) for one transaction as ENV sees it: no step of an agent outside the model stands before it. The
writes of the model's own instances, which are steps of their own, are barred by `State.SoleWriterUntil`. -/
def SoleWriter (t : Txn) : Prop := ∀ w ∈ t.env, w.writer = .tick

/-- TICK taken as the identity (R76) for one transaction: the chip's timekeeping changes nothing before it. -/
def ClockStands (t : Txn) : Prop := ∀ w ∈ t.env, w.writer = .other

/-- Between now and the last transaction of a command that runs in one step, no step of ENV occurs: SOLE_WRITER and TICK
the identity. No other instance steps inside it, so this is SOLE_WRITER for that command (`exec_undisturbed`). -/
def State.Undisturbed (s : State) : Prop :=
  SoleWriter s.txn ∧ ClockStands s.txn ∧ SoleWriter s.secondTxn ∧ ClockStands s.secondTxn

/-! ## What a command reports and leaves alone -/

/-- The response of the instance that ran: a status and result words (R27). -/
def State.Reports (t : State) (st : Status) (results : List Word) : Prop :=
  t.port.hasStatus = true ∧ t.port.status = st ∧ t.port.results = results

/-- What no command touches: the other instances (R296), the command on the port (R25), a write the instance owes
(none, in a run), RAW_CODING (R10), and what comes next (R26). -/
structure State.HostFrame (s t : State) : Prop where
  others     : ∀ k, k ≠ s.cur → t.rcAt k = s.rcAt k
  cur        : t.cur = s.cur
  coding     : t.coding = s.coding
  inbox      : t.inbox = s.inbox
  hasCommand : t.port.hasCommand = s.port.hasCommand
  op         : t.port.op = s.port.op
  operands   : t.port.operands = s.port.operands
  pending    : t.rc.pending = s.rc.pending

/-- No handle of any instance changes (R22-R24). -/
def State.HandlesFrame (s t : State) : Prop := ∀ k, (t.rcAt k).cfg = (s.rcAt k).cfg

/-- Nothing outside the block is touched: no transaction, no attach, no detach. -/
def State.BusFrame (s t : State) : Prop :=
  (∀ a, t.mem.get a = s.mem.get a) ∧ t.pointer = s.pointer ∧ t.busLog = s.busLog

/-- A command ended for want of a handle, or by an argument check: InvalidArgument, before any transaction (R22, R282). -/
def State.EndsInvalid (s t : State) : Prop :=
  t.Reports .invalidArgument [] ∧ s.HostFrame t ∧ s.HandlesFrame t ∧ s.BusFrame t

/-- A command whose first and only transaction was a read that failed: BusError, and the image is what ENV left
(R72, R289). -/
def State.EndsReadFailed (s t : State) (a n : Nat) : Prop :=
  t.Reports .busError [] ∧ s.HostFrame t ∧ s.HandlesFrame t ∧ (∀ x, t.mem.get x = s.imageNow.get x) ∧
    t.busLog = s.busLog ++ [⟨s.cur, .memRead s.cfg.dev s.cfg.bus a n none⟩]

/-- A command that read and stored nothing ended OK with result words: the image is what ENV left (R69). -/
def State.EndsRead (s t : State) (results : List Word) : Prop :=
  t.Reports .ok results ∧ s.HostFrame t ∧ s.HandlesFrame t ∧ (∀ x, t.mem.get x = s.imageNow.get x)

/-- The bytes a command stores to: their first address and their number (R66). -/
def storedBytes (i : Instr) : Nat × Nat :=
  match i with
  | .settime _ | .setraw _ => (0x00, 7)
  | .sethalt _ => (fieldCH.addr, 1)
  | .setout _ => (fieldOUT.addr, 1)
  | .setsqwe _ => (fieldSQWE.addr, 1)
  | .setrate _ => (fieldRS.addr, 1)
  | .set12h _ => (fieldMode.addr, 1)
  | .setram offset bytes => (ramBase + offset.toNat, bytes.length)
  | .tobcd _ | .frombcd _ | .dec12h _ | .enc12h _ | .config _ _ _ | .deconfig | .gettime | .getraw
  | .gethalt | .getout | .getsqwe | .getrate | .get12h | .getram _ _ => (0x00, 0)

/-! ## The transaction record -/

/-- A transaction as R66 lists it: read or write, start address, number of bytes. -/
inductive TxnShape where
  | read (addr n : Nat)
  | write (addr n : Nat)
deriving DecidableEq, Repr

/-- The transaction that a record entry shows; an attach or a detach is none (R66, R298). -/
def BusRecord.shape (r : BusRecord) : Option TxnShape :=
  match r.op with
  | .memRead _ _ a n _ => some (.read a n)
  | .memWrite _ _ a v _ => some (.write a v.length)
  | .attach _ _ _ => none
  | .detach _ _ => none

/-- Every transaction recorded so far, in order: the bus-transaction counter of R298. -/
def State.shapes (s : State) : List TxnShape := s.busLog.filterMap BusRecord.shape

/-! ## SOLE_WRITER over a run (R74-R76) -/

/-- The input of the `i`-th transaction from here on (R66, R77): that of `State.txn`, then that of the next, and so on. -/
def State.txnAt (s : State) (i : Nat) : Txn := s.inputs.txns.getD i (Config.freeTxn (s.inputs.nTxn + i))

/-- How many transactions the instances issued on the way from `s` to `t`. -/
def State.txnsUntil (s t : State) : Nat := t.inputs.nTxn - s.inputs.nTxn

/-- What was recorded on the way from `s` to `t` (R298). -/
def State.recordedUntil (s t : State) : List BusRecord := t.busLog.drop s.busLog.length

/-- Whether an entry of the record is a write to the image, whatever came of it (R72). -/
def BusRecord.isWrite (r : BusRecord) : Bool :=
  match r.op with
  | .memWrite _ _ _ _ _ => true
  | .memRead _ _ _ _ _ => false
  | .attach _ _ _ => false
  | .detach _ _ => false

/-- SOLE_WRITER (R75) on the way from `s` to `t`, for instance `k`: no write of kind (a) of R74 occurs, neither of an
agent outside the model, before any transaction of the way, nor of another handle RC[j], as a transaction of its own. -/
structure State.SoleWriterUntil (s t : State) (k : Nat) : Prop where
  env       : ∀ i, i < s.txnsUntil t → SoleWriter (s.txnAt i)
  instances : ∀ r ∈ s.recordedUntil t, r.isWrite = true → r.rc = k

/-- TICK taken as the identity (R76) on the way from `s` to `t`. -/
def State.ClockStandsUntil (s t : State) : Prop := ∀ i, i < s.txnsUntil t → ClockStands (s.txnAt i)

/-! ## The tables of the spec -/

/-- The table of R66: the transactions of a command, in order. -/
def txnTable (i : Instr) : List TxnShape :=
  match i with
  | .tobcd _ | .frombcd _ | .dec12h _ | .enc12h _ | .config _ _ _ | .deconfig => []
  | .gettime | .getraw => [.read 0x00 7]
  | .settime _ => [.read 0x00 3, .write 0x00 7]
  | .setraw _ => [.read 0x00 1, .write 0x00 7]
  | .gethalt => [.read 0x00 1]
  | .sethalt _ => [.read 0x00 1, .write 0x00 1]
  | .setout _ | .setsqwe _ | .setrate _ => [.read 0x07 1, .write 0x07 1]
  | .set12h _ => [.read 0x02 1, .write 0x02 1]
  | .getout | .getsqwe | .getrate => [.read 0x07 1]
  | .get12h => [.read 0x02 1]
  | .getram offset length => [.read (0x08 + offset.toNat) length.toNat]
  | .setram offset bytes => [.write (0x08 + offset.toNat) bytes.length]

/-- The commands that may skip their write (R213, R224). -/
def maySkip (i : Instr) : Bool :=
  match i with
  | .sethalt _ | .setout _ | .setsqwe _ | .setrate _ | .set12h _ => true
  | .tobcd _ | .frombcd _ | .dec12h _ | .enc12h _ | .config _ _ _ | .deconfig | .gettime | .settime _ | .getraw
  | .setraw _ | .gethalt | .getout | .getsqwe | .getrate | .get12h | .getram _ _ | .setram _ _ => false

/-- The commands that begin with the handle check: DECONFIG and every register-image command (R22, R282). -/
def needsHandle (i : Instr) : Bool :=
  match i with
  | .tobcd _ | .frombcd _ | .dec12h _ | .enc12h _ | .config _ _ _ => false
  | .deconfig | .gettime | .settime _ | .getraw | .setraw _ | .gethalt | .sethalt _ | .getout | .setout _
  | .getsqwe | .setsqwe _ | .getrate | .setrate _ | .get12h | .set12h _ | .getram _ _ | .setram _ _ => true

/-- The two commands that may write a handle (R22-R24). -/
def isLifecycle (i : Instr) : Bool :=
  match i with
  | .config _ _ _ | .deconfig => true
  | .tobcd _ | .frombcd _ | .dec12h _ | .enc12h _ | .gettime | .settime _ | .getraw | .setraw _ | .gethalt
  | .sethalt _ | .getout | .setout _ | .getsqwe | .setsqwe _ | .getrate | .setrate _ | .get12h | .set12h _
  | .getram _ _ | .setram _ _ => false

/-- `M`, the number of result words of a command that ends OK (R93). -/
def resultCount (i : Instr) : Nat :=
  match i with
  | .tobcd _ | .frombcd _ | .dec12h _ | .enc12h _ => 1
  | .gethalt | .getout | .getsqwe | .getrate | .get12h => 1
  | .gettime => 7
  | .getraw => 9
  | .getram _ length => length.toNat
  | .config _ _ _ | .deconfig | .settime _ | .setraw _ | .sethalt _ | .setout _ | .setsqwe _ | .setrate _
  | .set12h _ | .setram _ _ => 0

/-- The first value that a word of a kind refuses: one past its largest (R94, R99). -/
def kindLimit (k : Kind) : Nat :=
  match k with
  | .int32 | .u32 => 2 ^ 32
  | .byte => 256
  | .bool => 2
  | .rs2 => 4
  | .addr7 => 128

/-! ## The codec, in plain arithmetic on numbers (R17, R141, R143, R145, R147) -/

/-- The BCD byte of a number 0..99: tens in the high nibble, units in the low nibble. -/
def bcd (n : Nat) : Nat := n / 10 * 16 + n % 10

/-- The number of a BCD byte, malformed nibbles passed through. -/
def unbcd (b : Nat) : Nat := b / 16 * 10 + b % 16

/-- The hour of an hours byte read in 12-hour layout. -/
def hour12Of (b : Nat) : Nat :=
  (if unbcd (b % 32) = 12 then 0 else unbcd (b % 32)) + (if b / 32 % 2 = 1 then 12 else 0)

/-- The hour that an hours byte shows, by its mode bit. -/
def shownHour (b : Nat) : Nat := if b / 64 % 2 = 1 then hour12Of b else unbcd (b % 64)

/-- The hours byte, in 12-hour layout, of an hour 0..23. -/
def hour12Byte (h : Nat) : Nat :=
  64 + (if 12 ≤ h then 32 else 0) + bcd (if h % 12 = 0 then 12 else h % 12)

/-- The hours byte, in 12-hour layout, that the converter gives for an hour of at most 111: the digits, the PM flag and
the mode bit are ORed, so that they may overlap from 32 on. -/
def hour12Or (h : Nat) : Nat :=
  let m := if 12 ≤ h then h - 12 else h
  bcd (if m = 0 then 12 else m) ||| (if 12 ≤ h then 32 else 0) ||| 64

/-- The encoding of a raw numeric field, kept to its low bits; under decimal coding the free byte where the value is
over 99 (R177). -/
def rawBits (coding : RawCoding) (v free : Byte) (m : Nat) : Nat :=
  (if coding = .bcd then v.toNat else if v.toNat ≤ 99 then bcd v.toNat else free.toNat) % m

/-- The value of a raw numeric field (R176). -/
def rawValue (coding : RawCoding) (x : Nat) : Nat := if coding = .decimal then unbcd x else x

/-- A legal hours byte (R31): 24-hour 00-23, or 12-hour 01-12 with the PM bit; bit 7 clear. -/
def LegalHours (b : Byte) : Prop :=
  (∃ h, h ≤ 23 ∧ b.toNat = bcd h) ∨ (∃ h, 1 ≤ h ∧ h ≤ 12 ∧ (b.toNat = 64 + bcd h ∨ b.toNat = 96 + bcd h))

/-! ## The host across a refusal -/

/-- A run as the host sees it: the machine, and the marks that refusals happened, oldest first (R281). -/
structure Session where
  st    : State
  marks : List Refusal
deriving DecidableEq, Repr

/-- One step of a session (R281, R291): a refused command is dropped from the host's hand and leaves a mark, every state
of the machine being as it was; a fault ends the run. -/
def Session.advance (S : Session) : Except Fault Session :=
  match step S.st with
  | .next t => .ok { S with st := t }
  | .fault f => .error f
  | .refused r => .ok { st := { S.st with inbox := S.st.inbox.tail }, marks := S.marks ++ [r] }

end Sys2Proof.Machine
end

