-- ==== Sys2Proof/Certificates/Slice0/Obligations.lean ====
section
/-! DEFINITION. Certificates/Slice0/Obligations.lean: the statements for the provers. Every premise is about the state
and the operands alone; a state's scripts of free inputs are part of the state, so a statement about all states holds for
every value of every free input. -/

open Sys2Proof Sys2Proof.Machine

/-! ## Family 0: the codec -/

/-- R141, R142: TOBCD reports the BCD byte of 0..99, and for every other operand a free byte of the state's inputs. -/
def Obligations.TobcdReportsBcdByte : Prop :=
  ∀ (s : State) (n : Word), s.Inv → ∃ t, exec (.tobcd n) s = .next t ∧
    (0 ≤ n.toInt ∧ n.toInt ≤ 99 → t.Reports .ok [BitVec.ofNat 32 (bcd n.toInt.toNat)]) ∧
    (¬(0 ≤ n.toInt ∧ n.toInt ≤ 99) → t.Reports .ok [(s.freeByte 0).zeroExtend 32])

/-- R143, R144: FROMBCD applies the same arithmetic to every byte, malformed or not. -/
def Obligations.FrombcdReportsNumber : Prop :=
  ∀ (s : State) (b : Byte), s.Inv → ∃ t, exec (.frombcd b) s = .next t ∧
    t.Reports .ok [BitVec.ofNat 32 (b.toNat / 16 * 10 + b.toNat % 16)]

/-- R145, R146: DEC12H decodes bits 5-0 of every byte; bits 6 and 7 do not count. -/
def Obligations.Dec12hReportsHour : Prop :=
  ∀ (s : State) (b : Byte), s.Inv → ∃ t, exec (.dec12h b) s = .next t ∧
    t.Reports .ok [BitVec.ofNat 32 (hour12Of b.toNat)]

/-- R147, R148: ENC12H reports the byte of the source's arithmetic wherever the digits fit in 0..99, and elsewhere a
free byte with bit 6, and for an hour of 12 or more bit 5, ORed in. -/
def Obligations.Enc12hReportsHourByte : Prop :=
  ∀ (s : State) (h : Word), s.Inv → ∃ t, exec (.enc12h h) s = .next t ∧
    (0 ≤ h.toInt ∧ h.toInt ≤ 23 → t.Reports .ok [BitVec.ofNat 32 (hour12Byte h.toInt.toNat)]) ∧
    (0 ≤ h.toInt ∧ h.toInt ≤ 111 → t.Reports .ok [BitVec.ofNat 32 (hour12Or h.toInt.toNat)]) ∧
    (h.toInt < 0 → t.Reports .ok [(s.freeByte 0 ||| 0x40).zeroExtend 32]) ∧
    (112 ≤ h.toInt → t.Reports .ok [(s.freeByte 0 ||| 0x60).zeroExtend 32])

/-- The pure codec commands read no state, need no handle and issue no transaction: whatever the handle holds they end,
and they change nothing but the response (and the model's own count of free bytes). -/
def Obligations.CodecCommandsTouchOnlyResponse : Prop :=
  ∀ (s : State) (n : Word) (b : Byte), s.Inv →
    ∀ i ∈ [Instr.tobcd n, Instr.frombcd b, Instr.dec12h b, Instr.enc12h n],
      ∃ t, exec i s = .next t ∧ s.HostFrame t ∧ s.HandlesFrame t ∧ s.BusFrame t

/-- R149: the laws (a) to (e) of the codec functions, whatever the free byte is. -/
def Obligations.CodecLaws : Prop :=
  ∀ free : Byte,
    (∀ n : Nat, n ≤ 99 → fromBCD (toBCD n free) = n) ∧
    (∀ h : Nat, h ≤ 23 → decode12Hour (encode12Hour h free) = h) ∧
    (∀ b : Byte, b.toNat / 16 ≤ 9 → b.toNat % 16 ≤ 9 → toBCD (fromBCD b) free = b) ∧
    (∀ (h : Nat) (b : Byte), 1 ≤ h → h ≤ 12 → (b.toNat = 64 + bcd h ∨ b.toNat = 96 + bcd h) →
      encode12Hour (decode12Hour b) free = b) ∧
    (∀ h h' : Nat, h ≤ 23 → h' ≤ 23 → encode12Hour h free = encode12Hour h' free → h = h')

/-! ## Family 1: the handle -/

/-- Every outcome of CONFIG, as R121 and R122 give them. What the record shows of a rollback (the attach, and the release
of the capability as a detach that succeeded) is the model's choice (log 14): the spec gives that release no outcome. -/
def Obligations.ConfigOutcomes : Prop :=
  ∀ (s : State) (century : Word) (dev : BitVec 7) (speed : Word), s.Inv →
    let c := century.toInt
    let yb := ((if c = 0 then 21 else if c < 0 then c + 1 else c) - 20) * 100
    (s.cfg.configured = true → exec (.config century dev speed) s = .refused .alreadyConfigured) ∧
    (s.cfg.configured = false → (yb < -2 ^ 31 ∨ 2 ^ 31 - 1 < yb) →
      exec (.config century dev speed) s = .fault .arithOverflow) ∧
    (s.cfg.configured = false → -2 ^ 31 ≤ yb → yb ≤ 2 ^ 31 - 1 →
      ∃ t, exec (.config century dev speed) s = .next t ∧ s.HostFrame t ∧
        (∀ a, t.mem.get a = s.mem.get a) ∧ t.pointer = s.pointer ∧ t.shapes = s.shapes ∧
        (∀ cap, s.attachOutcome = .ok cap → t.Reports .ok [] ∧ t.cfg.configured = true ∧ t.cfg.yearBase.toInt = yb ∧
          t.cfg.dev = dev ∧ t.cfg.speed = speed ∧ t.cfg.bus = some cap) ∧
        (s.attachOutcome = .attachFail → t.Reports .busError [] ∧ t.cfg = s.cfg) ∧
        (∀ cap, s.attachOutcome = .allocFail cap → t.Reports .outOfMemory [] ∧ t.cfg = s.cfg ∧
          t.busLog = s.busLog ++ [⟨s.cur, .attach dev speed (some cap)⟩, ⟨s.cur, .detach (some cap) .ok⟩]))

/-- R122's range: exactly the centuries -21474817..21474856 have a base that fits, and on an unconfigured instance whose
attach succeeds CONFIG then configures it. -/
def Obligations.ConfigCompletesInCenturyRange : Prop :=
  ∀ (s : State) (century : Word) (dev : BitVec 7) (speed : Word) (cap : Nat), s.Inv → s.cfg.configured = false →
    s.attachOutcome = .ok cap → -21474817 ≤ century.toInt → century.toInt ≤ 21474856 →
    ∃ t, exec (.config century dev speed) s = .next t ∧ t.Reports .ok [] ∧ t.cfg.configured = true

/-- R123: every outcome of DECONFIG. -/
def Obligations.DeconfigOutcomes : Prop :=
  ∀ s : State, s.Inv →
    (s.cfg.configured = false → ∃ t, exec .deconfig s = .next t ∧ s.EndsInvalid t) ∧
    (s.cfg.configured = true → ∃ t, exec .deconfig s = .next t ∧ s.HostFrame t ∧
      (∀ a, t.mem.get a = s.mem.get a) ∧ t.pointer = s.pointer ∧ t.shapes = s.shapes ∧
      t.cfg = { s.cfg with configured := false, bus := none } ∧
      (s.detachOutcome = .ok → t.Reports .ok []) ∧ (s.detachOutcome = .fail → t.Reports .busError []))

/-! ## Family 2: calendar time and raw data -/

/-- R171: every outcome of GETTIME. The bytes are those of the image at one instant; CH, the reserved bits and the free
values a read puts into them do not show. -/
def Obligations.GettimeOutcomes : Prop :=
  ∀ s : State, s.Inv →
    let r := fun i => (s.imageNow.get i).toNat
    let year := s.cfg.yearBase.toInt + unbcd (r 6)
    (s.cfg.configured = false → ∃ t, exec .gettime s = .next t ∧ s.EndsInvalid t) ∧
    (s.cfg.configured = true → s.txn.outcome = .fail →
      ∃ t, exec .gettime s = .next t ∧ s.EndsReadFailed t 0x00 7) ∧
    (s.cfg.configured = true → s.txn.outcome = .ok → year ≤ 2 ^ 31 - 1 →
      ∃ t w, exec .gettime s = .next t ∧ s.EndsRead t w ∧ t.shapes = s.shapes ++ [.read 0x00 7] ∧
        w.map BitVec.toInt = [(unbcd (r 0 % 128) : Int), (unbcd (r 1 % 128) : Int), (shownHour (r 2) : Int),
          (unbcd (r 4 % 64) : Int), (unbcd (r 5 % 32) : Int) - 1, year, ((r 3 % 8 : Nat) : Int) - 1]) ∧
    (s.cfg.configured = true → s.txn.outcome = .ok → 2 ^ 31 - 1 < year → exec .gettime s = .fault .arithOverflow)

/-- R172, R173, R174: every outcome of SETTIME. A byte whose field is outside its legal range is a
free byte of the state's inputs; the year byte is always the low two digits. CH and the mode are those of the read. -/
def Obligations.SettimeOutcomes : Prop :=
  ∀ (s : State) (d : CalendarTime), s.Inv →
    let r := fun i => (s.imageNow.get i).toNat
    (s.cfg.configured = false → ∃ t, exec (.settime d) s = .next t ∧ s.EndsInvalid t) ∧
    (s.cfg.configured = true → s.txn.outcome = .fail →
      ∃ t, exec (.settime d) s = .next t ∧ s.EndsReadFailed t 0x00 3) ∧
    (s.cfg.configured = true → s.txn.outcome = .ok →
      ∃ t, exec (.settime d) s = .next t ∧ s.HostFrame t ∧ s.HandlesFrame t ∧
        (∀ a, 7 ≤ a → t.mem.get a = s.secondImage.get a) ∧ t.shapes = s.shapes ++ [.read 0x00 3, .write 0x00 7] ∧
        (s.secondTxn.outcome = .fail → t.Reports .busError [] ∧ ∀ a, a < 7 → t.mem.get a = s.secondNoise a) ∧
        (s.secondTxn.outcome = .ok → t.Reports .ok [] ∧
          (if 0 ≤ d.sec.toInt ∧ d.sec.toInt ≤ 59 then (t.mem.get 0).toNat = r 0 / 128 * 128 + bcd d.sec.toInt.toNat
            else t.mem.get 0 = s.freeByte 0) ∧
          (if 0 ≤ d.min.toInt ∧ d.min.toInt ≤ 59 then (t.mem.get 1).toNat = bcd d.min.toInt.toNat
            else t.mem.get 1 = s.freeByte 1) ∧
          (if 0 ≤ d.hour.toInt ∧ d.hour.toInt ≤ 23 then (t.mem.get 2).toNat =
              if r 2 / 64 % 2 = 1 then hour12Byte d.hour.toInt.toNat else bcd d.hour.toInt.toNat
            else t.mem.get 2 = s.freeByte 2) ∧
          (if 0 ≤ d.wday.toInt ∧ d.wday.toInt ≤ 6 then (t.mem.get 3).toNat = d.wday.toInt.toNat + 1
            else t.mem.get 3 = s.freeByte 3) ∧
          (if 1 ≤ d.mday.toInt ∧ d.mday.toInt ≤ 31 then (t.mem.get 4).toNat = bcd d.mday.toInt.toNat
            else t.mem.get 4 = s.freeByte 4) ∧
          (if 0 ≤ d.mon.toInt ∧ d.mon.toInt ≤ 11 then (t.mem.get 5).toNat = bcd (d.mon.toInt.toNat + 1)
            else t.mem.get 5 = s.freeByte 5) ∧
          (t.mem.get 6).toNat = bcd (d.year.toInt % 100).toNat))

/-- R175: a calendar time in its legal ranges and in the century window of the base, written by a SETTIME that ends OK
and read back by a GETTIME that ends OK, comes back unchanged, where ENV changes no time register in between. -/
def Obligations.SetTimeThenGetTimeReturnsRecord : Prop :=
  ∀ (s : State) (d : CalendarTime), s.Inv → s.cfg.configured = true →
    0 ≤ d.sec.toInt ∧ d.sec.toInt ≤ 59 → 0 ≤ d.min.toInt ∧ d.min.toInt ≤ 59 → 0 ≤ d.hour.toInt ∧ d.hour.toInt ≤ 23 →
    0 ≤ d.wday.toInt ∧ d.wday.toInt ≤ 6 → 1 ≤ d.mday.toInt ∧ d.mday.toInt ≤ 31 →
    0 ≤ d.mon.toInt ∧ d.mon.toInt ≤ 11 →
    s.cfg.yearBase.toInt ≤ d.year.toInt → d.year.toInt ≤ s.cfg.yearBase.toInt + 99 →
    s.txn.outcome = .ok → s.secondTxn.outcome = .ok →
    ∃ t, exec (.settime d) s = .next t ∧ t.port.status = .ok ∧
      (t.txn.outcome = .ok → (∀ a, a < 7 → t.imageNow.get a = t.mem.get a) →
        ∃ u, exec .gettime t = .next u ∧ u.Reports .ok d.words)

/-- R176: every outcome of GETRAW, under either coding. -/
def Obligations.GetrawOutcomes : Prop :=
  ∀ s : State, s.Inv →
    let r := fun i => (s.imageNow.get i).toNat
    let v := rawValue s.coding
    (s.cfg.configured = false → ∃ t, exec .getraw s = .next t ∧ s.EndsInvalid t) ∧
    (s.cfg.configured = true → s.txn.outcome = .fail →
      ∃ t, exec .getraw s = .next t ∧ s.EndsReadFailed t 0x00 7) ∧
    (s.cfg.configured = true → s.txn.outcome = .ok →
      ∃ t w, exec .getraw s = .next t ∧ s.EndsRead t w ∧ t.shapes = s.shapes ++ [.read 0x00 7] ∧
        w.map BitVec.toNat = [v (r 0 % 128), v (r 1 % 128), v (if r 2 / 64 % 2 = 1 then r 2 % 32 else r 2 % 64),
          r 2 / 64 % 2, (if r 2 / 64 % 2 = 1 then r 2 / 32 % 2 else 0),
          v (r 3 % 8), v (r 4 % 64), v (r 5 % 32), v (r 6)])

/-- R177, R178: every outcome of SETRAW, under either coding. Each field stays in its bits; under decimal coding a
value over 99 leaves them free. CH is that of the read, mode and PM are the record's. -/
def Obligations.SetrawOutcomes : Prop :=
  ∀ (s : State) (d : RawData), s.Inv →
    let r := fun i => (s.imageNow.get i).toNat
    let bits := rawBits s.coding
    (s.cfg.configured = false → ∃ t, exec (.setraw d) s = .next t ∧ s.EndsInvalid t) ∧
    (s.cfg.configured = true → s.txn.outcome = .fail →
      ∃ t, exec (.setraw d) s = .next t ∧ s.EndsReadFailed t 0x00 1) ∧
    (s.cfg.configured = true → s.txn.outcome = .ok →
      ∃ t, exec (.setraw d) s = .next t ∧ s.HostFrame t ∧ s.HandlesFrame t ∧
        (∀ a, 7 ≤ a → t.mem.get a = s.secondImage.get a) ∧ t.shapes = s.shapes ++ [.read 0x00 1, .write 0x00 7] ∧
        (s.secondTxn.outcome = .fail → t.Reports .busError [] ∧ ∀ a, a < 7 → t.mem.get a = s.secondNoise a) ∧
        (s.secondTxn.outcome = .ok →
          let w := fun i => (t.mem.get i).toNat
          t.Reports .ok [] ∧
          w 0 = r 0 / 128 * 128 + bits d.seconds (s.freeByte 0) 128 ∧
          w 1 = bits d.minutes (s.freeByte 1) 128 ∧
          w 2 = (if d.hour12 then 64 + (if d.pm then 32 else 0) + bits d.hours (s.freeByte 2) 32
            else bits d.hours (s.freeByte 2) 64) ∧
          w 3 = bits d.day (s.freeByte 3) 8 ∧
          w 4 = bits d.date (s.freeByte 4) 64 ∧
          w 5 = bits d.month (s.freeByte 5) 32 ∧
          w 6 = bits d.year (s.freeByte 6) 256))

/-- R179: a raw record in its legal ranges (under bcd coding: of BCD-valued fields in them), written by a SETRAW that
ends OK and read back by a GETRAW that ends OK, comes back, `pm` reading 0 in 24-hour mode, where ENV changes no time
register in between. -/
def Obligations.SetRawThenGetRawReturnsRecord : Prop :=
  ∀ (s : State) (d : RawData), s.Inv → s.cfg.configured = true →
    let n := fun v : Byte => if s.coding = .decimal then v.toNat else unbcd v.toNat
    (s.coding = .bcd → ∀ v ∈ [d.seconds, d.minutes, d.hours, d.day, d.date, d.month, d.year],
      v.toNat / 16 ≤ 9 ∧ v.toNat % 16 ≤ 9) →
    n d.seconds ≤ 59 → n d.minutes ≤ 59 → n d.hours ≤ (if d.hour12 then 12 else 23) →
    (d.hour12 = true → 1 ≤ n d.hours) → 1 ≤ n d.day ∧ n d.day ≤ 7 → 1 ≤ n d.date ∧ n d.date ≤ 31 →
    1 ≤ n d.month ∧ n d.month ≤ 12 → n d.year ≤ 99 →
    s.txn.outcome = .ok → s.secondTxn.outcome = .ok →
    ∃ t, exec (.setraw d) s = .next t ∧ t.port.status = .ok ∧
      (t.txn.outcome = .ok → (∀ a, a < 7 → t.imageNow.get a = t.mem.get a) →
        ∃ u, exec .getraw t = .next u ∧ u.Reports .ok { d with pm := d.hour12 && d.pm }.words)

/-! ## Family 3: the single fields -/

/-- R211: every outcome of the five getters; a row is a command, its register, the field's place and its number of
values. -/
def Obligations.GetterOutcomes : Prop :=
  ∀ s : State, s.Inv →
    ∀ row ∈ [(Instr.gethalt, 0x00, 128, 2), (Instr.getout, 0x07, 128, 2), (Instr.getsqwe, 0x07, 16, 2),
        (Instr.getrate, 0x07, 1, 4), (Instr.get12h, 0x02, 64, 2)],
      (s.cfg.configured = false → ∃ t, exec row.1 s = .next t ∧ s.EndsInvalid t) ∧
      (s.cfg.configured = true → s.txn.outcome = .fail →
        ∃ t, exec row.1 s = .next t ∧ s.EndsReadFailed t row.2.1 1) ∧
      (s.cfg.configured = true → s.txn.outcome = .ok →
        ∃ t, exec row.1 s = .next t ∧ t.shapes = s.shapes ++ [.read row.2.1 1] ∧
          s.EndsRead t [BitVec.ofNat 32 ((s.imageNow.get row.2.1).toNat / row.2.2.1 % row.2.2.2)])

/-- R212, R213: every outcome of the four setters of the pattern; a row is a command, its register, the field's mask and
its new bits. Where the field read already holds the value nothing is written and one transaction is issued; else every
other bit of the byte read is written back, over whatever ENV has left in the register since. -/
def Obligations.SetterOutcomes : Prop :=
  ∀ (s : State) (v : Bool) (rs : BitVec 2), s.Inv →
    ∀ row ∈ ([(Instr.sethalt v, 0x00, 0x80, if v then 0x80 else 0x00), (Instr.setout v, 0x07, 0x80, if v then 0x80 else 0x00),
        (Instr.setsqwe v, 0x07, 0x10, if v then 0x10 else 0x00), (Instr.setrate rs, 0x07, 0x03, rs.zeroExtend 8)] :
        List (Instr × Nat × Byte × Byte)),
      let a := row.2.1
      let m := row.2.2.1
      let nb := row.2.2.2
      let r := s.readByte a 0
      (s.cfg.configured = false → ∃ t, exec row.1 s = .next t ∧ s.EndsInvalid t) ∧
      (s.cfg.configured = true → s.txn.outcome = .fail → ∃ t, exec row.1 s = .next t ∧ s.EndsReadFailed t a 1) ∧
      (s.cfg.configured = true → s.txn.outcome = .ok → s.imageNow.get a &&& m = nb →
        ∃ t, exec row.1 s = .next t ∧ s.EndsRead t [] ∧ t.shapes = s.shapes ++ [.read a 1]) ∧
      (s.cfg.configured = true → s.txn.outcome = .ok → s.imageNow.get a &&& m ≠ nb →
        ∃ t, exec row.1 s = .next t ∧ s.HostFrame t ∧ s.HandlesFrame t ∧
          (∀ x, x ≠ a → t.mem.get x = s.secondImage.get x) ∧ t.shapes = s.shapes ++ [.read a 1, .write a 1] ∧
          (s.secondTxn.outcome = .fail → t.Reports .busError [] ∧ t.mem.get a = s.secondNoise 0) ∧
          (s.secondTxn.outcome = .ok → t.Reports .ok [] ∧ t.mem.get a = (r &&& ~~~m) ||| nb))

/-- The four setters end OK with their field holding the value, and the register's other bits as they were stored (but
for the reserved bits, which hold what the read returned), where no step of ENV occurs and both transactions succeed. -/
def Obligations.SettersStoreTheirFieldOnly : Prop :=
  ∀ (s : State) (v : Bool) (rs : BitVec 2), s.Inv → s.cfg.configured = true → s.Undisturbed →
    s.txn.outcome = .ok → s.secondTxn.outcome = .ok →
    ∀ row ∈ ([(Instr.sethalt v, 0x00, 0x80, if v then 0x80 else 0x00), (Instr.setout v, 0x07, 0x80, if v then 0x80 else 0x00),
        (Instr.setsqwe v, 0x07, 0x10, if v then 0x10 else 0x00), (Instr.setrate rs, 0x07, 0x03, rs.zeroExtend 8)] :
        List (Instr × Nat × Byte × Byte)),
      ∃ t, exec row.1 s = .next t ∧ t.Reports .ok [] ∧ t.mem.get row.2.1 &&& row.2.2.1 = row.2.2.2 ∧
        (∀ j, j < 8 → row.2.2.1.getLsbD j = false → (reservedMask row.2.1).getLsbD j = false →
          (t.mem.get row.2.1).getLsbD j = (s.mem.get row.2.1).getLsbD j) ∧
        (∀ x, x ≠ row.2.1 → t.mem.get x = s.mem.get x)

/-- R213: a SETHALT that follows a SETHALT of the same value, both ending OK and ENV leaving CH alone in between, issues
one transaction, a read, and stores nothing. -/
def Obligations.RepeatedSetHaltSkipsTheWrite : Prop :=
  ∀ (s t : State) (v : Bool), s.Inv → s.cfg.configured = true → exec (.sethalt v) s = .next t → t.port.status = .ok →
    t.txn.outcome = .ok → (t.imageNow.get 0).getLsbD 7 = (t.mem.get 0).getLsbD 7 →
    ∃ u, exec (.sethalt v) t = .next u ∧ u.Reports .ok [] ∧ u.shapes = t.shapes ++ [.read 0x00 1] ∧
      (∀ x, u.mem.get x = t.imageNow.get x)

/-- R223, R224: every outcome of SET12H. -/
def Obligations.Set12hOutcomes : Prop :=
  ∀ (s : State) (v : Bool), s.Inv →
    let b := (s.imageNow.get 2).toNat
    (s.cfg.configured = false → ∃ t, exec (.set12h v) s = .next t ∧ s.EndsInvalid t) ∧
    (s.cfg.configured = true → s.txn.outcome = .fail →
      ∃ t, exec (.set12h v) s = .next t ∧ s.EndsReadFailed t 0x02 1) ∧
    (s.cfg.configured = true → s.txn.outcome = .ok → b / 64 % 2 = (if v then 1 else 0) →
      ∃ t, exec (.set12h v) s = .next t ∧ s.EndsRead t [] ∧ t.shapes = s.shapes ++ [.read 0x02 1]) ∧
    (s.cfg.configured = true → s.txn.outcome = .ok → b / 64 % 2 ≠ (if v then 1 else 0) →
      ∃ t, exec (.set12h v) s = .next t ∧ s.HostFrame t ∧ s.HandlesFrame t ∧
        (∀ x, x ≠ 2 → t.mem.get x = s.secondImage.get x) ∧ t.shapes = s.shapes ++ [.read 0x02 1, .write 0x02 1] ∧
        (s.secondTxn.outcome = .fail → t.Reports .busError [] ∧ t.mem.get 2 = s.secondNoise 0) ∧
        (s.secondTxn.outcome = .ok → t.Reports .ok [] ∧
          (t.mem.get 2).toNat = if v then hour12Or (unbcd (b % 64)) else bcd (hour12Of b)))

/-- R225: for every legal hours byte the hour shown is the same in the other mode, and a switch there and back returns
the byte. -/
def Obligations.ModeSwitchKeepsHour : Prop :=
  ∀ (b free : Byte), LegalHours b →
    let b' := reencode b (!b.getLsbD 6) free
    LegalHours b' ∧ shownHour b'.toNat = shownHour b.toNat ∧ b'.getLsbD 6 = !b.getLsbD 6 ∧
      reencode b' (b.getLsbD 6) free = b

/-- R225: (a) a SET12H that ends OK, followed by a GET12H that ends OK, reads the mode back. (b) Where in addition no
step of ENV occurs and the hours byte was a legal one, a GETRAW (decimal coding) after it shows the hour of day that was
there, as an hour 1..12 with the PM flag or as an hour 0..23. ENV leaves the hours register alone after the SET12H. -/
def Obligations.Set12hThenReadsShowModeAndHour : Prop :=
  ∀ (s t : State) (v : Bool), s.Inv → s.cfg.configured = true → exec (.set12h v) s = .next t →
    t.port.status = .ok → t.txn.outcome = .ok → t.imageNow.get 2 = t.mem.get 2 →
    (∃ u, exec .get12h t = .next u ∧ u.Reports .ok [if v then 1 else 0]) ∧
    (s.Undisturbed → LegalHours (s.mem.get 2) → s.coding = .decimal → ∃ u w, exec .getraw t = .next u ∧
      u.Reports .ok w ∧ (w.getD 3 0).toNat = (if v then 1 else 0) ∧
      (if v then (w.getD 2 0).toNat % 12 + 12 * (w.getD 4 0).toNat else (w.getD 2 0).toNat) =
        shownHour (s.mem.get 2).toNat)

/-! ## Family 4: RAM -/

/-- R261, R262: every outcome of GETRAM. -/
def Obligations.GetramOutcomes : Prop :=
  ∀ (s : State) (offset length : Word), s.Inv →
    (s.cfg.configured = false ∨ 56 < offset.toNat + length.toNat →
      ∃ t, exec (.getram offset length) s = .next t ∧ s.EndsInvalid t) ∧
    (s.cfg.configured = true → offset.toNat + length.toNat ≤ 56 → s.txn.outcome = .fail →
      ∃ t, exec (.getram offset length) s = .next t ∧ s.EndsReadFailed t (8 + offset.toNat) length.toNat) ∧
    (s.cfg.configured = true → offset.toNat + length.toNat ≤ 56 → s.txn.outcome = .ok →
      ∃ t, exec (.getram offset length) s = .next t ∧
        t.shapes = s.shapes ++ [.read (8 + offset.toNat) length.toNat] ∧
        s.EndsRead t ((List.range length.toNat).map fun i => (s.imageNow.get (8 + offset.toNat + i)).zeroExtend 32))

/-- R261, R263: every outcome of SETRAM. -/
def Obligations.SetramOutcomes : Prop :=
  ∀ (s : State) (offset : Word) (bytes : List Byte), s.Inv →
    (s.cfg.configured = false ∨ 56 < offset.toNat + bytes.length →
      ∃ t, exec (.setram offset bytes) s = .next t ∧ s.EndsInvalid t) ∧
    (s.cfg.configured = true → offset.toNat + bytes.length ≤ 56 →
      ∃ t, exec (.setram offset bytes) s = .next t ∧ s.HostFrame t ∧ s.HandlesFrame t ∧
        (∀ a, (a < 8 + offset.toNat ∨ 8 + offset.toNat + bytes.length ≤ a) → t.mem.get a = s.imageNow.get a) ∧
        t.shapes = s.shapes ++ [.write (8 + offset.toNat) bytes.length] ∧
        (s.txn.outcome = .fail → t.Reports .busError [] ∧
          ∀ i, i < bytes.length → t.mem.get (8 + offset.toNat + i) = s.noise i) ∧
        (s.txn.outcome = .ok → t.Reports .ok [] ∧
          ∀ i (h : i < bytes.length), t.mem.get (8 + offset.toNat + i) = bytes[i]))

/-- R264 (b): bytes written by a SETRAM that ends OK come back from a GETRAM of the same place that ends OK, where ENV
changes none of them in between. -/
def Obligations.SetRamThenGetRamReturnsBytes : Prop :=
  ∀ (s t : State) (offset : Word) (bytes : List Byte), s.Inv → s.cfg.configured = true →
    offset.toNat + bytes.length ≤ 56 → exec (.setram offset bytes) s = .next t → t.port.status = .ok →
    t.txn.outcome = .ok →
    (∀ a, 8 + offset.toNat ≤ a → a < 8 + offset.toNat + bytes.length → t.imageNow.get a = t.mem.get a) →
    ∃ u, exec (.getram offset (BitVec.ofNat 32 bytes.length)) t = .next u ∧
      u.Reports .ok (bytes.map fun b => b.zeroExtend 32)

/-! ## The register image -/

/-- R38, R39: every bit that a read returns is the stored bit, but in a reserved place, where it is a free bit. -/
def Obligations.ReadsReturnStoredBits : Prop :=
  ∀ (s : State) (a i j : Nat), j < 8 →
    (s.readByte a i).getLsbD j =
      if (reservedMask (a + i)).getLsbD j then (s.noise i).getLsbD j else (s.imageNow.get (a + i)).getLsbD j

/-- Which bits are reserved (R38), register by register; the seconds, year and RAM bytes have none. -/
def Obligations.ReservedBitsAreThese : Prop :=
  ∀ (a j : Nat), j < 8 →
    ((reservedMask a).getLsbD j = true ↔
      (a = 1 ∧ j = 7) ∨ (a = 2 ∧ j = 7) ∨ (a = 3 ∧ 3 ≤ j) ∨ (a = 4 ∧ 6 ≤ j) ∨ (a = 5 ∧ 5 ≤ j) ∨
      (a = 7 ∧ (j = 6 ∨ j = 5 ∨ j = 3 ∨ j = 2)))

/-- Every command, whatever its outcome, leaves every byte outside those it stores to as ENV left it in front of its
last transaction (R67, R72, R74): a failed transaction, an early error and a skipped write included. -/
def Obligations.CommandsStoreOnlyTheirBytes : Prop :=
  ∀ (i : Instr) (s t : State), s.Inv → exec i s = .next t →
    ∀ a, (a < (storedBytes i).1 ∨ (storedBytes i).1 + (storedBytes i).2 ≤ a) →
      t.mem.get a = (s.imageAfter (t.shapes.length - s.shapes.length)).get a

/-- R72: a failed transaction ends its command with BusError at once; a failed read changes no image byte; a failed
write leaves a free byte in each byte it addressed and changes no other. -/
def Obligations.FailedTransactionEndsBusError : Prop :=
  ∀ (i : Instr) (s t : State), s.Inv → exec i s = .next t →
    let n := t.shapes.length - s.shapes.length
    (1 ≤ n → s.txn.outcome = .fail → n = 1 ∧ t.Reports .busError [] ∧
      ((∀ o bs, i ≠ .setram o bs) → ∀ a, t.mem.get a = s.imageNow.get a) ∧
      (∀ o bs, i = .setram o bs →
        (∀ j, j < bs.length → t.mem.get (8 + o.toNat + j) = s.noise j) ∧
        (∀ a, a < 8 + o.toNat ∨ 8 + o.toNat + bs.length ≤ a → t.mem.get a = s.imageNow.get a))) ∧
    (2 ≤ n → s.txn.outcome = .ok ∧ (s.secondTxn.outcome = .fail → t.Reports .busError [] ∧
      (∀ j, j < (storedBytes i).2 → t.mem.get ((storedBytes i).1 + j) = s.secondNoise j) ∧
      (∀ a, a < (storedBytes i).1 ∨ (storedBytes i).1 + (storedBytes i).2 ≤ a → t.mem.get a = s.secondImage.get a)))

/-- R36, R37: no time command touches the control register or RAM, no single-field command touches RAM, and the RAM
commands touch no register 0x00-0x07, where no step of ENV occurs. -/
def Obligations.EachFamilyKeepsToItsRegisters : Prop :=
  ∀ (i : Instr) (s t : State), s.Inv → s.Undisturbed → exec i s = .next t → ∀ a,
    ((∀ o bs, i ≠ .setram o bs) → 8 ≤ a → t.mem.get a = s.mem.get a) ∧
    ((∃ o bs, i = .setram o bs) → a < 8 → t.mem.get a = s.mem.get a) ∧
    ((∀ v, i ≠ .setout v) → (∀ v, i ≠ .setsqwe v) → (∀ v, i ≠ .setrate v) → a = 7 → t.mem.get a = s.mem.get a)

/-- R40: CH is preserved by every command but SETHALT, a SETTIME whose `sec` is out of range, and a writer of address
0x00 whose write failed; the mode bit by every command but SET12H, SETRAW, a SETTIME whose `hour` is out of range or
whose write failed. No step of ENV occurs. -/
def Obligations.ClockHaltAndModeArePreserved : Prop :=
  ∀ (i : Instr) (s t : State), s.Inv → s.Undisturbed → exec i s = .next t →
    ((∀ v, i ≠ .sethalt v) → (∀ d, i = .settime d → 0 ≤ d.sec.toInt ∧ d.sec.toInt ≤ 59) →
      ((storedBytes i).1 = 0 ∧ 0 < (storedBytes i).2 → s.txn.outcome = .ok → s.secondTxn.outcome = .ok) →
      (t.mem.get 0).getLsbD 7 = (s.mem.get 0).getLsbD 7) ∧
    ((∀ v, i ≠ .set12h v) → (∀ d, i ≠ .setraw d) →
      (∀ d, i = .settime d → (0 ≤ d.hour.toInt ∧ d.hour.toInt ≤ 23) ∧
        (s.txn.outcome = .ok → s.secondTxn.outcome = .ok)) →
      (t.mem.get 2).getLsbD 6 = (s.mem.get 2).getLsbD 6)

/-- R331: the read-modify-write window. There is a run in which SETSQWE, issuing both its transactions, undoes another
agent's change to OUT that came between its read and its write. -/
def Obligations.SetterUndoesAnotherWriter : Prop :=
  ∃ s t : State, s.Inv ∧ s.cfg.configured = true ∧ (s.imageNow.get 7).getLsbD 7 = false ∧
    (s.secondImage.get 7).getLsbD 7 = true ∧ exec (.setsqwe true) s = .next t ∧ t.Reports .ok [] ∧
    t.shapes = s.shapes ++ [.read 0x07 1, .write 0x07 1] ∧ (t.mem.get 7).getLsbD 7 = false

/-! ## Whole-machine rules -/

/-- R66: a command issues a part, from the first on, of the transactions of its table row, in order; one that ends OK
issues all of them, but for a setter that skips its write. -/
def Obligations.TransactionsAreTheTables : Prop :=
  ∀ (i : Instr) (s t : State), s.Inv → exec i s = .next t →
    ∃ l, t.shapes = s.shapes ++ l ∧ l <+: txnTable i ∧
      (t.port.status = .ok → maySkip i = false → l = txnTable i) ∧
      (t.port.status = .ok → maySkip i = true → l = txnTable i ∨ l = (txnTable i).take 1)

/-- R61, R298: every command only adds to the transaction record, and what it adds is its own instance's. A read is
recorded with the bytes it returned, or with none where it failed; a write with where it went, its bytes and its outcome;
both are addressed to the handle's device with the handle's capability. CONFIG adds its attach, and where the allocation
fails the release of what it obtained (R122); DECONFIG adds the detach of the capability it held (R123); no other command
attaches or detaches. That attaches and detaches stand in the record, and that the rollback's release stands there as a
detach that succeeded, is the model's choice (log 14). -/
def Obligations.RecordShowsTheCommandsTransactions : Prop :=
  ∀ (i : Instr) (s t : State), s.Inv → exec i s = .next t →
    ∃ l, t.busLog = s.busLog ++ l ∧
      (∀ e ∈ l, e.rc = s.cur ∧
        (∀ dev cap a n r, e.op = .memRead dev cap a n r → dev = s.cfg.dev ∧ cap = s.cfg.bus ∧ s.cfg.configured = true ∧
          r = if s.txn.outcome = .ok then some ((List.range n).map (s.readByte a)) else none) ∧
        (∀ dev cap a v o, e.op = .memWrite dev cap a v o → dev = s.cfg.dev ∧ cap = s.cfg.bus ∧
          s.cfg.configured = true ∧ (a, v.length) = storedBytes i ∧
          (∀ off bs, i = .setram off bs → v = bs ∧ o = s.txn.outcome) ∧
          ((∀ off bs, i ≠ .setram off bs) → o = s.secondTxn.outcome) ∧
          (o = .ok → ∀ j (h : j < v.length), t.mem.get (a + j) = v[j])) ∧
        (∀ dev speed cap, e.op = .attach dev speed cap → ∃ c, i = .config c dev speed) ∧
        (∀ cap o, e.op = .detach cap o → isLifecycle i = true)) ∧
      (∀ c d v, i = .config c d v →
        (∀ cap, s.attachOutcome = .ok cap → l = [⟨s.cur, .attach d v (some cap)⟩]) ∧
        (s.attachOutcome = .attachFail → l = [⟨s.cur, .attach d v none⟩]) ∧
        (∀ cap, s.attachOutcome = .allocFail cap →
          l = [⟨s.cur, .attach d v (some cap)⟩, ⟨s.cur, .detach (some cap) .ok⟩])) ∧
      (i = .deconfig → s.cfg.configured = true → l = [⟨s.cur, .detach s.cfg.bus s.detachOutcome⟩])

/-- R22, R282: with no handle DECONFIG and every register-image command end InvalidArgument and touch nothing else. -/
def Obligations.NoHandleEndsInvalidArgument : Prop :=
  ∀ (i : Instr) (s : State), s.Inv → s.cfg.configured = false → needsHandle i = true →
    ∃ t, exec i s = .next t ∧ s.EndsInvalid t

/-- R22, R23, R24: only CONFIG and DECONFIG write a handle, and only that of their own instance. -/
def Obligations.OnlyLifecycleCommandsWriteHandles : Prop :=
  ∀ (i : Instr) (s t : State), s.Inv → exec i s = .next t →
    s.HostFrame t ∧ (isLifecycle i = false → s.HandlesFrame t)

/-- R23: as long as an instance stays configured its base is the one it was configured with, over every step: commands
of any instance, host reads and restarts. -/
def Obligations.YearBaseIsFixedWhileConfigured : Prop :=
  ∀ (s t : State) (k : Nat), s.Inv → step s = .next t → (s.rcAt k).cfg.configured = true →
    (t.rcAt k).cfg.configured = true → (t.rcAt k).cfg = (s.rcAt k).cfg

/-- R27, R91, R289: every command that ends writes the status; one that ends OK leaves as many result words as its row
of R93 says, one that ends in an error leaves none. -/
def Obligations.ResponsesHaveTheirShape : Prop :=
  ∀ (i : Instr) (s t : State), s.Inv → exec i s = .next t →
    t.port.hasStatus = true ∧
    (t.port.status = .ok → t.port.results.length = resultCount i) ∧ (t.port.status ≠ .ok → t.port.results = [])

/-- R281, R282, R283, R284, R285, R286: which commands can end in which error, fault and refusal, and by which cause. A
transaction is a cause of BusError only where the command issued it. -/
def Obligations.OutcomesHaveTheirCauses : Prop :=
  ∀ (i : Instr) (s : State), s.Inv →
    (∀ f, exec i s = .fault f → f = .arithOverflow ∧
      ((i = .gettime ∧ s.cfg.configured = true ∧ s.txn.outcome = .ok) ∨
        (s.cfg.configured = false ∧ ∃ c d v, i = .config c d v))) ∧
    (∀ r, exec i s = .refused r → r = .alreadyConfigured ∧ s.cfg.configured = true ∧ ∃ c d v, i = .config c d v) ∧
    (∀ t, exec i s = .next t →
      (t.port.status = .invalidArgument → t.busLog = s.busLog ∧
        ((needsHandle i = true ∧ s.cfg.configured = false) ∨
          (s.cfg.configured = true ∧ ∃ o l, i = .getram o l ∧ 56 < o.toNat + l.toNat) ∨
          (s.cfg.configured = true ∧ ∃ o bs, i = .setram o bs ∧ 56 < o.toNat + bs.length))) ∧
      (t.port.status = .outOfMemory →
        s.cfg.configured = false ∧ (∃ cap, s.attachOutcome = .allocFail cap) ∧ ∃ c d v, i = .config c d v) ∧
      (t.port.status = .busError →
        (s.txn.outcome = .fail ∧ ∃ x rest, txnTable i = x :: rest ∧ t.shapes = s.shapes ++ [x]) ∨
        (s.txn.outcome = .ok ∧ s.secondTxn.outcome = .fail ∧
          ∃ x y, txnTable i = [x, y] ∧ t.shapes = s.shapes ++ [x, y]) ∨
        (s.cfg.configured = false ∧ s.attachOutcome = .attachFail ∧ (∃ c d v, i = .config c d v) ∧
          t.shapes = s.shapes) ∨
        (s.cfg.configured = true ∧ s.detachOutcome = .fail ∧ i = .deconfig ∧ t.shapes = s.shapes)))

/-! ## Several instances: commands between their two transactions -/

/-- R77, R78, R296: a command run as far as its second transaction, its instance's turn taken right after, is the command
run to its end in one step; a fault and a refusal are the same too. -/
def Obligations.StartThenFinishIsTheCommand : Prop :=
  ∀ (i : Instr) (s : State), s.Inv → s.rc.pending = none →
    (∀ t, startCommand i s = .next t → exec i s = .next (t.finish s.cur)) ∧
    (∀ f, startCommand i s = .fault f → exec i s = .fault f) ∧
    (∀ r, startCommand i s = .refused r → exec i s = .refused r)

/-- What a started command does (R66, R78): where the whole command would issue the two transactions of its row, it
issues the read and comes to stand before the write, which its instance then owes: its response is not written, its
handle and every other instance are as they were, and the image is as ENV left it. Every other command runs to its end.
That a command is split there is the model's choice (log 18). -/
def Obligations.StartedCommandStopsBeforeItsWrite : Prop :=
  ∀ (i : Instr) (s : State), s.Inv → s.rc.pending = none →
    (∀ x y u, txnTable i = [x, y] → exec i s = .next u → u.shapes = s.shapes ++ [x, y] →
      ∃ t p a n, startCommand i s = .next t ∧ t.rc.pending = some p ∧ (p.addr, p.bytes.length) = storedBytes i ∧
        t.port = s.port ∧ t.cfg = s.cfg ∧ (∀ k, k ≠ s.cur → t.rcAt k = s.rcAt k) ∧ t.cur = s.cur ∧
        t.coding = s.coding ∧ t.inbox = s.inbox ∧ (∀ b, t.mem.get b = s.imageNow.get b) ∧ x = .read a n ∧
        t.busLog = s.busLog ++
          [⟨s.cur, .memRead s.cfg.dev s.cfg.bus a n (some ((List.range n).map (s.readByte a)))⟩]) ∧
    ((∀ x y u, txnTable i = [x, y] → exec i s = .next u → u.shapes ≠ s.shapes ++ [x, y]) →
      startCommand i s = exec i s)

/-- The turn of an instance that owes a write (R72, R77, R78): the write is issued, on the image that the transactions and
ENV steps since the read have left, and the command ends. Nothing else of any instance changes. -/
def Obligations.FinishIssuesTheWriteOwed : Prop :=
  ∀ (s : State) (k : Nat) (p : Pending) (rest : List HostEvent), s.Inv → (s.rcAt k).pending = some p →
    s.inbox = .finish k :: rest →
    ∃ t, step s = .next t ∧ t.cur = k ∧ t.rc.pending = none ∧ t.cfg = (s.rcAt k).cfg ∧
      t.port.hasCommand = (s.rcAt k).port.hasCommand ∧ t.port.op = (s.rcAt k).port.op ∧
      t.port.operands = (s.rcAt k).port.operands ∧ (∀ j, j ≠ k → t.rcAt j = s.rcAt j) ∧ t.coding = s.coding ∧
      t.inbox = rest ∧
      t.busLog = s.busLog ++
        [⟨k, .memWrite (s.rcAt k).cfg.dev (s.rcAt k).cfg.bus p.addr p.bytes s.txn.outcome⟩] ∧
      (∀ a, (a < p.addr ∨ p.addr + p.bytes.length ≤ a) → t.mem.get a = s.imageNow.get a) ∧
      (s.txn.outcome = .ok → t.Reports .ok [] ∧
        ∀ i (h : i < p.bytes.length), t.mem.get (p.addr + i) = p.bytes[i]) ∧
      (s.txn.outcome = .fail → t.Reports .busError [] ∧
        ∀ i, i < p.bytes.length → t.mem.get (p.addr + i) = s.noise i)

/-- R297: an instance whose command is in progress takes no other. Whatever the next event is, but its own turn or a
restart, its handle, its port and the write it owes stay as they are; a decoded command presented to it, or a reading of
its response, is stuck. Over a run to its own turn under SOLE_WRITER (R75: no write of another agent and none of another
instance, which may step and read in between) with TICK the identity (R76), the write meets the image that stood when the
command was started: every byte outside it is as it was. The name of the stop is the model's (log 18). -/
def Obligations.CommandInProgressEndsByItsOwnTurn : Prop :=
  ∀ (s : State) (k : Nat), s.Inv → (s.rcAt k).pending ≠ none →
    (∀ t, step s = .next t →
      t.rcAt k = s.rcAt k ∨ (∃ rest, s.inbox = .finish k :: rest) ∨ ∃ rest, s.inbox = .restart :: rest) ∧
    (∀ c i rest, decode c = .ok i → (s.inbox = .command k c :: rest ∨ s.inbox = .start k c :: rest) →
      step s = .fault .concurrentUse) ∧
    (∀ rest, s.inbox = .readResponse k :: rest → step s = .fault .concurrentUse) ∧
    (∀ p evs rest t, (s.rcAt k).pending = some p → s.inbox = evs ++ .finish k :: rest →
      (∀ e ∈ evs, e ≠ .finish k ∧ e ≠ .restart) → Host.Core.run Sys2Proof.core (evs.length + 1) s = .next t →
      s.SoleWriterUntil t k → s.ClockStandsUntil t →
      t.inbox = rest ∧ (t.rcAt k).pending = none ∧ (t.rcAt k).cfg = (s.rcAt k).cfg ∧
        (∀ a, (a < p.addr ∨ p.addr + p.bytes.length ≤ a) → t.mem.get a = s.mem.get a) ∧
        ((t.rcAt k).port.status = .ok ∨ (t.rcAt k).port.status = .busError) ∧
        ((t.rcAt k).port.status = .ok → ∀ i (h : i < p.bytes.length), t.mem.get (p.addr + i) = p.bytes[i]))

/-- R77, R296: the transactions of two instances come in every order that keeps each instance's own. Two configured
instances each run a SETTIME, and all four transactions succeed: with the three schedules below (and, the instances
exchanged, the other three) the record shows the four transactions in the order of the schedule, and both commands end
OK. -/
def Obligations.InstancesInterleaveInEveryOrder : Prop :=
  ∀ (s : State) (j k : Nat) (d e : CalendarTime) (t₁ t₂ t₃ t₄ : Txn) (more : List Txn), s.Inv → j ≠ k →
    (s.rcAt j).cfg.configured = true → (s.rcAt k).cfg.configured = true →
    (s.rcAt j).pending = none → (s.rcAt k).pending = none →
    s.inputs.txns = t₁ :: t₂ :: t₃ :: t₄ :: more → (∀ x ∈ [t₁, t₂, t₃, t₄], x.outcome = .ok) →
    let startJ := HostEvent.start j (encode (.settime d))
    let startK := HostEvent.start k (encode (.settime e))
    let readOf := fun n => (n, some (TxnShape.read 0x00 3))
    let writeOf := fun n => (n, some (TxnShape.write 0x00 7))
    ∀ row ∈ [([startJ, .finish j, startK, .finish k], [readOf j, writeOf j, readOf k, writeOf k]),
        ([startJ, startK, .finish j, .finish k], [readOf j, readOf k, writeOf j, writeOf k]),
        ([startJ, startK, .finish k, .finish j], [readOf j, readOf k, writeOf k, writeOf j])],
      ∃ t, Host.Core.run Sys2Proof.core 4 { s with inbox := row.1 } = .next t ∧
        t.busLog.map (fun r => (r.rc, r.shape)) = s.busLog.map (fun r => (r.rc, r.shape)) ++ row.2 ∧
        (∀ n ∈ [j, k], (t.rcAt n).pending = none ∧ (t.rcAt n).port.hasStatus = true ∧ (t.rcAt n).port.status = .ok)

/-! ## Reset and the host -/

/-- R56, R321, R323: a restart leaves every instance unconfigured, with no capability, no value on its port and no command
in progress, and does not touch the register image. That a restart is a host event, and what of the world outside outlives it, is the model's
choice (log 8, log 16). -/
def Obligations.RestartResetsBlockNotImage : Prop :=
  ∀ (s : State) (rest : List HostEvent), s.inbox = .restart :: rest →
    ∃ t, step s = .next t ∧ t.inbox = rest ∧ (∀ a, t.mem.get a = s.mem.get a) ∧ t.coding = s.coding ∧
      t.busLog = s.busLog ∧
      ∀ k, (t.rcAt k).cfg.configured = false ∧ (t.rcAt k).cfg.bus = none ∧ (t.rcAt k).port.hasCommand = false ∧
        (t.rcAt k).port.operands = [] ∧ (t.rcAt k).port.hasStatus = false ∧ (t.rcAt k).port.results = [] ∧
        (t.rcAt k).pending = none

/-- R56: what the spec states of the machine after reset. -/
def Obligations.ResetStateIsTheSpecs : Prop :=
  ∀ k, (State.reset.rcAt k).cfg.configured = false ∧ (State.reset.rcAt k).cfg.bus = none ∧
    (State.reset.rcAt k).port.hasCommand = false ∧ (State.reset.rcAt k).port.operands = [] ∧
    (State.reset.rcAt k).port.hasStatus = false ∧ (State.reset.rcAt k).port.results = [] ∧
    (State.reset.rcAt k).pending = none ∧ State.reset.coding = .decimal

/-- R25: after the host has read a response (of an instance with no command in progress) the instance's operand and result words hold no value; its status, its
handle and everything else are as they were. That the read is a host event is the model's choice (log 8, log 15). -/
def Obligations.ReadResponseClearsWords : Prop :=
  ∀ (s : State) (k : Nat) (rest : List HostEvent), s.Inv → s.inbox = .readResponse k :: rest →
    (s.rcAt k).pending = none →
    ∃ t, step s = .next t ∧ t.inbox = rest ∧ (t.rcAt k).port.operands = [] ∧ (t.rcAt k).port.results = [] ∧
      (t.rcAt k).port.hasStatus = (s.rcAt k).port.hasStatus ∧ (t.rcAt k).port.status = (s.rcAt k).port.status ∧
      (t.rcAt k).pending = none ∧ s.HandlesFrame t ∧ s.BusFrame t ∧ ∀ k', k' ≠ k → t.rcAt k' = s.rcAt k'

/-- A step runs the decoded command: where the host presents a command that decodes to `i` to an instance with no command
in progress, the step is `exec i` (for a start, `startCommand i`) on the state whose port holds that command. That
commands come from a queue of events is the model's choice (log 8, log 18). -/
def Obligations.StepRunsDecodedCommand : Prop :=
  ∀ (s : State) (k : Nat) (c : Encoded) (rest : List HostEvent) (i : Instr), decode c = .ok i →
    (s.rcAt k).pending = none →
    (s.inbox = .command k c :: rest → step s = exec i (State.present { s with inbox := rest } k c)) ∧
    (s.inbox = .start k c :: rest → step s = startCommand i (State.present { s with inbox := rest } k c))

/-- What presenting a command does (R25, R26): the instance's port holds the command and no result word; nothing else
changes but which instance runs. That the last result words go when a command is presented is the model's choice
(log 15). -/
def Obligations.PresentedCommandIsOnThePort : Prop :=
  ∀ (s : State) (k : Nat) (c : Encoded), s.Inv →
    let t := s.present k c
    t.cur = k ∧ t.port.hasCommand = true ∧ t.port.op = c.op ∧ t.port.operands = c.words ∧ t.port.results = [] ∧
      t.port.hasStatus = (s.rcAt k).port.hasStatus ∧ t.port.status = (s.rcAt k).port.status ∧
      t.rc.pending = (s.rcAt k).pending ∧ s.HandlesFrame t ∧ s.BusFrame t ∧ t.coding = s.coding ∧ t.inbox = s.inbox ∧ t.inputs = s.inputs ∧
      ∀ k', k' ≠ k → t.rcAt k' = s.rcAt k'

/-- R322: with nothing from the host the block waits, and an instance that owes no write has an idle turn. That these are
steps that change nothing is the model's choice (log 8, log 18). -/
def Obligations.BlockWaitsForTheHost : Prop :=
  ∀ s : State, (s.inbox = [] → step s = .next s) ∧
    ∀ k rest, s.inbox = .finish k :: rest → (s.rcAt k).pending = none → step s = .next { s with inbox := rest }

/-- R281, R286, R291: a refused command changes nothing of the machine but that the host has used it, and leaves a mark;
the session goes on. How the mark is kept is the model's choice (log 11). -/
def Obligations.RefusedCommandChangesNothing : Prop :=
  ∀ (S : Session) (k : Nat) (c : Encoded) (rest : List HostEvent) (r : Refusal),
    S.st.Inv → (S.st.inbox = .command k c :: rest ∨ S.st.inbox = .start k c :: rest) → step S.st = .refused r →
    S.advance = .ok { st := { S.st with inbox := rest }, marks := S.marks ++ [r] } ∧
      (∀ i, decode c = .ok i → (S.st.rcAt k).cfg.configured = true ∧ r = .alreadyConfigured) ∧
      (∀ e, decode c = .error e → r = refusalOf e)

/-! ## Encoding -/

/-- Decode and encode agree: every well-formed command, with every operand at every value its kind admits, is what the
decoder reads from its encoding. -/
def Obligations.DecodeOfEncode : Prop :=
  ∀ i : Instr, i.wellFormed = true → decode (encode i) = .ok i

/-- Each encoding has one meaning: a command that decodes is the encoding of what it decodes to, followed by the words
that the command does not read (the model's reading, log 9); and it is well-formed. -/
def Obligations.EncodeOfDecode : Prop :=
  ∀ (c : Encoded) (i : Instr), decode c = .ok i →
    i.wellFormed = true ∧ (encode i).op = c.op ∧ (encode i).words <+: c.words

/-- The reserved opcode bytes are refused, whatever the words, the instance and the state, and the others are not refused
for their opcode, as R98 lists them. That a step gives the refusal for an instance whose command is in progress too, and
for a command that is to be started, is the model's choice (log 18); that commands come from a queue of events is log 8. -/
def Obligations.ReservedOpcodesAreRefused : Prop :=
  ∀ (op : Byte) (words : List Word),
    let n := op.toNat
    let reserved := n = 0 ∨ (0x05 ≤ n ∧ n ≤ 0x0F) ∨ (0x12 ≤ n ∧ n ≤ 0x1F) ∨ (0x24 ≤ n ∧ n ≤ 0x2F) ∨
      (0x3A ≤ n ∧ n ≤ 0x3F) ∨ 0x42 ≤ n
    (decode ⟨op, words⟩ = .error .reservedOpcode ↔ reserved) ∧
    (reserved → ∀ (s : State) (k : Nat) (rest : List HostEvent),
      (s.inbox = .command k ⟨op, words⟩ :: rest ∨ s.inbox = .start k ⟨op, words⟩ :: rest) → step s = .refused .reservedOpcode)

/-- A command with all its words, one of them beyond the values of its kind, is refused, as R99 says. The kinds of SETRAM's
data words are BYTE. That words beyond those a command reads do not count is the model's reading (log 9); that a step
gives the refusal for an instance whose command is in progress too, and for a command that is to be started, is the
model's choice (log 18); that commands come from a queue of events is log 8. -/
def Obligations.ReservedOperandBitsAreRefused : Prop :=
  ∀ (o : Opcode) (words : List Word) (j : Nat) (k : Kind) (w : Word),
    o.operandCount words ≤ words.length → words[j]? = some w → kindLimit k ≤ w.toNat →
    (o.kinds[j]? = some k ∨ (o = .setram ∧ k = .byte ∧ 2 ≤ j ∧ j < o.operandCount words)) →
    decode ⟨o.byte, words⟩ = .error .reservedOperandBits ∧
    ∀ (s : State) (n : Nat) (rest : List HostEvent),
      (s.inbox = .command n ⟨o.byte, words⟩ :: rest ∨ s.inbox = .start n ⟨o.byte, words⟩ :: rest) → step s = .refused .reservedOperandBits

/-- A SETRAM with fewer data words than its length word says is refused as short (R95), before its operand bits are looked
at (R288). That a step gives the refusal for an instance whose command is in progress too, and for a command that is to
be started, is the model's choice (log 18); that commands come from a queue of events is log 8. -/
def Obligations.ShortSetramIsRefused : Prop :=
  ∀ (offset length : Word) (data : List Word), data.length < length.toNat →
    decode ⟨0x41, offset :: length :: data⟩ = .error .shortCommand ∧
    ∀ (s : State) (k : Nat) (rest : List HostEvent),
      (s.inbox = .command k ⟨0x41, offset :: length :: data⟩ :: rest ∨
        s.inbox = .start k ⟨0x41, offset :: length :: data⟩ :: rest) → step s = .refused .shortCommand

/-- R92: bits 7-4 are the family; in family 3 bits 3-1 select the field and bit 0 tells set from get; in families 2 and
4 bit 0 does too. -/
def Obligations.OpcodeFieldsSelect : Prop :=
  ∀ o : Opcode,
    (opFam o.byte = 0 ↔ o = .tobcd ∨ o = .frombcd ∨ o = .dec12h ∨ o = .enc12h) ∧
    (opFam o.byte = 1 ↔ o = .config ∨ o = .deconfig) ∧
    (opFam o.byte = 2 ↔ o = .gettime ∨ o = .settime ∨ o = .getraw ∨ o = .setraw) ∧
    (opFam o.byte = 4 ↔ o = .getram ∨ o = .setram) ∧ opFam o.byte ≤ 4 ∧
    (opFam o.byte = 3 → opSet o.byte = !decide (o.kinds = []) ∧
      (opSel o.byte = 0 ↔ o = .gethalt ∨ o = .sethalt) ∧ (opSel o.byte = 1 ↔ o = .getout ∨ o = .setout) ∧
      (opSel o.byte = 2 ↔ o = .getsqwe ∨ o = .setsqwe) ∧ (opSel o.byte = 3 ↔ o = .getrate ∨ o = .setrate) ∧
      (opSel o.byte = 4 ↔ o = .get12h ∨ o = .set12h)) ∧
    (opFam o.byte = 2 ∨ opFam o.byte = 4 →
      (opSet o.byte = true ↔ o = .settime ∨ o = .setraw ∨ o = .setram))

/-- Words written out from the spec's own vectors (95_test_vectors.md) decode to the commands they stand for. -/
def Obligations.VectorWordsDecode : Prop :=
  decode ⟨0x01, [0x0000002D]⟩ = .ok (.tobcd 45) ∧
  decode ⟨0x10, [0x00000015, 0x00000068, 0x000186A0]⟩ = .ok (.config 21 0x68 100000) ∧
  decode ⟨0x21, [0, 0x1E, 9, 1, 0, 0x7D, 3]⟩ = .ok (.settime ⟨0, 30, 9, 1, 0, 125, 3⟩) ∧
  decode ⟨0x37, [3]⟩ = .ok (.setrate 3) ∧
  decode ⟨0x41, [0, 2, 0xAA, 0x55]⟩ = .ok (.setram 0 [0xAA, 0x55])

/-! ## The invariant -/

/-- The machine after reset meets the invariant, every clause of `State.Inv`. -/
def Obligations.ResetMeetsInvariant : Prop := State.reset.Inv

/-- Every step keeps the invariant: from every state that meets it, reached by a run or not, whatever the host does and
whatever the free inputs are. -/
def Obligations.StepKeepsInvariant : Prop := ∀ s t : State, s.Inv → step s = .next t → t.Inv
end

