-- ==== Sys2Proof/Laws/Sparse.lean ====
section
/-! SUPPORT. Laws/Sparse.lean: read after write, and the canonical form, of sparse tables. -/
namespace Sys2Proof.Machine

variable {α : Type} [DecidableEq α] (d : α)

theorem Sparse.wfFrom_mono {lo lo' : Nat} (hl : lo' ≤ lo) {m : List (Nat × α)} (h : Sparse.wfFrom d lo m = true) :
    Sparse.wfFrom d lo' m = true := by
  cases m with
  | nil => rfl
  | cons e rest =>
    simp only [Sparse.wfFrom, Bool.and_eq_true, decide_eq_true_eq] at h ⊢
    exact ⟨⟨le_trans hl h.1.1, h.1.2⟩, h.2⟩

theorem Sparse.get_below {lo k : Nat} {m : List (Nat × α)} (h : Sparse.wfFrom d lo m = true) (hk : k < lo) :
    Sparse.get d m k = d := by
  induction m generalizing lo with
  | nil => rfl
  | cons e rest ih =>
    simp only [Sparse.wfFrom, Bool.and_eq_true, decide_eq_true_eq] at h
    have : k ≠ e.1 := by omega
    simp only [Sparse.get, this, if_false]
    exact ih h.2 (by omega)

theorem Sparse.wfFrom_cons {lo k : Nat} {v : α} {m : List (Nat × α)} (hlo : lo ≤ k)
    (h : Sparse.wfFrom d (k + 1) m = true) : Sparse.wfFrom d lo (Sparse.cons d k v m) = true := by
  unfold Sparse.cons
  split
  · exact Sparse.wfFrom_mono d (by omega) h
  · next hv => simp [Sparse.wfFrom, hlo, hv, h]

/-- Setting a value keeps the canonical form. -/
theorem Sparse.wfFrom_set {lo k : Nat} {v : α} {m : List (Nat × α)} (hlo : lo ≤ k)
    (h : Sparse.wfFrom d lo m = true) : Sparse.wfFrom d lo (Sparse.set d m k v) = true := by
  induction m generalizing lo with
  | nil => exact Sparse.wfFrom_cons d hlo rfl
  | cons e rest ih =>
    have h' := h
    simp only [Sparse.wfFrom, Bool.and_eq_true, decide_eq_true_eq] at h'
    simp only [Sparse.set]
    split
    · next hk =>
      refine Sparse.wfFrom_cons d hlo ?_
      simp only [Sparse.wfFrom, Bool.and_eq_true, decide_eq_true_eq]
      exact ⟨⟨by omega, h'.1.2⟩, h'.2⟩
    · split
      · next hk => exact Sparse.wfFrom_cons d hlo (by rw [hk]; exact h'.2)
      · simp only [Sparse.wfFrom, Bool.and_eq_true, decide_eq_true_eq]
        exact ⟨⟨h'.1.1, h'.1.2⟩, ih (by omega) h'.2⟩

theorem Sparse.get_cons {lo k k' : Nat} {v : α} {m : List (Nat × α)} (h : Sparse.wfFrom d lo m = true) (hk : k < lo) :
    Sparse.get d (Sparse.cons d k v m) k' = if k' = k then v else Sparse.get d m k' := by
  unfold Sparse.cons
  split
  · next hv =>
    split
    · next hkk => rw [hkk, Sparse.get_below d h hk, hv]
    · rfl
  · rfl

/-- Reading after setting, at every key. -/
theorem Sparse.get_set {lo k k' : Nat} {v : α} {m : List (Nat × α)} (h : Sparse.wfFrom d lo m = true) :
    Sparse.get d (Sparse.set d m k v) k' = if k' = k then v else Sparse.get d m k' := by
  induction m generalizing lo with
  | nil => exact Sparse.get_cons d (lo := k + 1) rfl (by omega)
  | cons e rest ih =>
    have h' := h
    simp only [Sparse.wfFrom, Bool.and_eq_true, decide_eq_true_eq] at h'
    simp only [Sparse.set]
    split
    · next hk =>
      refine Sparse.get_cons d (lo := e.1) ?_ hk
      simp only [Sparse.wfFrom, Bool.and_eq_true, decide_eq_true_eq]
      exact ⟨⟨le_refl _, h'.1.2⟩, h'.2⟩
    · split
      · next hk =>
        rw [Sparse.get_cons d h'.2 (by omega)]
        simp only [Sparse.get]
        split
        · rfl
        · next hne => rw [if_neg (by rw [← hk]; exact hne)]
      · next hlt hne =>
        simp only [Sparse.get]
        rw [ih h'.2]
        split
        · next hke => rw [if_neg (by rw [hke]; exact fun hc => hne hc.symm)]
        · rfl

/-- Two tables in canonical form with the same value at every key are the same list. -/
theorem Sparse.eq_of_get {lo : Nat} {m m' : List (Nat × α)} (h : Sparse.wfFrom d lo m = true)
    (h' : Sparse.wfFrom d lo m' = true) (hg : ∀ k, Sparse.get d m k = Sparse.get d m' k) : m = m' := by
  induction m generalizing lo m' with
  | nil =>
    cases m' with
    | nil => rfl
    | cons e rest =>
      have hk := hg e.1
      simp [Sparse.wfFrom] at h'
      simp [Sparse.get] at hk
      exact absurd hk.symm h'.1.2
  | cons e rest ih =>
    have hw := h
    simp only [Sparse.wfFrom, Bool.and_eq_true, decide_eq_true_eq, Bool.not_eq_true', decide_eq_false_iff_not] at h
    cases m' with
    | nil =>
      have hk := hg e.1
      simp [Sparse.get] at hk
      exact absurd hk h.1.2
    | cons e' rest' =>
      have hw' := h'
      simp only [Sparse.wfFrom, Bool.and_eq_true, decide_eq_true_eq, Bool.not_eq_true', decide_eq_false_iff_not] at h'
      have hkey : e.1 = e'.1 := by
        by_contra hne
        rcases Nat.lt_or_gt_of_ne hne with hlt | hlt
        · have hk := hg e.1
          simp only [Sparse.get, if_true, if_neg hne, Sparse.get_below d h'.2 (by omega : e.1 < e'.1 + 1)] at hk
          exact h.1.2 hk
        · have hk := hg e'.1
          simp only [Sparse.get, if_true, if_neg (Ne.symm hne), Sparse.get_below d h.2 (by omega : e'.1 < e.1 + 1)] at hk
          exact h'.1.2 hk.symm
      have hval : e.2 = e'.2 := by
        have hk := hg e.1
        simpa [Sparse.get, hkey] using hk
      have hrest : rest = rest' := by
        refine ih h.2 (by rw [hkey]; exact h'.2) fun k => ?_
        have hk := hg k
        by_cases hke : k = e.1
        · rw [Sparse.get_below d h.2 (by omega), Sparse.get_below d h'.2 (by omega)]
        · simpa [Sparse.get, hke, hkey ▸ hke] using hk
      rw [hrest, show e = e' from Prod.ext hkey hval]

end Sys2Proof.Machine
end

