-- ==== Sys2Proof/Laws/Memory.lean ====
section
/-! SUPPORT. Laws/Memory.lean: read after write and the canonical form of the register image. -/
namespace Sys2Proof.Machine

theorem Memory.wf_from {m : Memory} (h : m.wf = true) : Sparse.wfFrom unlistedByte 0 m = true := by
  simp only [Memory.wf, Bool.and_eq_true] at h
  exact h.1

theorem Sparse.set_bound {b : Nat} {m : Memory} {a : Nat} {v : Byte} (ha : a < b)
    (h : ∀ c ∈ m, c.1 < b) : ∀ c ∈ Sparse.set unlistedByte m a v, c.1 < b := by
  have hcons : ∀ m' : Memory, (∀ c ∈ m', c.1 < b) → ∀ c ∈ Sparse.cons unlistedByte a v m', c.1 < b := by
    intro m' hm' c hc
    unfold Sparse.cons at hc
    split at hc
    · exact hm' c hc
    · rcases List.mem_cons.1 hc with rfl | hc
      · exact ha
      · exact hm' c hc
  induction m with
  | nil => exact hcons [] (by simp)
  | cons e rest ih =>
    have hrest : ∀ c ∈ rest, c.1 < b := fun c hc => h c (List.mem_cons_of_mem _ hc)
    simp only [Sparse.set]
    split
    · exact hcons _ h
    · split
      · exact hcons _ hrest
      · intro c hc
        rcases List.mem_cons.1 hc with rfl | hc
        · exact h _ (by simp)
        · exact ih hrest c hc

/-- Writing a byte keeps the canonical form. -/
theorem Memory.wf_set {m : Memory} (h : m.wf = true) (a : Nat) (v : Byte) : (m.set a v).wf = true := by
  unfold Memory.set
  split
  · next ha =>
    have h' := h
    simp only [Memory.wf, Bool.and_eq_true, List.all_eq_true, decide_eq_true_eq] at h' ⊢
    exact ⟨Sparse.wfFrom_set _ (Nat.zero_le a) h'.1, Sparse.set_bound ha h'.2⟩
  · exact h

/-- Writing a list of bytes keeps the canonical form. -/
theorem Memory.wf_setList {m : Memory} (h : m.wf = true) (a : Nat) (v : List Byte) : (m.setList a v).wf = true := by
  induction v generalizing m a with
  | nil => exact h
  | cons b rest ih => exact ih (Memory.wf_set h a b) (a + 1)

/-- The steps of ENV keep the canonical form. -/
theorem Memory.wf_afterEnv {m : Memory} (h : m.wf = true) (env : List EnvWrite) : (m.afterEnv env).wf = true := by
  induction env generalizing m with
  | nil => exact h
  | cons w rest ih => exact ih (Memory.wf_set h _ _)

@[simp] theorem Memory.afterEnv_nil (m : Memory) : m.afterEnv [] = m := rfl

/-- The byte at `a'` after writing one byte inside the image. -/
theorem Memory.get_set {m : Memory} (h : m.wf = true) {a : Nat} (ha : a < imageSize) (v : Byte) (a' : Nat) :
    (m.set a v).get a' = if a' = a then v else m.get a' := by
  simp only [Memory.set, ha, if_true, Memory.get]
  exact Sparse.get_set _ (Memory.wf_from h)

/-- The byte at `a'` after writing a list of bytes inside the image: the list's byte where `a'` is one of the addressed
bytes, as before elsewhere. -/
theorem Memory.get_setList {m : Memory} (h : m.wf = true) {a : Nat} {v : List Byte} (ha : a + v.length ≤ imageSize)
    (a' : Nat) : (m.setList a v).get a' = if a ≤ a' ∧ a' < a + v.length then v.getD (a' - a) 0 else m.get a' := by
  induction v generalizing m a with
  | nil => simp [Memory.setList]
  | cons b rest ih =>
    simp only [List.length_cons] at ha ⊢
    simp only [Memory.setList]
    rw [ih (Memory.wf_set h a b) (by omega), Memory.get_set h (by omega)]
    by_cases h1 : a' = a
    · subst h1
      simp
    · by_cases h2 : a + 1 ≤ a' ∧ a' < a + 1 + rest.length
      · rw [if_pos h2, if_pos (by omega)]
        obtain ⟨i, hi⟩ : ∃ i, a' - a = i + 1 := ⟨a' - a - 1, by omega⟩
        rw [hi, show a' - (a + 1) = i by omega]
        simp
      · rw [if_neg h2, if_neg h1, if_neg (by omega)]

/-- A byte outside the addressed ones is as before, whatever the image. -/
theorem Memory.get_setList_outside {m : Memory} (h : m.wf = true) {a : Nat} {v : List Byte}
    (ha : a + v.length ≤ imageSize) {a' : Nat} (hout : a' < a ∨ a + v.length ≤ a') :
    (m.setList a v).get a' = m.get a' := by
  rw [Memory.get_setList h ha, if_neg (by omega)]

/-- Equal contents are equal data: two images in canonical form that hold the same bytes are the same list. -/
theorem Memory.eq_of_get {m m' : Memory} (h : m.wf = true) (h' : m'.wf = true) (hg : ∀ a, m.get a = m'.get a) :
    m = m' :=
  Sparse.eq_of_get _ (Memory.wf_from h) (Memory.wf_from h') hg

end Sys2Proof.Machine
end

