-- ==== Sys2Proof/Laws/State.lean ====
section
/-! SUPPORT. Laws/State.lean: one lemma per field per update of State, each true by definition. -/
namespace Sys2Proof.Machine

/-! ### setRcAt -/

@[simp] theorem State.setRcAt_insts (s : State) (k : Nat) (r : Rc) : (s.setRcAt k r).insts = Sparse.set Rc.reset s.insts k r := rfl
@[simp] theorem State.setRcAt_cur (s : State) (k : Nat) (r : Rc) : (s.setRcAt k r).cur = s.cur := rfl
@[simp] theorem State.setRcAt_mem (s : State) (k : Nat) (r : Rc) : (s.setRcAt k r).mem = s.mem := rfl
@[simp] theorem State.setRcAt_pointer (s : State) (k : Nat) (r : Rc) : (s.setRcAt k r).pointer = s.pointer := rfl
@[simp] theorem State.setRcAt_coding (s : State) (k : Nat) (r : Rc) : (s.setRcAt k r).coding = s.coding := rfl
@[simp] theorem State.setRcAt_inbox (s : State) (k : Nat) (r : Rc) : (s.setRcAt k r).inbox = s.inbox := rfl
@[simp] theorem State.setRcAt_inputs (s : State) (k : Nat) (r : Rc) : (s.setRcAt k r).inputs = s.inputs := rfl
@[simp] theorem State.setRcAt_busLog (s : State) (k : Nat) (r : Rc) : (s.setRcAt k r).busLog = s.busLog := rfl

/-! ### setPort -/

@[simp] theorem State.setPort_cur (s : State) (p : Port) : (s.setPort p).cur = s.cur := rfl
@[simp] theorem State.setPort_mem (s : State) (p : Port) : (s.setPort p).mem = s.mem := rfl
@[simp] theorem State.setPort_pointer (s : State) (p : Port) : (s.setPort p).pointer = s.pointer := rfl
@[simp] theorem State.setPort_coding (s : State) (p : Port) : (s.setPort p).coding = s.coding := rfl
@[simp] theorem State.setPort_inbox (s : State) (p : Port) : (s.setPort p).inbox = s.inbox := rfl
@[simp] theorem State.setPort_inputs (s : State) (p : Port) : (s.setPort p).inputs = s.inputs := rfl
@[simp] theorem State.setPort_busLog (s : State) (p : Port) : (s.setPort p).busLog = s.busLog := rfl

/-! ### setCfg -/

@[simp] theorem State.setCfg_cur (s : State) (c : Cfg) : (s.setCfg c).cur = s.cur := rfl
@[simp] theorem State.setCfg_mem (s : State) (c : Cfg) : (s.setCfg c).mem = s.mem := rfl
@[simp] theorem State.setCfg_pointer (s : State) (c : Cfg) : (s.setCfg c).pointer = s.pointer := rfl
@[simp] theorem State.setCfg_coding (s : State) (c : Cfg) : (s.setCfg c).coding = s.coding := rfl
@[simp] theorem State.setCfg_inbox (s : State) (c : Cfg) : (s.setCfg c).inbox = s.inbox := rfl
@[simp] theorem State.setCfg_inputs (s : State) (c : Cfg) : (s.setCfg c).inputs = s.inputs := rfl
@[simp] theorem State.setCfg_busLog (s : State) (c : Cfg) : (s.setCfg c).busLog = s.busLog := rfl

/-! ### setPending -/

@[simp] theorem State.setPending_cur (s : State) (p : Option Pending) : (s.setPending p).cur = s.cur := rfl
@[simp] theorem State.setPending_mem (s : State) (p : Option Pending) : (s.setPending p).mem = s.mem := rfl
@[simp] theorem State.setPending_pointer (s : State) (p : Option Pending) : (s.setPending p).pointer = s.pointer := rfl
@[simp] theorem State.setPending_coding (s : State) (p : Option Pending) : (s.setPending p).coding = s.coding := rfl
@[simp] theorem State.setPending_inbox (s : State) (p : Option Pending) : (s.setPending p).inbox = s.inbox := rfl
@[simp] theorem State.setPending_inputs (s : State) (p : Option Pending) : (s.setPending p).inputs = s.inputs := rfl
@[simp] theorem State.setPending_busLog (s : State) (p : Option Pending) : (s.setPending p).busLog = s.busLog := rfl

/-! ### hold -/

@[simp] theorem State.hold_cur (s : State) (a : Nat) (v : List Byte) : (s.hold a v).cur = s.cur := rfl
@[simp] theorem State.hold_mem (s : State) (a : Nat) (v : List Byte) : (s.hold a v).mem = s.mem := rfl
@[simp] theorem State.hold_pointer (s : State) (a : Nat) (v : List Byte) : (s.hold a v).pointer = s.pointer := rfl
@[simp] theorem State.hold_coding (s : State) (a : Nat) (v : List Byte) : (s.hold a v).coding = s.coding := rfl
@[simp] theorem State.hold_inbox (s : State) (a : Nat) (v : List Byte) : (s.hold a v).inbox = s.inbox := rfl
@[simp] theorem State.hold_inputs (s : State) (a : Nat) (v : List Byte) : (s.hold a v).inputs = s.inputs := rfl
@[simp] theorem State.hold_busLog (s : State) (a : Nat) (v : List Byte) : (s.hold a v).busLog = s.busLog := rfl

/-! ### complete -/

@[simp] theorem State.complete_cur (s : State) (w : List Word) : (s.complete w).cur = s.cur := rfl
@[simp] theorem State.complete_mem (s : State) (w : List Word) : (s.complete w).mem = s.mem := rfl
@[simp] theorem State.complete_pointer (s : State) (w : List Word) : (s.complete w).pointer = s.pointer := rfl
@[simp] theorem State.complete_coding (s : State) (w : List Word) : (s.complete w).coding = s.coding := rfl
@[simp] theorem State.complete_inbox (s : State) (w : List Word) : (s.complete w).inbox = s.inbox := rfl
@[simp] theorem State.complete_inputs (s : State) (w : List Word) : (s.complete w).inputs = s.inputs := rfl
@[simp] theorem State.complete_busLog (s : State) (w : List Word) : (s.complete w).busLog = s.busLog := rfl

/-! ### raise -/

@[simp] theorem State.raise_cur (s : State) (e : ErrorKind) : (s.raise e).cur = s.cur := rfl
@[simp] theorem State.raise_mem (s : State) (e : ErrorKind) : (s.raise e).mem = s.mem := rfl
@[simp] theorem State.raise_pointer (s : State) (e : ErrorKind) : (s.raise e).pointer = s.pointer := rfl
@[simp] theorem State.raise_coding (s : State) (e : ErrorKind) : (s.raise e).coding = s.coding := rfl
@[simp] theorem State.raise_inbox (s : State) (e : ErrorKind) : (s.raise e).inbox = s.inbox := rfl
@[simp] theorem State.raise_inputs (s : State) (e : ErrorKind) : (s.raise e).inputs = s.inputs := rfl
@[simp] theorem State.raise_busLog (s : State) (e : ErrorKind) : (s.raise e).busLog = s.busLog := rfl

/-! ### skipBytes -/

@[simp] theorem State.skipBytes_insts (s : State) (n : Nat) : (s.skipBytes n).insts = s.insts := rfl
@[simp] theorem State.skipBytes_cur (s : State) (n : Nat) : (s.skipBytes n).cur = s.cur := rfl
@[simp] theorem State.skipBytes_mem (s : State) (n : Nat) : (s.skipBytes n).mem = s.mem := rfl
@[simp] theorem State.skipBytes_pointer (s : State) (n : Nat) : (s.skipBytes n).pointer = s.pointer := rfl
@[simp] theorem State.skipBytes_coding (s : State) (n : Nat) : (s.skipBytes n).coding = s.coding := rfl
@[simp] theorem State.skipBytes_inbox (s : State) (n : Nat) : (s.skipBytes n).inbox = s.inbox := rfl
@[simp] theorem State.skipBytes_inputs (s : State) (n : Nat) : (s.skipBytes n).inputs = { s.inputs with bytes := s.inputs.bytes.drop n, nByte := s.inputs.nByte + n } := rfl
@[simp] theorem State.skipBytes_busLog (s : State) (n : Nat) : (s.skipBytes n).busLog = s.busLog := rfl

/-! ### transacted -/

@[simp] theorem State.transacted_insts (s : State) (m : Memory) (op : BusOp) : (s.transacted m op).insts = s.insts := rfl
@[simp] theorem State.transacted_cur (s : State) (m : Memory) (op : BusOp) : (s.transacted m op).cur = s.cur := rfl
@[simp] theorem State.transacted_mem (s : State) (m : Memory) (op : BusOp) : (s.transacted m op).mem = m := rfl
@[simp] theorem State.transacted_pointer (s : State) (m : Memory) (op : BusOp) : (s.transacted m op).pointer = Config.freePointer s.inputs.nPointer := rfl
@[simp] theorem State.transacted_coding (s : State) (m : Memory) (op : BusOp) : (s.transacted m op).coding = s.coding := rfl
@[simp] theorem State.transacted_inbox (s : State) (m : Memory) (op : BusOp) : (s.transacted m op).inbox = s.inbox := rfl
@[simp] theorem State.transacted_inputs (s : State) (m : Memory) (op : BusOp) : (s.transacted m op).inputs = { s.inputs with txns := s.inputs.txns.tail, nTxn := s.inputs.nTxn + 1, nPointer := s.inputs.nPointer + 1 } := rfl
@[simp] theorem State.transacted_busLog (s : State) (m : Memory) (op : BusOp) : (s.transacted m op).busLog = s.busLog ++ [{ rc := s.cur, op := op }] := rfl

/-! ### recordBus -/

@[simp] theorem State.recordBus_insts (s : State) (op : BusOp) : (s.recordBus op).insts = s.insts := rfl
@[simp] theorem State.recordBus_cur (s : State) (op : BusOp) : (s.recordBus op).cur = s.cur := rfl
@[simp] theorem State.recordBus_mem (s : State) (op : BusOp) : (s.recordBus op).mem = s.mem := rfl
@[simp] theorem State.recordBus_pointer (s : State) (op : BusOp) : (s.recordBus op).pointer = s.pointer := rfl
@[simp] theorem State.recordBus_coding (s : State) (op : BusOp) : (s.recordBus op).coding = s.coding := rfl
@[simp] theorem State.recordBus_inbox (s : State) (op : BusOp) : (s.recordBus op).inbox = s.inbox := rfl
@[simp] theorem State.recordBus_inputs (s : State) (op : BusOp) : (s.recordBus op).inputs = s.inputs := rfl
@[simp] theorem State.recordBus_busLog (s : State) (op : BusOp) : (s.recordBus op).busLog = s.busLog ++ [{ rc := s.cur, op := op }] := rfl

/-! ### skipAttach -/

@[simp] theorem State.skipAttach_insts (s : State) : (s.skipAttach).insts = s.insts := rfl
@[simp] theorem State.skipAttach_cur (s : State) : (s.skipAttach).cur = s.cur := rfl
@[simp] theorem State.skipAttach_mem (s : State) : (s.skipAttach).mem = s.mem := rfl
@[simp] theorem State.skipAttach_pointer (s : State) : (s.skipAttach).pointer = s.pointer := rfl
@[simp] theorem State.skipAttach_coding (s : State) : (s.skipAttach).coding = s.coding := rfl
@[simp] theorem State.skipAttach_inbox (s : State) : (s.skipAttach).inbox = s.inbox := rfl
@[simp] theorem State.skipAttach_inputs (s : State) : (s.skipAttach).inputs = { s.inputs with attaches := s.inputs.attaches.tail, nAttach := s.inputs.nAttach + 1 } := rfl
@[simp] theorem State.skipAttach_busLog (s : State) : (s.skipAttach).busLog = s.busLog := rfl

/-! ### skipDetach -/

@[simp] theorem State.skipDetach_insts (s : State) : (s.skipDetach).insts = s.insts := rfl
@[simp] theorem State.skipDetach_cur (s : State) : (s.skipDetach).cur = s.cur := rfl
@[simp] theorem State.skipDetach_mem (s : State) : (s.skipDetach).mem = s.mem := rfl
@[simp] theorem State.skipDetach_pointer (s : State) : (s.skipDetach).pointer = s.pointer := rfl
@[simp] theorem State.skipDetach_coding (s : State) : (s.skipDetach).coding = s.coding := rfl
@[simp] theorem State.skipDetach_inbox (s : State) : (s.skipDetach).inbox = s.inbox := rfl
@[simp] theorem State.skipDetach_inputs (s : State) : (s.skipDetach).inputs = { s.inputs with detaches := s.inputs.detaches.tail, nDetach := s.inputs.nDetach + 1 } := rfl
@[simp] theorem State.skipDetach_busLog (s : State) : (s.skipDetach).busLog = s.busLog := rfl

/-! ### present -/

@[simp] theorem State.present_cur (s : State) (k : Nat) (c : Encoded) : (s.present k c).cur = k := rfl
@[simp] theorem State.present_mem (s : State) (k : Nat) (c : Encoded) : (s.present k c).mem = s.mem := rfl
@[simp] theorem State.present_pointer (s : State) (k : Nat) (c : Encoded) : (s.present k c).pointer = s.pointer := rfl
@[simp] theorem State.present_coding (s : State) (k : Nat) (c : Encoded) : (s.present k c).coding = s.coding := rfl
@[simp] theorem State.present_inbox (s : State) (k : Nat) (c : Encoded) : (s.present k c).inbox = s.inbox := rfl
@[simp] theorem State.present_inputs (s : State) (k : Nat) (c : Encoded) : (s.present k c).inputs = s.inputs := rfl
@[simp] theorem State.present_busLog (s : State) (k : Nat) (c : Encoded) : (s.present k c).busLog = s.busLog := rfl

/-! ### responseRead -/

@[simp] theorem State.responseRead_cur (s : State) (k : Nat) : (s.responseRead k).cur = s.cur := rfl
@[simp] theorem State.responseRead_mem (s : State) (k : Nat) : (s.responseRead k).mem = s.mem := rfl
@[simp] theorem State.responseRead_pointer (s : State) (k : Nat) : (s.responseRead k).pointer = s.pointer := rfl
@[simp] theorem State.responseRead_coding (s : State) (k : Nat) : (s.responseRead k).coding = s.coding := rfl
@[simp] theorem State.responseRead_inbox (s : State) (k : Nat) : (s.responseRead k).inbox = s.inbox := rfl
@[simp] theorem State.responseRead_inputs (s : State) (k : Nat) : (s.responseRead k).inputs = s.inputs := rfl
@[simp] theorem State.responseRead_busLog (s : State) (k : Nat) : (s.responseRead k).busLog = s.busLog := rfl

/-! ### blockReset -/

@[simp] theorem State.blockReset_insts (s : State) : (s.blockReset).insts = [] := rfl
@[simp] theorem State.blockReset_cur (s : State) : (s.blockReset).cur = 0 := rfl
@[simp] theorem State.blockReset_mem (s : State) : (s.blockReset).mem = s.mem := rfl
@[simp] theorem State.blockReset_pointer (s : State) : (s.blockReset).pointer = Config.freePointer s.inputs.nPointer := rfl
@[simp] theorem State.blockReset_coding (s : State) : (s.blockReset).coding = s.coding := rfl
@[simp] theorem State.blockReset_inbox (s : State) : (s.blockReset).inbox = s.inbox := rfl
@[simp] theorem State.blockReset_inputs (s : State) : (s.blockReset).inputs = { s.inputs with nPointer := s.inputs.nPointer + 1 } := rfl
@[simp] theorem State.blockReset_busLog (s : State) : (s.blockReset).busLog = s.busLog := rfl

end Sys2Proof.Machine
end

