-- ==== Sys2Proof/Laws/Insts.lean ====
section
/-! SUPPORT. Laws/Insts.lean: reading an instance, its handle and its port after each update. A table in canonical form
is what read after write needs. -/
namespace Sys2Proof.Machine

/-- The table of instances is in canonical form. -/
def State.tableWf (s : State) : Prop := Sparse.wfFrom Rc.reset 0 s.insts = true

theorem State.setRcAt_tableWf {s : State} (h : s.tableWf) (k : Nat) (r : Rc) : (s.setRcAt k r).tableWf :=
  Sparse.wfFrom_set _ (Nat.zero_le k) h

theorem State.rcAt_setRcAt {s : State} (h : s.tableWf) (k k' : Nat) (r : Rc) :
    (s.setRcAt k r).rcAt k' = if k' = k then r else s.rcAt k' :=
  Sparse.get_set _ h

@[simp] theorem State.setPort_tableWf {s : State} (h : s.tableWf) (p : Port) : (s.setPort p).tableWf :=
  State.setRcAt_tableWf h _ _

theorem State.setCfg_tableWf {s : State} (h : s.tableWf) (c : Cfg) : (s.setCfg c).tableWf :=
  State.setRcAt_tableWf h _ _

theorem State.rcAt_setPort {s : State} (h : s.tableWf) (p : Port) (k : Nat) :
    (s.setPort p).rcAt k = if k = s.cur then { s.rc with port := p } else s.rcAt k :=
  State.rcAt_setRcAt h _ _ _

theorem State.rcAt_setCfg {s : State} (h : s.tableWf) (c : Cfg) (k : Nat) :
    (s.setCfg c).rcAt k = if k = s.cur then { s.rc with cfg := c } else s.rcAt k :=
  State.rcAt_setRcAt h _ _ _

theorem State.port_setPort {s : State} (h : s.tableWf) (p : Port) : (s.setPort p).port = p := by
  simp [State.port, State.rc, State.rcAt_setPort h]

theorem State.cfg_setPort {s : State} (h : s.tableWf) (p : Port) : (s.setPort p).cfg = s.cfg := by
  simp [State.cfg, State.rc, State.rcAt_setPort h]

theorem State.cfg_setCfg {s : State} (h : s.tableWf) (c : Cfg) : (s.setCfg c).cfg = c := by
  simp [State.cfg, State.rc, State.rcAt_setCfg h]

theorem State.port_setCfg {s : State} (h : s.tableWf) (c : Cfg) : (s.setCfg c).port = s.port := by
  simp [State.port, State.rc, State.rcAt_setCfg h]

theorem State.pending_setPort {s : State} (h : s.tableWf) (p : Port) : (s.setPort p).rc.pending = s.rc.pending := by
  simp [State.rc, State.rcAt_setPort h]

theorem State.pending_setCfg {s : State} (h : s.tableWf) (c : Cfg) : (s.setCfg c).rc.pending = s.rc.pending := by
  simp [State.rc, State.rcAt_setCfg h]

/-! ### The write an instance owes (log 18) -/

theorem State.setPending_tableWf {s : State} (h : s.tableWf) (p : Option Pending) : (s.setPending p).tableWf :=
  State.setRcAt_tableWf h _ _

theorem State.rcAt_setPending {s : State} (h : s.tableWf) (p : Option Pending) (k : Nat) :
    (s.setPending p).rcAt k = if k = s.cur then { s.rc with pending := p } else s.rcAt k :=
  State.rcAt_setRcAt h _ _ _

theorem State.port_setPending {s : State} (h : s.tableWf) (p : Option Pending) : (s.setPending p).port = s.port := by
  simp [State.port, State.rc, State.rcAt_setPending h]

theorem State.cfg_setPending {s : State} (h : s.tableWf) (p : Option Pending) : (s.setPending p).cfg = s.cfg := by
  simp [State.cfg, State.rc, State.rcAt_setPending h]

theorem State.pending_setPending {s : State} (h : s.tableWf) (p : Option Pending) : (s.setPending p).rc.pending = p := by
  simp [State.rc, State.rcAt_setPending h]

/-- Clearing what is owed after holding a write gives the state before, where nothing was owed. -/
theorem State.setPending_hold {s : State} (h : s.tableWf) (hp : s.rc.pending = none) (a : Nat) (v : List Byte) :
    (s.hold a v).setPending none = s := by
  have h' : (s.hold a v).tableWf := State.setPending_tableWf h _
  have hi : ((s.hold a v).setPending none).insts = s.insts :=
    Sparse.eq_of_get _ (State.setPending_tableWf h' none) h fun k => by
      change ((s.hold a v).setPending none).rcAt k = s.rcAt k
      rw [State.rcAt_setPending h', State.hold_cur]
      by_cases hk : k = s.cur
      · rw [if_pos hk, hk, State.rc, State.hold_cur, State.hold, State.rcAt_setPending h, if_pos rfl]
        change { s.rc with pending := none } = s.rc
        rw [← hp]
      · rw [if_neg hk, State.hold, State.rcAt_setPending h, if_neg hk]
  calc (s.hold a v).setPending none = { s with insts := ((s.hold a v).setPending none).insts } := rfl
    _ = s := by rw [hi]

/-- The turn of an instance whose command has just come to its final write. -/
theorem State.finish_hold {s : State} (h : s.tableWf) (hp : s.rc.pending = none) (a : Nat) (v : List Byte) :
    (s.hold a v).finish s.cur = s.writeAndEnd a v := by
  have hr : ((s.hold a v).rcAt s.cur).pending = some ⟨a, v⟩ := by rw [State.hold, State.rcAt_setPending h, if_pos rfl]
  unfold State.finish
  rw [hr]
  change ((s.hold a v).setPending none).writeAndEnd a v = _
  rw [State.setPending_hold h hp]

theorem State.finish_idle {s : State} {k : Nat} (h : (s.rcAt k).pending = none) : s.finish k = s := by
  simp [State.finish, h]

theorem State.finish_pending {s : State} {k : Nat} {p : Pending} (h : (s.rcAt k).pending = some p) :
    s.finish k = (State.setPending { s with cur := k } none).writeAndEnd p.addr p.bytes := by
  simp [State.finish, h]

/-! ### An update that leaves the table and the running instance alone leaves every instance alone -/

theorem State.rcAt_congr {s s' : State} (h : s'.insts = s.insts) (k : Nat) : s'.rcAt k = s.rcAt k := by
  simp [State.rcAt, h]

theorem State.rc_congr {s s' : State} (h : s'.insts = s.insts) (hc : s'.cur = s.cur) : s'.rc = s.rc := by
  simp [State.rc, State.rcAt, h, hc]

theorem State.cfg_congr {s s' : State} (h : s'.insts = s.insts) (hc : s'.cur = s.cur) : s'.cfg = s.cfg := by
  simp [State.cfg, State.rc_congr h hc]

theorem State.port_congr {s s' : State} (h : s'.insts = s.insts) (hc : s'.cur = s.cur) : s'.port = s.port := by
  simp [State.port, State.rc_congr h hc]

theorem State.tableWf_congr {s s' : State} (h : s'.insts = s.insts) : s'.tableWf ↔ s.tableWf := by
  simp [State.tableWf, h]

@[simp] theorem State.cfg_skipBytes (s : State) (n : Nat) : (s.skipBytes n).cfg = s.cfg := rfl
@[simp] theorem State.port_skipBytes (s : State) (n : Nat) : (s.skipBytes n).port = s.port := rfl
@[simp] theorem State.rcAt_skipBytes (s : State) (n k : Nat) : (s.skipBytes n).rcAt k = s.rcAt k := rfl
@[simp] theorem State.tableWf_skipBytes (s : State) (n : Nat) : (s.skipBytes n).tableWf ↔ s.tableWf := Iff.rfl
@[simp] theorem State.cfg_transacted (s : State) (m : Memory) (op : BusOp) : (s.transacted m op).cfg = s.cfg := rfl
@[simp] theorem State.port_transacted (s : State) (m : Memory) (op : BusOp) : (s.transacted m op).port = s.port := rfl
@[simp] theorem State.rcAt_transacted (s : State) (m : Memory) (op : BusOp) (k : Nat) :
    (s.transacted m op).rcAt k = s.rcAt k := rfl
@[simp] theorem State.tableWf_transacted (s : State) (m : Memory) (op : BusOp) :
    (s.transacted m op).tableWf ↔ s.tableWf := Iff.rfl
@[simp] theorem State.cfg_recordBus (s : State) (op : BusOp) : (s.recordBus op).cfg = s.cfg := rfl
@[simp] theorem State.port_recordBus (s : State) (op : BusOp) : (s.recordBus op).port = s.port := rfl
@[simp] theorem State.rcAt_recordBus (s : State) (op : BusOp) (k : Nat) : (s.recordBus op).rcAt k = s.rcAt k := rfl
@[simp] theorem State.tableWf_recordBus (s : State) (op : BusOp) : (s.recordBus op).tableWf ↔ s.tableWf := Iff.rfl
@[simp] theorem State.cfg_skipAttach (s : State) : s.skipAttach.cfg = s.cfg := rfl
@[simp] theorem State.port_skipAttach (s : State) : s.skipAttach.port = s.port := rfl
@[simp] theorem State.rcAt_skipAttach (s : State) (k : Nat) : s.skipAttach.rcAt k = s.rcAt k := rfl
@[simp] theorem State.tableWf_skipAttach (s : State) : s.skipAttach.tableWf ↔ s.tableWf := Iff.rfl
@[simp] theorem State.cfg_skipDetach (s : State) : s.skipDetach.cfg = s.cfg := rfl
@[simp] theorem State.port_skipDetach (s : State) : s.skipDetach.port = s.port := rfl
@[simp] theorem State.rcAt_skipDetach (s : State) (k : Nat) : s.skipDetach.rcAt k = s.rcAt k := rfl
@[simp] theorem State.tableWf_skipDetach (s : State) : s.skipDetach.tableWf ↔ s.tableWf := Iff.rfl

/-! ### The end of a command (R27, R289) -/

theorem State.port_complete {s : State} (h : s.tableWf) (w : List Word) : (s.complete w).port = s.port.ended .ok w :=
  State.port_setPort h _

theorem State.port_raise {s : State} (h : s.tableWf) (e : ErrorKind) : (s.raise e).port = s.port.ended e.status [] :=
  State.port_setPort h _

theorem State.cfg_complete {s : State} (h : s.tableWf) (w : List Word) : (s.complete w).cfg = s.cfg :=
  State.cfg_setPort h _

theorem State.cfg_raise {s : State} (h : s.tableWf) (e : ErrorKind) : (s.raise e).cfg = s.cfg :=
  State.cfg_setPort h _

theorem State.rcAt_complete {s : State} (h : s.tableWf) (w : List Word) (k : Nat) :
    (s.complete w).rcAt k = if k = s.cur then { s.rc with port := s.port.ended .ok w } else s.rcAt k :=
  State.rcAt_setPort h _ _

theorem State.rcAt_raise {s : State} (h : s.tableWf) (e : ErrorKind) (k : Nat) :
    (s.raise e).rcAt k = if k = s.cur then { s.rc with port := s.port.ended e.status [] } else s.rcAt k :=
  State.rcAt_setPort h _ _

theorem State.complete_tableWf {s : State} (h : s.tableWf) (w : List Word) : (s.complete w).tableWf :=
  State.setPort_tableWf h _

theorem State.raise_tableWf {s : State} (h : s.tableWf) (e : ErrorKind) : (s.raise e).tableWf :=
  State.setPort_tableWf h _

end Sys2Proof.Machine
end

