-- ==== Sys2Proof/Laws/Bus.lean ====
section
/-! SUPPORT. Laws/Bus.lean: everything the shared operations of a command can do (the handle check, a read, a final
write), once each. -/
namespace Sys2Proof.Machine

variable {s s' : State}

/-- The handle check (R22): a next state comes from the rest of the command, or is the InvalidArgument error. -/
theorem State.withHandle_cases {k : State → Host.Outcome State Fault Refusal} (h : s.withHandle k = .next s') :
    (s.cfg.configured = true ∧ k s = .next s') ∨ (s.cfg.configured = false ∧ s' = s.raise .invalidArgument) := by
  unfold State.withHandle at h
  cases hc : s.cfg.configured with
  | true => simp only [hc, if_true] at h; exact .inl ⟨rfl, h⟩
  | false => simp only [hc] at h; exact .inr ⟨rfl, (Host.Outcome.next.inj h).symm⟩

@[simp] theorem State.withHandle_configured {k : State → Host.Outcome State Fault Refusal}
    (h : s.cfg.configured = true) : s.withHandle k = k s := by
  simp [State.withHandle, h]

@[simp] theorem State.withHandle_unconfigured {k : State → Host.Outcome State Fault Refusal}
    (h : s.cfg.configured = false) : s.withHandle k = .next (s.raise .invalidArgument) := by
  simp [State.withHandle, h]

/-- One read (R72): a next state comes from the rest of the command with the bytes read, or is the BusError error. -/
theorem State.onRead_cases {a n : Nat} {k : (Nat → Byte) → State → Host.Outcome State Fault Refusal}
    (h : s.onRead a n k = .next s') :
    (s.txn.outcome = .ok ∧ k (s.readByte a) (s.afterRead a n) = .next s') ∨
      (s.txn.outcome = .fail ∧ s' = (s.afterFailedRead a n).raise .busError) := by
  unfold State.onRead at h
  cases ho : s.txn.outcome with
  | ok => simp only [ho] at h; exact .inl ⟨rfl, h⟩
  | fail => simp only [ho] at h; exact .inr ⟨rfl, (Host.Outcome.next.inj h).symm⟩

@[simp] theorem State.onRead_ok {a n : Nat} {k : (Nat → Byte) → State → Host.Outcome State Fault Refusal}
    (h : s.txn.outcome = .ok) : s.onRead a n k = k (s.readByte a) (s.afterRead a n) := by
  simp [State.onRead, h]

@[simp] theorem State.onRead_fail {a n : Nat} {k : (Nat → Byte) → State → Host.Outcome State Fault Refusal}
    (h : s.txn.outcome = .fail) : s.onRead a n k = .next ((s.afterFailedRead a n).raise .busError) := by
  simp [State.onRead, h]

/-- One final write (R72): OK with the bytes written, or BusError with free bytes where they were addressed. -/
theorem State.writeAndEnd_cases (s : State) (a : Nat) (v : List Byte) :
    (s.txn.outcome = .ok ∧ s.writeAndEnd a v = (s.afterWrite a v).complete []) ∨
      (s.txn.outcome = .fail ∧ s.writeAndEnd a v = (s.afterFailedWrite a v).raise .busError) := by
  unfold State.writeAndEnd
  cases ho : s.txn.outcome with
  | ok => exact .inl ⟨rfl, rfl⟩
  | fail => exact .inr ⟨rfl, rfl⟩

@[simp] theorem State.writeAndEnd_ok {a : Nat} {v : List Byte} (h : s.txn.outcome = .ok) :
    s.writeAndEnd a v = (s.afterWrite a v).complete [] := by
  simp [State.writeAndEnd, h]

@[simp] theorem State.writeAndEnd_fail {a : Nat} {v : List Byte} (h : s.txn.outcome = .fail) :
    s.writeAndEnd a v = (s.afterFailedWrite a v).raise .busError := by
  simp [State.writeAndEnd, h]

/-! ### What a transaction leaves, field by field -/

@[simp] theorem State.afterRead_mem (a n : Nat) : (s.afterRead a n).mem = s.imageNow := rfl
@[simp] theorem State.afterFailedRead_mem (a n : Nat) : (s.afterFailedRead a n).mem = s.imageNow := rfl
@[simp] theorem State.afterWrite_mem (a : Nat) (v : List Byte) : (s.afterWrite a v).mem = s.imageNow.setList a v := rfl
@[simp] theorem State.afterFailedWrite_mem (a : Nat) (v : List Byte) :
    (s.afterFailedWrite a v).mem = s.imageNow.setList a ((List.range v.length).map s.noise) := rfl

@[simp] theorem State.afterRead_insts (a n : Nat) : (s.afterRead a n).insts = s.insts := rfl
@[simp] theorem State.afterRead_cur (a n : Nat) : (s.afterRead a n).cur = s.cur := rfl
@[simp] theorem State.afterRead_coding (a n : Nat) : (s.afterRead a n).coding = s.coding := rfl
@[simp] theorem State.afterRead_inbox (a n : Nat) : (s.afterRead a n).inbox = s.inbox := rfl
@[simp] theorem State.afterFailedRead_insts (a n : Nat) : (s.afterFailedRead a n).insts = s.insts := rfl
@[simp] theorem State.afterFailedRead_cur (a n : Nat) : (s.afterFailedRead a n).cur = s.cur := rfl
@[simp] theorem State.afterFailedRead_coding (a n : Nat) : (s.afterFailedRead a n).coding = s.coding := rfl
@[simp] theorem State.afterFailedRead_inbox (a n : Nat) : (s.afterFailedRead a n).inbox = s.inbox := rfl
@[simp] theorem State.afterWrite_insts (a : Nat) (v : List Byte) : (s.afterWrite a v).insts = s.insts := rfl
@[simp] theorem State.afterWrite_cur (a : Nat) (v : List Byte) : (s.afterWrite a v).cur = s.cur := rfl
@[simp] theorem State.afterWrite_coding (a : Nat) (v : List Byte) : (s.afterWrite a v).coding = s.coding := rfl
@[simp] theorem State.afterWrite_inbox (a : Nat) (v : List Byte) : (s.afterWrite a v).inbox = s.inbox := rfl
@[simp] theorem State.afterFailedWrite_insts (a : Nat) (v : List Byte) : (s.afterFailedWrite a v).insts = s.insts := rfl
@[simp] theorem State.afterFailedWrite_cur (a : Nat) (v : List Byte) : (s.afterFailedWrite a v).cur = s.cur := rfl
@[simp] theorem State.afterFailedWrite_coding (a : Nat) (v : List Byte) :
    (s.afterFailedWrite a v).coding = s.coding := rfl
@[simp] theorem State.afterFailedWrite_inbox (a : Nat) (v : List Byte) : (s.afterFailedWrite a v).inbox = s.inbox := rfl

/-- The image that a transaction meets is in canonical form. -/
theorem State.imageNow_wf (h : s.mem.wf = true) : s.imageNow.wf = true := Memory.wf_afterEnv h _

theorem State.afterRead_wf (h : s.mem.wf = true) (a n : Nat) : (s.afterRead a n).mem.wf = true :=
  State.imageNow_wf h

theorem State.afterFailedRead_wf (h : s.mem.wf = true) (a n : Nat) : (s.afterFailedRead a n).mem.wf = true :=
  State.imageNow_wf h

theorem State.afterWrite_wf (h : s.mem.wf = true) (a : Nat) (v : List Byte) : (s.afterWrite a v).mem.wf = true :=
  Memory.wf_setList (State.imageNow_wf h) a v

theorem State.afterFailedWrite_wf (h : s.mem.wf = true) (a : Nat) (v : List Byte) :
    (s.afterFailedWrite a v).mem.wf = true :=
  Memory.wf_setList (State.imageNow_wf h) a _

/-- A read never shows a stored bit in a reserved place, and every other bit as stored (R38, R39). -/
theorem readBack_and_mask (a : Nat) (stored free : Byte) (m : Byte) (h : m &&& reservedMask a = 0) :
    readBack a stored free &&& m = stored &&& m := by
  have h' : ∀ i, i < 8 → (m.getLsbD i && (reservedMask a).getLsbD i) = false := by
    intro i hi
    have := congrArg (fun x : Byte => x.getLsbD i) h
    simpa using this
  refine BitVec.eq_of_getLsbD_eq fun i hi => ?_
  have hb := h' i hi
  simp only [readBack, BitVec.getLsbD_and, BitVec.getLsbD_or, BitVec.getLsbD_not, hi, decide_true, Bool.true_and]
  generalize stored.getLsbD i = x at *
  generalize free.getLsbD i = y at *
  generalize m.getLsbD i = z at *
  generalize (reservedMask a).getLsbD i = w at *
  revert hb
  cases x <;> cases y <;> cases z <;> cases w <;> simp

/-- A bit that is not reserved reads as stored (R39). -/
theorem State.readByte_bit (s : State) (a i j : Nat) (hj : j < 8) (h : (reservedMask (a + i)).getLsbD j = false) :
    (s.readByte a i).getLsbD j = (s.imageNow.get (a + i)).getLsbD j := by
  simp only [State.readByte, readBack, BitVec.getLsbD_or, BitVec.getLsbD_and, BitVec.getLsbD_not, h]
  simp [hj]

/-- A register without reserved bits reads as stored (R39). -/
theorem State.readByte_full (s : State) (a i : Nat) (h : reservedMask (a + i) = 0) :
    s.readByte a i = s.imageNow.get (a + i) :=
  BitVec.eq_of_getLsbD_eq fun j hj => s.readByte_bit a i j hj (by rw [h]; simp)

/-- The low `k` bits of a register read as stored where none of them is reserved (R39). -/
theorem State.readByte_mod (s : State) (a i k : Nat) (hk : k ≤ 8)
    (h : ∀ j, j < k → (reservedMask (a + i)).getLsbD j = false) :
    (s.readByte a i).toNat % 2 ^ k = (s.imageNow.get (a + i)).toNat % 2 ^ k := by
  refine Nat.eq_of_testBit_eq fun j => ?_
  simp only [Nat.testBit_mod_two_pow]
  by_cases hj : j < k
  · simp only [hj, decide_true, Bool.true_and]
    exact s.readByte_bit a i j (by omega) (h j hj)
  · simp [hj]

end Sys2Proof.Machine
end

