-- ==== Sys2Proof/Laws/Codec.lean ====
section
/-! SUPPORT. Laws/Codec.lean: the codec and the bit fields in plain arithmetic, one lemma per function. -/
namespace Sys2Proof.Machine

theorem byte_shr (b : Byte) (k : Nat) : (b >>> k).toNat = b.toNat / 2 ^ k := by
  simp [BitVec.toNat_ushiftRight, Nat.shiftRight_eq_div_pow]

theorem byte_and_0x0F (b : Byte) : (b &&& 0x0F).toNat = b.toNat % 16 := by
  rw [BitVec.toNat_and]; exact Nat.and_two_pow_sub_one_eq_mod b.toNat 4

theorem byte_and_0x7F (b : Byte) : (b &&& 0x7F).toNat = b.toNat % 128 := by
  rw [BitVec.toNat_and]; exact Nat.and_two_pow_sub_one_eq_mod b.toNat 7

theorem byte_and_0x3F (b : Byte) : (b &&& 0x3F).toNat = b.toNat % 64 := by
  rw [BitVec.toNat_and]; exact Nat.and_two_pow_sub_one_eq_mod b.toNat 6

theorem byte_and_0x1F (b : Byte) : (b &&& 0x1F).toNat = b.toNat % 32 := by
  rw [BitVec.toNat_and]; exact Nat.and_two_pow_sub_one_eq_mod b.toNat 5

theorem byte_and_0x07 (b : Byte) : (b &&& 0x07).toNat = b.toNat % 8 := by
  rw [BitVec.toNat_and]; exact Nat.and_two_pow_sub_one_eq_mod b.toNat 3

theorem byte_bit (b : Byte) (k : Nat) : b.getLsbD k = decide (b.toNat / 2 ^ k % 2 = 1) := by
  simp [BitVec.getLsbD, Nat.testBit_eq_decide_div_mod_eq]

/-- The BCD decoder on numbers (R143). -/
theorem fromBCD_eq (b : Byte) : fromBCD b = unbcd b.toNat := by
  simp only [fromBCD, byte_shr, byte_and_0x0F, unbcd]
  norm_num

theorem bcd_lt (n : Nat) (h : n ≤ 99) : bcd n < 256 := by unfold bcd; omega

theorem unbcd_bcd (n : Nat) (_h : n ≤ 99) : unbcd (bcd n) = n := by unfold bcd unbcd; omega

theorem bcd_unbcd (b : Nat) (_h : b / 16 ≤ 9) (h' : b % 16 ≤ 9) : bcd (unbcd b) = b := by unfold bcd unbcd; omega

/-- Two digits ORed are two digits added, the tens being clear of the units (R141). -/
theorem tens_or_units (t u : Nat) (ht : t ≤ 9) (hu : u ≤ 9) :
    ((BitVec.ofNat 8 t <<< 4) ||| BitVec.ofNat 8 u).toNat = t * 16 + u := by
  have h : (BitVec.ofNat 8 t <<< 4).toNat = t <<< 4 := by
    simp only [BitVec.toNat_shiftLeft, BitVec.toNat_ofNat, Nat.shiftLeft_eq]
    omega
  rw [BitVec.toNat_or, h, BitVec.toNat_ofNat, Nat.mod_eq_of_lt (by omega : u < 2 ^ 8)]
  rw [← Nat.shiftLeft_add_eq_or_of_lt (by omega : u < 2 ^ 4), Nat.shiftLeft_eq]

/-- The BCD encoder on 0..99 (R141). -/
theorem toBCD_toNat (n : Nat) (h : n ≤ 99) (free : Byte) : (toBCD n free).toNat = bcd n := by
  have hc : (0 : Int) ≤ (n : Int) ∧ (n : Int) ≤ 99 := by omega
  simp only [toBCD, hc, and_self, if_true, Int.toNat_natCast]
  exact tens_or_units _ _ (by omega) (by omega)

theorem toBCD_toNat_int (n : Int) (h0 : 0 ≤ n) (h1 : n ≤ 99) (free : Byte) : (toBCD n free).toNat = bcd n.toNat := by
  obtain ⟨m, rfl⟩ := Int.eq_ofNat_of_zero_le h0
  exact toBCD_toNat m (by omega) free

/-- Outside 0..99 the BCD encoder gives the free byte (R141). -/
theorem toBCD_free (n : Int) (h : ¬(0 ≤ n ∧ n ≤ 99)) (free : Byte) : toBCD n free = free := by
  simp only [toBCD, h, if_false]

/-- The 12-hour decoder on numbers (R145). -/
theorem decode12Hour_eq (b : Byte) : decode12Hour b = hour12Of b.toNat := by
  simp only [decode12Hour, fromBCD_eq, byte_and_0x1F, byte_bit, hour12Of, decide_eq_true_eq]
  norm_num
  split <;> simp

/-- The hour of an hours byte by its mode bit (R171). -/
theorem hourOf_eq (b : Byte) : hourOf b = shownHour b.toNat := by
  simp only [hourOf, decode12Hour_eq, fromBCD_eq, byte_and_0x3F, byte_bit, shownHour, decide_eq_true_eq]
  norm_num

/-- The 12-hour encoder on the hours whose digits fit in 0..99 (R147). -/
theorem encode12Hour_toNat (h : Nat) (hh : h ≤ 111) (free : Byte) : (encode12Hour h free).toNat = hour12Or h := by
  by_cases hp : 12 ≤ h
  · have h1 : (12 : Int) ≤ (h : Int) := by omega
    by_cases hz : h = 12
    · subst hz
      rfl
    · have h2 : ((h : Int) - 12) = ((h - 12 : Nat) : Int) := by omega
      have h3 : ¬((h - 12 : Nat) : Int) = 0 := by omega
      have h4 : ¬(h - 12 = 0) := by omega
      simp only [encode12Hour, h1, decide_true, if_true, h2, h3, if_false, BitVec.toNat_or,
        toBCD_toNat (h - 12) (by omega), hour12Or, hp, h4]
      rfl
  · have h1 : ¬(12 : Int) ≤ (h : Int) := by omega
    by_cases hz : h = 0
    · subst hz
      rfl
    · have h3 : ¬((h : Int) = 0) := by omega
      simp only [encode12Hour, h1, decide_false, Bool.false_eq_true, h3, if_false, BitVec.toNat_or,
        toBCD_toNat h (by omega), hour12Or, hp, hz, Nat.or_zero]
      rfl

/-- On 0..23 the digits, the PM flag and the mode bit do not overlap (R147). -/
theorem hour12Or_eq (h : Nat) (hh : h ≤ 23) : hour12Or h = hour12Byte h := by
  revert hh; revert h; decide

end Sys2Proof.Machine
end

