-- ==== Sys2Proof/Laws/Operands.lean ====
section
/-! SUPPORT. Laws/Operands.lean: INT32 words, zero-extended words, the century normalisation. -/
namespace Sys2Proof.Machine

/-- An integer that fits INT32 is what its word reads as (R94). -/
theorem int32Word_toInt (n : Int) (h : -2 ^ 31 ≤ n) (h' : n ≤ 2 ^ 31 - 1) : (int32Word n).toInt = n := by
  rw [int32Word, BitVec.toInt_ofInt, Int.bmod_eq_of_le] <;> norm_num at * <;> omega

/-- The word of a byte whose number is known (R94). -/
theorem zext32_of_toNat (b : Byte) (n : Nat) (h : b.toNat = n) : zext32 b = BitVec.ofNat 32 n := by
  subst h
  apply BitVec.eq_of_toNat_eq
  simp [zext32]

/-- The century normalisation where the base fits (R121). -/
theorem yearBase_some (c : Int) (h : -2 ^ 31 ≤ ((if c = 0 then 21 else if c < 0 then c + 1 else c) - 20) * 100)
    (h' : ((if c = 0 then 21 else if c < 0 then c + 1 else c) - 20) * 100 ≤ 2 ^ 31 - 1) :
    yearBase c = some (int32Word (((if c = 0 then 21 else if c < 0 then c + 1 else c) - 20) * 100)) := by
  unfold yearBase fitsInt32
  exact if_pos (decide_eq_true ⟨h, h'⟩)

/-- The century normalisation where the base does not fit (R121). -/
theorem yearBase_none (c : Int) (h : ((if c = 0 then 21 else if c < 0 then c + 1 else c) - 20) * 100 < -2 ^ 31 ∨
    2 ^ 31 - 1 < ((if c = 0 then 21 else if c < 0 then c + 1 else c) - 20) * 100) : yearBase c = none := by
  unfold yearBase fitsInt32
  exact if_neg (by rw [decide_eq_true_eq]; omega)

/-- A base that fits is what the literal arithmetic gives (R121). -/
theorem yearBase_toInt {c : Int} {yb : Word} (h : yearBase c = some yb) :
    yb.toInt = ((if c = 0 then 21 else if c < 0 then c + 1 else c) - 20) * 100 := by
  by_cases hf : -2 ^ 31 ≤ ((if c = 0 then 21 else if c < 0 then c + 1 else c) - 20) * 100 ∧
      ((if c = 0 then 21 else if c < 0 then c + 1 else c) - 20) * 100 ≤ 2 ^ 31 - 1
  · rw [yearBase_some c hf.1 hf.2] at h
    cases h
    exact int32Word_toInt _ hf.1 hf.2
  · rw [yearBase_none c (by omega)] at h
    cases h

end Sys2Proof.Machine
end

