-- ==== Sys2Proof/Laws/Commands.lean ====
section
/-! SUPPORT. Laws/Commands.lean: how a command ends, in the words of Safety: one lemma per shared operation for the
response, the frame and the transaction record. -/
namespace Sys2Proof.Machine

variable {s t u : State}

theorem State.Inv.tableWf (h : s.Inv) : s.tableWf := h.table

/-- Updates that leave every instance and the host's side alone: what lies between two states of one command. -/
structure State.Quiet (s t : State) : Prop where
  insts  : t.insts = s.insts
  cur    : t.cur = s.cur
  coding : t.coding = s.coding
  inbox  : t.inbox = s.inbox

theorem State.Quiet.refl (s : State) : s.Quiet s := ⟨rfl, rfl, rfl, rfl⟩

theorem State.Quiet.trans (h : s.Quiet t) (h' : t.Quiet u) : s.Quiet u :=
  ⟨h'.insts.trans h.insts, h'.cur.trans h.cur, h'.coding.trans h.coding, h'.inbox.trans h.inbox⟩

theorem State.quiet_skipBytes (s : State) (n : Nat) : s.Quiet (s.skipBytes n) := ⟨rfl, rfl, rfl, rfl⟩
theorem State.quiet_transacted (s : State) (m : Memory) (op : BusOp) : s.Quiet (s.transacted m op) := ⟨rfl, rfl, rfl, rfl⟩
theorem State.quiet_afterRead (s : State) (a n : Nat) : s.Quiet (s.afterRead a n) := ⟨rfl, rfl, rfl, rfl⟩
theorem State.quiet_afterFailedRead (s : State) (a n : Nat) : s.Quiet (s.afterFailedRead a n) := ⟨rfl, rfl, rfl, rfl⟩
theorem State.quiet_afterWrite (s : State) (a : Nat) (v : List Byte) : s.Quiet (s.afterWrite a v) := ⟨rfl, rfl, rfl, rfl⟩
theorem State.quiet_afterFailedWrite (s : State) (a : Nat) (v : List Byte) : s.Quiet (s.afterFailedWrite a v) :=
  ⟨rfl, rfl, rfl, rfl⟩
theorem State.quiet_recordBus (s : State) (op : BusOp) : s.Quiet (s.recordBus op) := ⟨rfl, rfl, rfl, rfl⟩
theorem State.quiet_skipAttach (s : State) : s.Quiet s.skipAttach := ⟨rfl, rfl, rfl, rfl⟩
theorem State.quiet_skipDetach (s : State) : s.Quiet s.skipDetach := ⟨rfl, rfl, rfl, rfl⟩

theorem State.Quiet.tableWf (h : s.Quiet t) (hs : s.tableWf) : t.tableWf := (State.tableWf_congr h.insts).2 hs
theorem State.Quiet.rcAt (h : s.Quiet t) (k : Nat) : t.rcAt k = s.rcAt k := State.rcAt_congr h.insts k
theorem State.Quiet.port (h : s.Quiet t) : t.port = s.port := State.port_congr h.insts h.cur
theorem State.Quiet.cfg (h : s.Quiet t) : t.cfg = s.cfg := State.cfg_congr h.insts h.cur

/-- A new port with the same command on it changes nothing of the host's side or of a handle. -/
theorem State.hostFrame_setPort (h : s.Quiet t) (hs : s.tableWf) {p : Port} (hc : p.hasCommand = t.port.hasCommand)
    (ho : p.op = t.port.op) (hw : p.operands = t.port.operands) : s.HostFrame (t.setPort p) where
  others k hk := by rw [State.rcAt_setPort (h.tableWf hs), if_neg (by rw [h.cur]; exact hk), h.rcAt]
  cur := h.cur
  coding := h.coding
  inbox := h.inbox
  hasCommand := by rw [State.port_setPort (h.tableWf hs), hc, h.port]
  op := by rw [State.port_setPort (h.tableWf hs), ho, h.port]
  operands := by rw [State.port_setPort (h.tableWf hs), hw, h.port]
  pending := by rw [State.pending_setPort (h.tableWf hs), State.rc_congr h.insts h.cur]

theorem State.handlesFrame_setPort (h : s.Quiet t) (hs : s.tableWf) (p : Port) : s.HandlesFrame (t.setPort p) := by
  intro k
  rw [State.rcAt_setPort (h.tableWf hs)]
  split
  · next hk => rw [hk, State.rc, h.rcAt]
  · rw [h.rcAt]

/-- A new handle changes nothing of the host's side. -/
theorem State.hostFrame_setCfg (h : s.Quiet t) (hs : s.tableWf) (c : Cfg) : s.HostFrame (t.setCfg c) where
  others k hk := by rw [State.rcAt_setCfg (h.tableWf hs), if_neg (by rw [h.cur]; exact hk), h.rcAt]
  cur := h.cur
  coding := h.coding
  inbox := h.inbox
  hasCommand := by rw [State.port_setCfg (h.tableWf hs), h.port]
  op := by rw [State.port_setCfg (h.tableWf hs), h.port]
  operands := by rw [State.port_setCfg (h.tableWf hs), h.port]
  pending := by rw [State.pending_setCfg (h.tableWf hs), State.rc_congr h.insts h.cur]

theorem State.HostFrame.trans (h : s.HostFrame t) (h' : t.HostFrame u) : s.HostFrame u where
  others k hk := by rw [h'.others k (by rw [h.cur]; exact hk), h.others k hk]
  cur := h'.cur.trans h.cur
  coding := h'.coding.trans h.coding
  inbox := h'.inbox.trans h.inbox
  hasCommand := h'.hasCommand.trans h.hasCommand
  op := h'.op.trans h.op
  operands := h'.operands.trans h.operands
  pending := h'.pending.trans h.pending

/-- The end of a command with OK (R27). -/
theorem State.complete_reports (hs : t.tableWf) (w : List Word) : (t.complete w).Reports .ok w := by
  rw [State.Reports, State.port_complete hs]; exact ⟨rfl, rfl, rfl⟩

/-- The end of a command in an error (R289). -/
theorem State.raise_reports (hs : t.tableWf) (e : ErrorKind) : (t.raise e).Reports e.status [] := by
  rw [State.Reports, State.port_raise hs]; exact ⟨rfl, rfl, rfl⟩

theorem State.complete_hostFrame (h : s.Quiet t) (hs : s.tableWf) (w : List Word) : s.HostFrame (t.complete w) :=
  State.hostFrame_setPort h hs rfl rfl rfl

theorem State.raise_hostFrame (h : s.Quiet t) (hs : s.tableWf) (e : ErrorKind) : s.HostFrame (t.raise e) :=
  State.hostFrame_setPort h hs rfl rfl rfl

theorem State.complete_handlesFrame (h : s.Quiet t) (hs : s.tableWf) (w : List Word) : s.HandlesFrame (t.complete w) :=
  State.handlesFrame_setPort h hs _

theorem State.raise_handlesFrame (h : s.Quiet t) (hs : s.tableWf) (e : ErrorKind) : s.HandlesFrame (t.raise e) :=
  State.handlesFrame_setPort h hs _

/-- With no handle, or an argument out of bounds, the command ends InvalidArgument and touches nothing (R282). -/
theorem State.endsInvalid_raise (hs : s.tableWf) : s.EndsInvalid (s.raise .invalidArgument) :=
  ⟨State.raise_reports hs _, State.raise_hostFrame (State.Quiet.refl s) hs _,
   State.raise_handlesFrame (State.Quiet.refl s) hs _, fun _ => rfl, rfl, rfl⟩

/-- A failed read (R72). -/
theorem State.endsReadFailed_raise (hs : s.tableWf) (a n : Nat) :
    s.EndsReadFailed ((s.afterFailedRead a n).raise .busError) a n :=
  ⟨State.raise_reports (State.Quiet.tableWf (State.quiet_afterFailedRead s a n) hs) _,
   State.raise_hostFrame (State.quiet_afterFailedRead s a n) hs _,
   State.raise_handlesFrame (State.quiet_afterFailedRead s a n) hs _, fun _ => rfl, rfl⟩

/-- A read and then OK (R69). -/
theorem State.endsRead_complete (hs : s.tableWf) (a n : Nat) (w : List Word) :
    s.EndsRead ((s.afterRead a n).complete w) w :=
  ⟨State.complete_reports (State.Quiet.tableWf (State.quiet_afterRead s a n) hs) _,
   State.complete_hostFrame (State.quiet_afterRead s a n) hs _,
   State.complete_handlesFrame (State.quiet_afterRead s a n) hs _, fun _ => rfl⟩

/-! ### The transaction record (R298) -/

@[simp] theorem State.shapes_complete (s : State) (w : List Word) : (s.complete w).shapes = s.shapes := rfl
@[simp] theorem State.shapes_raise (s : State) (e : ErrorKind) : (s.raise e).shapes = s.shapes := rfl
@[simp] theorem State.shapes_skipBytes (s : State) (n : Nat) : (s.skipBytes n).shapes = s.shapes := rfl
@[simp] theorem State.shapes_setCfg (s : State) (c : Cfg) : (s.setCfg c).shapes = s.shapes := rfl
@[simp] theorem State.shapes_skipAttach (s : State) : s.skipAttach.shapes = s.shapes := rfl
@[simp] theorem State.shapes_skipDetach (s : State) : s.skipDetach.shapes = s.shapes := rfl

@[simp] theorem State.shapes_afterRead (s : State) (a n : Nat) : (s.afterRead a n).shapes = s.shapes ++ [.read a n] := by
  simp [State.shapes, State.afterRead, BusRecord.shape]

@[simp] theorem State.shapes_afterFailedRead (s : State) (a n : Nat) :
    (s.afterFailedRead a n).shapes = s.shapes ++ [.read a n] := by
  simp [State.shapes, State.afterFailedRead, BusRecord.shape]

@[simp] theorem State.shapes_afterWrite (s : State) (a : Nat) (v : List Byte) :
    (s.afterWrite a v).shapes = s.shapes ++ [.write a v.length] := by
  simp [State.shapes, State.afterWrite, BusRecord.shape]

@[simp] theorem State.shapes_afterFailedWrite (s : State) (a : Nat) (v : List Byte) :
    (s.afterFailedWrite a v).shapes = s.shapes ++ [.write a v.length] := by
  simp [State.shapes, State.afterFailedWrite, BusRecord.shape]

@[simp] theorem State.shapes_attach (s : State) (d : BitVec 7) (v : Word) (c : Option Nat) :
    (s.recordBus (.attach d v c)).shapes = s.shapes := by
  simp [State.shapes, BusRecord.shape]

@[simp] theorem State.shapes_detach (s : State) (c : Option Nat) (o : BusOutcome) :
    (s.recordBus (.detach c o)).shapes = s.shapes := by
  simp [State.shapes, BusRecord.shape]

@[simp] theorem State.shapes_writeAndEnd (s : State) (a : Nat) (v : List Byte) :
    (s.writeAndEnd a v).shapes = s.shapes ++ [.write a v.length] := by
  rcases State.writeAndEnd_cases s a v with ⟨-, h⟩ | ⟨-, h⟩ <;> simp [h]

/-! ### The second transaction of a command meets the second image, whatever the first one moved -/

@[simp] theorem State.txn_afterRead (s : State) (a n : Nat) : (s.afterRead a n).txn = s.secondTxn := rfl
@[simp] theorem State.imageNow_afterRead (s : State) (a n : Nat) : (s.afterRead a n).imageNow = s.secondImage := rfl
@[simp] theorem State.noise_afterRead (s : State) (a n : Nat) : (s.afterRead a n).noise = s.secondNoise := rfl
@[simp] theorem State.noise_skipBytes (s : State) (n : Nat) : (s.skipBytes n).noise = s.noise := rfl
@[simp] theorem State.freeByte_afterRead (s : State) (a n : Nat) : (s.afterRead a n).freeByte = s.freeByte := rfl
@[simp] theorem State.txn_skipBytes (s : State) (n : Nat) : (s.skipBytes n).txn = s.txn := rfl
@[simp] theorem State.imageNow_skipBytes (s : State) (n : Nat) : (s.skipBytes n).imageNow = s.imageNow := rfl

theorem State.secondImage_wf (h : s.mem.wf = true) : s.secondImage.wf = true :=
  State.imageNow_wf (State.afterRead_wf h 0 0)

/-- The final write of a command, field by field: where it writes and what it leaves alone (R72). -/
theorem State.writeAndEnd_spec (h : t.tableWf) (hm : t.imageNow.wf = true) {a : Nat} {v : List Byte}
    (ha : a + v.length ≤ 64) :
    (t.txn.outcome = .ok → (t.writeAndEnd a v).Reports .ok [] ∧
      ∀ x, a ≤ x → x < a + v.length → (t.writeAndEnd a v).mem.get x = v.getD (x - a) 0) ∧
    (t.txn.outcome = .fail → (t.writeAndEnd a v).Reports .busError [] ∧
      ∀ x, a ≤ x → x < a + v.length → (t.writeAndEnd a v).mem.get x = t.noise (x - a)) ∧
    (∀ x, (x < a ∨ a + v.length ≤ x) → (t.writeAndEnd a v).mem.get x = t.imageNow.get x) := by
  refine ⟨fun ho => ?_, fun ho => ?_, fun x hx => ?_⟩
  · rw [State.writeAndEnd_ok ho]
    refine ⟨State.complete_reports (State.Quiet.tableWf (State.quiet_afterWrite t a v) h) _, fun x h1 h2 => ?_⟩
    change (t.imageNow.setList a v).get x = _
    rw [Memory.get_setList hm ha, if_pos ⟨h1, h2⟩]
  · rw [State.writeAndEnd_fail ho]
    refine ⟨State.raise_reports (State.Quiet.tableWf (State.quiet_afterFailedWrite t a v) h) _, fun x h1 h2 => ?_⟩
    change (t.imageNow.setList a ((List.range v.length).map t.noise)).get x = _
    rw [Memory.get_setList hm (by simpa [imageSize] using ha), if_pos ⟨h1, by simpa using h2⟩]
    simp [show x - a < v.length by omega]
  · rcases State.writeAndEnd_cases t a v with ⟨-, he⟩ | ⟨-, he⟩ <;> rw [he]
    · exact Memory.get_setList_outside hm ha hx
    · exact Memory.get_setList_outside hm (by simpa [imageSize] using ha) (by simpa using hx)

theorem State.writeAndEnd_hostFrame (h : s.Quiet t) (hs : s.tableWf) (a : Nat) (v : List Byte) :
    s.HostFrame (t.writeAndEnd a v) := by
  rcases State.writeAndEnd_cases t a v with ⟨-, he⟩ | ⟨-, he⟩ <;> rw [he]
  · exact State.complete_hostFrame (h.trans (State.quiet_afterWrite t a v)) hs _
  · exact State.raise_hostFrame (h.trans (State.quiet_afterFailedWrite t a v)) hs _

theorem State.writeAndEnd_handlesFrame (h : s.Quiet t) (hs : s.tableWf) (a : Nat) (v : List Byte) :
    s.HandlesFrame (t.writeAndEnd a v) := by
  rcases State.writeAndEnd_cases t a v with ⟨-, he⟩ | ⟨-, he⟩ <;> rw [he]
  · exact State.complete_handlesFrame (h.trans (State.quiet_afterWrite t a v)) hs _
  · exact State.raise_handlesFrame (h.trans (State.quiet_afterFailedWrite t a v)) hs _

end Sys2Proof.Machine
end

