-- ==== Sys2Proof/Laws/Exec.lean ====
section
/-! SUPPORT. Laws/Exec.lean: what a command can do, said once: every next state of it, run to its end or as far as
its final write, is one of nine shapes. -/
namespace Sys2Proof.Machine

/-- The ways a command comes to a next state, its final write done by `w` (at once, or held for a later turn). -/
inductive Ends (w : State → Nat → List Byte → State) (i : Instr) (s : State) : State → Prop where
  /-- No handle (R22). -/
  | noHandle (hn : needsHandle i = true) (hc : s.cfg.configured = false) : Ends w i s (s.raise .invalidArgument)
  /-- The RAM bound check failed (R261). -/
  | outOfRange (hc : s.cfg.configured = true)
      (hr : (∃ o l, i = .getram o l ∧ 56 < o.toNat + l.toNat) ∨ (∃ o bs, i = .setram o bs ∧ 56 < o.toNat + bs.length)) :
      Ends w i s (s.raise .invalidArgument)
  /-- The first transaction, a read, failed (R72). -/
  | readFailed (a n : Nat) (rest : List TxnShape) (hc : s.cfg.configured = true) (hl : isLifecycle i = false)
      (ht : txnTable i = .read a n :: rest) (ha : a + n ≤ 64) (ho : s.txn.outcome = .fail) :
      Ends w i s ((s.afterFailedRead a n).raise .busError)
  /-- A read, and the results of it; for a setter, the skip (R213). -/
  | readThenDone (a n : Nat) (rest : List TxnShape) (ws : List Word) (hc : s.cfg.configured = true)
      (hl : isLifecycle i = false) (ht : txnTable i = .read a n :: rest) (ha : a + n ≤ 64) (ho : s.txn.outcome = .ok)
      (hw : ws.length = resultCount i) (hk : rest = [] ∨ maySkip i = true) :
      Ends w i s ((s.afterRead a n).complete ws)
  /-- A read and then the write. -/
  | readThenWrite (a n k : Nat) (v : List Byte) (hc : s.cfg.configured = true) (hl : isLifecycle i = false)
      (ht : txnTable i = [.read a n, .write (storedBytes i).1 v.length]) (ha : a + n ≤ 64)
      (hb : (storedBytes i).2 = v.length) (hv : (storedBytes i).1 + v.length ≤ 8) (ho : s.txn.outcome = .ok)
      (hw : resultCount i = 0) : Ends w i s (w ((s.afterRead a n).skipBytes k) (storedBytes i).1 v)
  /-- A single write: SETRAM. -/
  | writeOnly (o : Word) (v : List Byte) (hi : i = .setram o v) (hc : s.cfg.configured = true)
      (hr : o.toNat + v.length ≤ 56) : Ends w i s (s.writeAndEnd (8 + o.toNat) v)
  /-- A pure codec command. -/
  | codec (k : Nat) (r : Word) (hn : needsHandle i = false) (hl : isLifecycle i = false) (ht : txnTable i = [])
      (hr : resultCount i = 1) : Ends w i s ((s.skipBytes k).complete [r])
  /-- CONFIG, the base fitting (R122). -/
  | configured (c : Word) (d : BitVec 7) (v yb : Word) (hi : i = .config c d v) (hc : s.cfg.configured = false)
      (hy : yearBase c.toInt = some yb) : Ends w i s (s.configure d v yb)
  /-- DECONFIG with a handle (R123). -/
  | deconfigured (hi : i = .deconfig) (hc : s.cfg.configured = true) : Ends w i s s.deconfigure

theorem ends_of_read {w : State → Nat → List Byte → State} {i : Instr} {s t : State} {a n : Nat} {rest : List TxnShape}
    {k : State → (Nat → Byte) → State → Host.Outcome State Fault Refusal} (hn : needsHandle i = true)
    (hl : isLifecycle i = false) (ht : txnTable i = .read a n :: rest) (ha : a + n ≤ 64)
    (hk : s.cfg.configured = true → s.txn.outcome = .ok → ∀ r, k s r (s.afterRead a n) = .next t → Ends w i s t)
    (he : (s.withHandle fun s => s.onRead a n (k s)) = .next t) : Ends w i s t := by
  rcases State.withHandle_cases he with ⟨hc, he⟩ | ⟨hc, rfl⟩
  · rcases State.onRead_cases he with ⟨ho, he⟩ | ⟨ho, rfl⟩
    · exact hk hc ho _ he
    · exact .readFailed a n rest hc hl ht ha ho
  · exact .noHandle hn hc

theorem ends_of_getField {w : State → Nat → List Byte → State} {i : Instr} {s t : State} {f : Field} (hn : needsHandle i = true) (hl : isLifecycle i = false)
    (ht : txnTable i = [.read f.addr 1]) (ha : f.addr + 1 ≤ 64) (hr : resultCount i = 1)
    (he : getField f s = .next t) : Ends w i s t := by
  refine ends_of_read hn hl ht ha (fun hc ho r he => ?_) he
  cases he
  exact .readThenDone _ _ _ _ hc hl ht ha ho hr.symm (.inl rfl)

theorem ends_of_setField {w : State → Nat → List Byte → State} {i : Instr} {s t : State} {f : Field} {v : Byte} (hn : needsHandle i = true)
    (hl : isLifecycle i = false) (ht : txnTable i = [.read f.addr 1, .write f.addr 1]) (ha : f.addr + 1 ≤ 64)
    (hs : storedBytes i = (f.addr, 1)) (hv : f.addr + 1 ≤ 8) (hr : resultCount i = 0) (hm : maySkip i = true)
    (he : setFieldWith w f v s = .next t) : Ends w i s t := by
  refine ends_of_read hn hl ht ha (fun hc ho r he => ?_) he
  have he := Host.Outcome.next.inj he
  split at he <;> subst he
  · exact .readThenDone _ _ _ _ hc hl ht ha ho hr.symm (.inr hm)
  · have := Ends.readThenWrite (w := w) (i := i) (s := s) f.addr 1 0 [f.insert (r 0) v] hc hl
      (by rw [ht, hs]; rfl) ha (by rw [hs]; rfl) (by rw [hs]; exact hv) ho hr
    rw [hs] at this
    exact this

/-- Every next state of a command, whatever does its final write, is one of the nine shapes. -/
theorem runWith_ends {w : State → Nat → List Byte → State} {i : Instr} {s t : State} (he : runWith w i s = .next t) :
    Ends w i s t := by
  cases i with
  | tobcd n => cases he; exact .codec 1 _ rfl rfl rfl rfl
  | frombcd b => cases he; exact .codec (s := s) 0 _ rfl rfl rfl rfl
  | dec12h b => cases he; exact .codec (s := s) 0 _ rfl rfl rfl rfl
  | enc12h h => cases he; exact .codec 1 _ rfl rfl rfl rfl
  | config c d v =>
    simp only [runWith, execConfig] at he
    cases hc : s.cfg.configured with
    | true => simp [hc] at he
    | false =>
      cases hy : yearBase (int32 c) with
      | none => simp [hc, hy] at he
      | some yb =>
        simp only [hc, hy] at he
        cases he
        exact .configured c d v yb rfl hc hy
  | deconfig =>
    rcases State.withHandle_cases (s := s) (k := fun s => .next s.deconfigure) he with ⟨hc, he⟩ | ⟨hc, rfl⟩
    · cases he; exact .deconfigured rfl hc
    · exact .noHandle rfl hc
  | gettime =>
    simp only [runWith, execGettime] at he
    refine ends_of_read rfl rfl (txnTable.eq_def _) (by omega) (fun hc ho r he => ?_) he
    split at he <;> cases he
    exact .readThenDone 0 7 [] _ hc rfl rfl (by omega) ho rfl (.inl rfl)
  | settime d =>
    simp only [runWith, settimeWith] at he
    refine ends_of_read rfl rfl (txnTable.eq_def _) (by omega) (fun hc ho r he => ?_) he
    cases he
    exact .readThenWrite (i := .settime d) 0 3 7 _ hc rfl rfl (by omega) rfl (by simp [timeBytes, storedBytes]) ho rfl
  | getraw =>
    simp only [runWith, execGetraw] at he
    refine ends_of_read rfl rfl (txnTable.eq_def _) (by omega) (fun hc ho r he => ?_) he
    cases he
    exact .readThenDone 0 7 [] _ hc rfl rfl (by omega) ho rfl (.inl rfl)
  | setraw d =>
    simp only [runWith, setrawWith] at he
    refine ends_of_read rfl rfl (txnTable.eq_def _) (by omega) (fun hc ho r he => ?_) he
    cases he
    exact .readThenWrite (i := .setraw d) 0 1 7 _ hc rfl rfl (by omega) rfl (by simp [rawBytes, storedBytes]) ho rfl
  | gethalt => exact ends_of_getField rfl rfl rfl (by decide) rfl he
  | sethalt v => exact ends_of_setField rfl rfl rfl (by decide) rfl (by decide) rfl rfl he
  | getout => exact ends_of_getField rfl rfl rfl (by decide) rfl he
  | setout v => exact ends_of_setField rfl rfl rfl (by decide) rfl (by decide) rfl rfl he
  | getsqwe => exact ends_of_getField rfl rfl rfl (by decide) rfl he
  | setsqwe v => exact ends_of_setField rfl rfl rfl (by decide) rfl (by decide) rfl rfl he
  | getrate => exact ends_of_getField rfl rfl rfl (by decide) rfl he
  | setrate v => exact ends_of_setField rfl rfl rfl (by decide) rfl (by decide) rfl rfl he
  | get12h => exact ends_of_getField rfl rfl rfl (by decide) rfl he
  | set12h v =>
    simp only [runWith, set12hWith] at he
    refine ends_of_read rfl rfl (txnTable.eq_def _) (by omega) (fun hc ho r he => ?_) he
    have he := Host.Outcome.next.inj he
    split at he <;> subst he
    · exact .readThenDone 2 1 _ _ hc rfl rfl (by omega) ho rfl (.inr rfl)
    · exact .readThenWrite (i := .set12h v) (s := s) 2 1 0 _ hc rfl rfl (by omega) rfl (by simp [storedBytes, fieldMode]) ho rfl
  | getram o l =>
    simp only [runWith, execGetram] at he
    rcases State.withHandle_cases he with ⟨hc, he⟩ | ⟨hc, rfl⟩
    · simp only [State.withinRam, inRange, decide_eq_true_eq] at he
      split at he
      · next hr =>
        rcases State.onRead_cases he with ⟨ho, he⟩ | ⟨ho, rfl⟩
        · cases he
          exact .readThenDone _ _ [] _ hc rfl rfl (by simp only [ramBase]; omega) ho (by simp [resultCount]) (.inl rfl)
        · exact .readFailed _ _ [] hc rfl rfl (by simp only [ramBase]; omega) ho
      · next hr => cases he; exact .outOfRange hc (.inl ⟨o, l, rfl, by omega⟩)
    · exact .noHandle rfl hc
  | setram o bs =>
    simp only [runWith, execSetram] at he
    rcases State.withHandle_cases he with ⟨hc, he⟩ | ⟨hc, rfl⟩
    · simp only [State.withinRam, inRange, decide_eq_true_eq] at he
      split at he
      · next hr => cases he; exact .writeOnly o bs rfl hc hr
      · next hr => cases he; exact .outOfRange hc (.inr ⟨o, bs, rfl, by omega⟩)
    · exact .noHandle rfl hc

/-- `exec` is the command with its final write done at once. -/
theorem exec_eq_runWith (i : Instr) (s : State) : exec i s = runWith State.writeAndEnd i s := by cases i <;> rfl

/-- Every next state of `exec` is one of the nine shapes. -/
theorem exec_ends {i : Instr} {s t : State} (he : exec i s = .next t) : Ends State.writeAndEnd i s t :=
  runWith_ends (by rwa [exec_eq_runWith] at he)

/-- Every next state of a started command is one of the nine shapes, its final write being held. -/
theorem startCommand_ends {i : Instr} {s t : State} (he : startCommand i s = .next t) : Ends State.hold i s t :=
  runWith_ends he

/-! ### A started command against the whole one -/

/-- Starting is the whole command, or the read of a read-modify-write command whose write is held. -/
def Starts (i : Instr) (s : State) : Prop :=
  startCommand i s = exec i s ∨
    ∃ a n k v, txnTable i = [.read a n, .write (storedBytes i).1 v.length] ∧ (storedBytes i).2 = v.length ∧
      s.cfg.configured = true ∧ s.txn.outcome = .ok ∧
      startCommand i s = .next (((s.afterRead a n).skipBytes k).hold (storedBytes i).1 v) ∧
      exec i s = .next (((s.afterRead a n).skipBytes k).writeAndEnd (storedBytes i).1 v)

theorem starts_of_read {i : Instr} {s : State} {a n : Nat}
    {body : (State → Nat → List Byte → State) → State → (Nat → Byte) → State → Host.Outcome State Fault Refusal}
    (hr : ∀ w, runWith w i s = s.withHandle fun s => s.onRead a n (body w s))
    (hb : body State.hold s (s.readByte a) (s.afterRead a n) = body State.writeAndEnd s (s.readByte a) (s.afterRead a n) ∨
      ∃ k v, txnTable i = [.read a n, .write (storedBytes i).1 v.length] ∧ (storedBytes i).2 = v.length ∧
        ∀ w, body w s (s.readByte a) (s.afterRead a n) =
          .next (w ((s.afterRead a n).skipBytes k) (storedBytes i).1 v)) : Starts i s := by
  unfold Starts
  rw [exec_eq_runWith, startCommand, hr, hr]
  cases hc : s.cfg.configured with
  | false => exact .inl (by simp only [State.withHandle_unconfigured hc])
  | true =>
    cases ho : s.txn.outcome with
    | fail => exact .inl (by simp only [State.withHandle_configured hc, State.onRead_fail ho])
    | ok =>
      simp only [State.withHandle_configured hc, State.onRead_ok ho]
      rcases hb with hb | ⟨k, v, ht, hs, hb⟩
      · exact .inl hb
      · exact .inr ⟨a, n, k, v, ht, hs, trivial, trivial, hb _, hb _⟩

theorem starts_of_setField {i : Instr} {s : State} {f : Field} {b : Byte}
    (hr : ∀ w, runWith w i s = setFieldWith w f b s) (ht : txnTable i = [.read f.addr 1, .write f.addr 1])
    (hs : storedBytes i = (f.addr, 1)) : Starts i s := by
  refine starts_of_read (a := f.addr) (n := 1) (body := fun w _ r s' => .next (if f.holds (r 0) b then s'.complete []
    else w s' f.addr [f.insert (r 0) b])) hr ?_
  by_cases hh : f.holds (s.readByte f.addr 0) b = true
  · exact .inl (by simp only [if_pos hh])
  · refine .inr ⟨0, [f.insert (s.readByte f.addr 0) b], by rw [ht, hs]; rfl, by rw [hs]; rfl, fun w => ?_⟩
    rw [if_neg hh, hs]; rfl

/-- Every command starts in one of the two ways. -/
theorem startCommand_cases (i : Instr) (s : State) : Starts i s := by
  cases i with
  | settime d =>
    exact starts_of_read (a := 0) (n := 3)
      (body := fun w _ r s' => .next (w (s'.skipBytes 7) 0 (timeBytes d r s'.freeByte))) (fun _ => rfl)
      (.inr ⟨7, _, rfl, rfl, fun _ => rfl⟩)
  | setraw d =>
    exact starts_of_read (a := 0) (n := 1)
      (body := fun w s r s' => .next (w (s'.skipBytes 7) 0 (rawBytes s.coding d (r 0) s'.freeByte))) (fun _ => rfl)
      (.inr ⟨7, _, rfl, rfl, fun _ => rfl⟩)
  | sethalt v => exact starts_of_setField (fun _ => rfl) rfl rfl
  | setout v => exact starts_of_setField (fun _ => rfl) rfl rfl
  | setsqwe v => exact starts_of_setField (fun _ => rfl) rfl rfl
  | setrate v => exact starts_of_setField (fun _ => rfl) rfl rfl
  | set12h v =>
    refine starts_of_read (a := 2) (n := 1) (body := fun w _ r s' => .next (if (r 0).getLsbD 6 == v then s'.complete []
      else w s' 2 [reencode (r 0) v (s'.freeByte 0)])) (fun _ => rfl) ?_
    by_cases hh : ((s.readByte 2 0).getLsbD 6 == v) = true
    · exact .inl (by simp only [if_pos hh])
    · exact .inr ⟨0, [reencode (s.readByte 2 0) v (s.freeByte 0)], rfl, rfl, fun w => by rw [if_neg hh]; rfl⟩
  | _ => exact .inl rfl

/-! ### What every command keeps to itself -/

/-- A way to do a final write that reaches no other instance and no handle. -/
def LocalWrite (w : State → Nat → List Byte → State) : Prop :=
  ∀ (s u : State) (a : Nat) (v : List Byte), s.tableWf → s.Quiet u →
    (∀ k, k ≠ s.cur → (w u a v).rcAt k = s.rcAt k) ∧ s.HandlesFrame (w u a v)

theorem localWrite_writeAndEnd : LocalWrite State.writeAndEnd := fun _ _ a v hs hq =>
  ⟨(State.writeAndEnd_hostFrame hq hs a v).others, State.writeAndEnd_handlesFrame hq hs a v⟩

theorem localWrite_hold : LocalWrite State.hold := fun s u a v hs hq => by
  have h : ∀ k, (u.hold a v).rcAt k = if k = u.cur then { u.rc with pending := some ⟨a, v⟩ } else u.rcAt k :=
    State.rcAt_setPending (hq.tableWf hs) _
  refine ⟨fun k hk => ?_, fun k => ?_⟩
  · rw [h, if_neg (by rw [hq.cur]; exact hk), hq.rcAt]
  · rw [h]
    split
    · next hk => rw [hk, State.rc, hq.rcAt]
    · rw [hq.rcAt]

variable {w : State → Nat → List Byte → State} {i : Instr} {s t : State}

/-- A command reaches no other instance (R296). -/
theorem Ends.others (h : Ends w i s t) (hs : s.tableWf) (hw : LocalWrite w) (k : Nat) (hk : k ≠ s.cur) :
    t.rcAt k = s.rcAt k := by
  have hr : ∀ {u : State} (e : ErrorKind), s.Quiet u → (u.raise e).rcAt k = s.rcAt k := fun e hq =>
    (State.raise_hostFrame hq hs e).others k hk
  have hc : ∀ {u : State} (ws : List Word), s.Quiet u → (u.complete ws).rcAt k = s.rcAt k := fun ws hq =>
    (State.complete_hostFrame hq hs ws).others k hk
  cases h with
  | noHandle | outOfRange => exact hr _ (.refl s)
  | readFailed a n => exact hr _ (State.quiet_afterFailedRead s a n)
  | readThenDone a n => exact hc _ (State.quiet_afterRead s a n)
  | readThenWrite a n j v =>
    exact (hw s _ _ v hs ((State.quiet_afterRead s a n).trans (State.quiet_skipBytes _ j))).1 k hk
  | writeOnly o v => exact (State.writeAndEnd_hostFrame (.refl s) hs _ v).others k hk
  | codec j => exact hc _ (State.quiet_skipBytes s j)
  | configured c d v yb =>
    have hq := fun o => (State.quiet_skipAttach s).trans (State.quiet_recordBus _ (.attach d v o))
    unfold State.configure
    split
    · exact hr _ (hq none)
    · next cap _ => exact hr _ ((hq (some cap)).trans (State.quiet_recordBus _ (.detach (some cap) .ok)))
    · next cap _ =>
      exact ((State.hostFrame_setCfg (hq (some cap)) hs _).trans
        (State.complete_hostFrame (.refl _) (State.setCfg_tableWf ((hq (some cap)).tableWf hs) _) _)).others k hk
  | deconfigured =>
    have hq := (State.quiet_skipDetach s).trans (State.quiet_recordBus _ (.detach s.cfg.bus s.detachOutcome))
    have hf := State.hostFrame_setCfg hq hs { s.cfg with configured := false, bus := none }
    have ht := State.setCfg_tableWf (hq.tableWf hs) { s.cfg with configured := false, bus := none }
    unfold State.deconfigure
    simp only
    split
    · exact (hf.trans (State.complete_hostFrame (.refl _) ht _)).others k hk
    · exact (hf.trans (State.raise_hostFrame (.refl _) ht _)).others k hk

/-- A command that is not of the handle's lifecycle writes no handle (R22-R24). -/
theorem Ends.handles (h : Ends w i s t) (hs : s.tableWf) (hw : LocalWrite w) (hi : isLifecycle i = false) :
    s.HandlesFrame t := by
  cases h with
  | noHandle | outOfRange => exact State.raise_handlesFrame (.refl s) hs _
  | readFailed a n => exact State.raise_handlesFrame (State.quiet_afterFailedRead s a n) hs _
  | readThenDone a n => exact State.complete_handlesFrame (State.quiet_afterRead s a n) hs _
  | readThenWrite a n j v =>
    exact (hw s _ _ v hs ((State.quiet_afterRead s a n).trans (State.quiet_skipBytes _ j))).2
  | writeOnly o v => exact State.writeAndEnd_handlesFrame (.refl s) hs _ v
  | codec j => exact State.complete_handlesFrame (State.quiet_skipBytes s j) hs _
  | configured c d v yb hc => subst hc; cases hi
  | deconfigured hc => subst hc; cases hi

end Sys2Proof.Machine
end

