-- ==== Sys2Proof/Laws/PerInstr.lean ====
section
/-! SUPPORT. Laws/PerInstr.lean: the statements made of every command as syntax, one lemma per constructor. -/
namespace Sys2Proof.Laws

/-- The encoding of a well-formed command has the opcode byte of a row of R97, exactly the `N` operand words of that
row (R91, R93), each of its kind (R94). -/
def EncodedLength.Statement (i : Instr) : Prop :=
  i.wellFormed = true → ∃ o : Opcode, (encode i).op = o.byte ∧
    (encode i).words.length = o.operandCount (encode i).words ∧ o.wordsAdmitted (encode i).words = true

/-- A byte's word has no bit that BYTE requires zero. -/
theorem byte_admits (b : Byte) : Kind.byte.admits (wordOfByte b) = true := by
  revert b; decide

/-- A flag's word has no bit that BOOL requires zero. -/
theorem bool_admits (v : Bool) : Kind.bool.admits (wordOfBool v) = true := by cases v <;> decide

/-- A rate's word has no bit that RS2 requires zero. -/
theorem rs2_admits (v : BitVec 2) : Kind.rs2.admits (v.zeroExtend 32) = true := by revert v; decide

/-- A device address's word has no bit that ADDR7 requires zero. -/
theorem addr7_admits (v : BitVec 7) : Kind.addr7.admits (v.zeroExtend 32) = true := by revert v; decide

/-- Every word is an INT32 word and a U32 word. -/
theorem int32_admits (w : Word) : Kind.int32.admits w = true := by simp [Kind.admits, Kind.zeroBits]

/-- Every word is a U32 word. -/
theorem u32_admits (w : Word) : Kind.u32.admits w = true := by simp [Kind.admits, Kind.zeroBits]

namespace EncodedLength

theorem tobcd (n : Word) : Statement (.tobcd n) := fun _ =>
  ⟨.tobcd, rfl, rfl, by simp [encode, Opcode.wordsAdmitted, Opcode.kinds, Opcode.dataCount, int32_admits]⟩
theorem frombcd (b : Byte) : Statement (.frombcd b) := fun _ =>
  ⟨.frombcd, rfl, rfl, by simp [encode, Opcode.wordsAdmitted, Opcode.kinds, Opcode.dataCount, byte_admits]⟩
theorem dec12h (b : Byte) : Statement (.dec12h b) := fun _ =>
  ⟨.dec12h, rfl, rfl, by simp [encode, Opcode.wordsAdmitted, Opcode.kinds, Opcode.dataCount, byte_admits]⟩
theorem enc12h (h : Word) : Statement (.enc12h h) := fun _ =>
  ⟨.enc12h, rfl, rfl, by simp [encode, Opcode.wordsAdmitted, Opcode.kinds, Opcode.dataCount, int32_admits]⟩
theorem config (century : Word) (dev : BitVec 7) (speed : Word) : Statement (.config century dev speed) := fun _ =>
  ⟨.config, rfl, rfl, by
    have := addr7_admits dev
    simp_all [encode, Opcode.wordsAdmitted, Opcode.kinds, Opcode.dataCount, int32_admits, u32_admits]⟩
theorem deconfig : Statement .deconfig := fun _ => ⟨.deconfig, rfl, rfl, rfl⟩
theorem gettime : Statement .gettime := fun _ => ⟨.gettime, rfl, rfl, rfl⟩
theorem settime (t : CalendarTime) : Statement (.settime t) := fun _ =>
  ⟨.settime, rfl, rfl, by
    simp [encode, CalendarTime.words, Opcode.wordsAdmitted, Opcode.kinds, Opcode.dataCount, int32_admits]⟩
theorem getraw : Statement .getraw := fun _ => ⟨.getraw, rfl, rfl, rfl⟩
theorem setraw (d : RawData) : Statement (.setraw d) := fun _ =>
  ⟨.setraw, rfl, rfl, by
    simp [encode, RawData.words, Opcode.wordsAdmitted, Opcode.kinds, Opcode.dataCount, byte_admits, bool_admits]⟩
theorem gethalt : Statement .gethalt := fun _ => ⟨.gethalt, rfl, rfl, rfl⟩
theorem sethalt (v : Bool) : Statement (.sethalt v) := fun _ =>
  ⟨.sethalt, rfl, rfl, by simp [encode, Opcode.wordsAdmitted, Opcode.kinds, Opcode.dataCount, bool_admits]⟩
theorem getout : Statement .getout := fun _ => ⟨.getout, rfl, rfl, rfl⟩
theorem setout (v : Bool) : Statement (.setout v) := fun _ =>
  ⟨.setout, rfl, rfl, by simp [encode, Opcode.wordsAdmitted, Opcode.kinds, Opcode.dataCount, bool_admits]⟩
theorem getsqwe : Statement .getsqwe := fun _ => ⟨.getsqwe, rfl, rfl, rfl⟩
theorem setsqwe (v : Bool) : Statement (.setsqwe v) := fun _ =>
  ⟨.setsqwe, rfl, rfl, by simp [encode, Opcode.wordsAdmitted, Opcode.kinds, Opcode.dataCount, bool_admits]⟩
theorem getrate : Statement .getrate := fun _ => ⟨.getrate, rfl, rfl, rfl⟩
theorem setrate (v : BitVec 2) : Statement (.setrate v) := fun _ =>
  ⟨.setrate, rfl, rfl, by
    have := rs2_admits v
    simp_all [encode, Opcode.wordsAdmitted, Opcode.kinds, Opcode.dataCount]⟩
theorem get12h : Statement .get12h := fun _ => ⟨.get12h, rfl, rfl, rfl⟩
theorem set12h (v : Bool) : Statement (.set12h v) := fun _ =>
  ⟨.set12h, rfl, rfl, by simp [encode, Opcode.wordsAdmitted, Opcode.kinds, Opcode.dataCount, bool_admits]⟩
theorem getram (offset length : Word) : Statement (.getram offset length) := fun _ =>
  ⟨.getram, rfl, rfl, by simp [encode, Opcode.wordsAdmitted, Opcode.kinds, Opcode.dataCount, u32_admits]⟩
theorem setram (offset : Word) (bytes : List Byte) : Statement (.setram offset bytes) := fun h => by
  have hl : bytes.length % 4294967296 = bytes.length := Nat.mod_eq_of_lt (by simpa [Instr.wellFormed] using h)
  refine ⟨.setram, rfl, ?_, ?_⟩
  · simp [encode, Opcode.operandCount, Opcode.kinds, Opcode.dataCount, hl]; omega
  · have ht : (bytes.map wordOfByte).take bytes.length = bytes.map wordOfByte := List.take_of_length_le (by simp)
    simp [encode, Opcode.wordsAdmitted, Opcode.kinds, Opcode.dataCount, u32_admits, hl, ht, List.all_map, byte_admits]

end EncodedLength

end Sys2Proof.Laws
end

