-- ==== Sys2Proof/Laws/Step.lean ====
section
/-! SUPPORT. Laws/Step.lean: everything a step can do, said once, and what the turn of an instance leaves. -/
namespace Sys2Proof.Machine

/-- Taking a command: a next state comes from running what it decodes to, on an instance with no command in progress. -/
theorem State.take_cases {s t : State} {k : Nat} {c : Encoded} {run : Instr → State → Host.Outcome State Fault Refusal}
    (h : s.take k c run = .next t) : ∃ i, decode c = .ok i ∧ (s.rcAt k).pending = none ∧ run i (s.present k c) = .next t := by
  unfold State.take at h
  split at h
  · cases h
  · next i hd =>
    split at h
    · cases h
    · next hb => exact ⟨i, hd, by simpa [State.busy] using hb, h⟩

theorem State.take_ok {s : State} {k : Nat} {c : Encoded} {i : Instr} (hd : decode c = .ok i)
    (hp : (s.rcAt k).pending = none) (run : Instr → State → Host.Outcome State Fault Refusal) :
    s.take k c run = run i (s.present k c) := by
  simp [State.take, hd, State.busy, hp]

theorem State.take_busy {s : State} {k : Nat} {c : Encoded} {i : Instr} (hd : decode c = .ok i)
    (hp : (s.rcAt k).pending ≠ none) (run : Instr → State → Host.Outcome State Fault Refusal) :
    s.take k c run = .fault .concurrentUse := by
  simp [State.take, hd, State.busy, Option.isSome_iff_ne_none, hp]

theorem State.take_error {s : State} {k : Nat} {c : Encoded} {e : DecodeError} (hd : decode c = .error e)
    (run : Instr → State → Host.Outcome State Fault Refusal) : s.take k c run = .refused (refusalOf e) := by
  simp [State.take, hd]

/-! ### The step, event by event -/

theorem step_command {s : State} {k : Nat} {c : Encoded} {rest : List HostEvent} (h : s.inbox = .command k c :: rest) :
    step s = State.take { s with inbox := rest } k c exec := by simp only [step, h]

theorem step_start {s : State} {k : Nat} {c : Encoded} {rest : List HostEvent} (h : s.inbox = .start k c :: rest) :
    step s = State.take { s with inbox := rest } k c startCommand := by simp only [step, h]

theorem step_finish {s : State} {k : Nat} {rest : List HostEvent} (h : s.inbox = .finish k :: rest) :
    step s = .next (State.finish { s with inbox := rest } k) := by simp only [step, h]

/-- A command the decoder refuses is refused, whether it is to run to its end or to be started (R286). -/
theorem step_undecodable {s : State} {k : Nat} {c : Encoded} {rest : List HostEvent} {e : DecodeError}
    (hd : decode c = .error e) (h : s.inbox = .command k c :: rest ∨ s.inbox = .start k c :: rest) :
    step s = .refused (refusalOf e) := by
  rcases h with h | h
  · rw [step_command h]; exact State.take_error hd exec
  · rw [step_start h]; exact State.take_error hd startCommand

/-- A decoded command for an instance whose command is in progress is stuck (R297). -/
theorem step_busy {s : State} {k : Nat} {c : Encoded} {rest : List HostEvent} {i : Instr} (hd : decode c = .ok i)
    (hp : (s.rcAt k).pending ≠ none) (h : s.inbox = .command k c :: rest ∨ s.inbox = .start k c :: rest) :
    step s = .fault .concurrentUse := by
  rcases h with h | h
  · rw [step_command h]; exact State.take_busy (s := { s with inbox := rest }) hd hp exec
  · rw [step_start h]; exact State.take_busy (s := { s with inbox := rest }) hd hp startCommand

/-- A step that answers a next state is one of six. -/
theorem step_cases {s t : State} (h : step s = .next t) :
    (s.inbox = [] ∧ t = s) ∨
    (∃ k c rest i, s.inbox = .command k c :: rest ∧ decode c = .ok i ∧ (s.rcAt k).pending = none ∧
      exec i (State.present { s with inbox := rest } k c) = .next t) ∨
    (∃ k c rest i, s.inbox = .start k c :: rest ∧ decode c = .ok i ∧ (s.rcAt k).pending = none ∧
      startCommand i (State.present { s with inbox := rest } k c) = .next t) ∨
    (∃ k rest, s.inbox = .finish k :: rest ∧ t = State.finish { s with inbox := rest } k) ∨
    (∃ k rest, s.inbox = .readResponse k :: rest ∧ (s.rcAt k).pending = none ∧
      t = State.responseRead { s with inbox := rest } k) ∨
    (∃ rest, s.inbox = .restart :: rest ∧ t = State.blockReset { s with inbox := rest }) := by
  unfold step at h
  split at h
  · next hi => cases h; exact .inl ⟨hi, rfl⟩
  · next k c rest hi =>
    obtain ⟨i, hd, hp, he⟩ := State.take_cases h
    exact .inr (.inl ⟨k, c, rest, i, hi, hd, hp, he⟩)
  · next k c rest hi =>
    obtain ⟨i, hd, hp, he⟩ := State.take_cases h
    exact .inr (.inr (.inl ⟨k, c, rest, i, hi, hd, hp, he⟩))
  · next k rest hi => cases h; exact .inr (.inr (.inr (.inl ⟨k, rest, hi, rfl⟩)))
  · next k rest hi =>
    split at h
    · cases h
    · next hb =>
      cases h
      exact .inr (.inr (.inr (.inr (.inl ⟨k, rest, hi, by simpa [State.busy] using hb, rfl⟩))))
  · next rest hi => cases h; exact .inr (.inr (.inr (.inr (.inr ⟨rest, hi, rfl⟩))))

/-- Instance `k` about to issue the write it owed: it is the one that runs, and it owes nothing. -/
theorem State.rcAt_turn {s : State} (h : s.tableWf) (k j : Nat) :
    (State.setPending { s with cur := k } none).rcAt j =
      if j = k then { s.rcAt k with pending := none } else s.rcAt j :=
  State.rcAt_setPending (s := { s with cur := k }) h none j

theorem State.turn_tableWf {s : State} (h : s.tableWf) (k : Nat) :
    (State.setPending { s with cur := k } none).tableWf :=
  State.setPending_tableWf (s := { s with cur := k }) h none

/-- The turn of an instance changes its port and what it owes: no other instance (R296), no handle, and not the command
on its port. -/
theorem State.finish_spec {s : State} (h : s.tableWf) (k : Nat) :
    (∀ j, j ≠ k → (s.finish k).rcAt j = s.rcAt j) ∧ s.HandlesFrame (s.finish k) ∧
      ((s.finish k).rcAt k).pending = none := by
  cases hp : (s.rcAt k).pending with
  | none => rw [State.finish_idle hp]; exact ⟨fun _ _ => rfl, fun _ => rfl, hp⟩
  | some p =>
    have hf := State.writeAndEnd_hostFrame (.refl _) (State.turn_tableWf h k) p.addr p.bytes
    have hh := State.writeAndEnd_handlesFrame (.refl _) (State.turn_tableWf h k) p.addr p.bytes
    rw [State.finish_pending hp]
    refine ⟨fun j hj => ?_, fun j => ?_, ?_⟩
    · rw [hf.others j hj, State.rcAt_turn h, if_neg hj]
    · rw [hh j, State.rcAt_turn h]
      split
      · next hj => rw [hj]
      · rfl
    · have hq := hf.pending
      rw [State.rc, hf.cur] at hq
      exact hq.trans (by rw [State.rc]; exact congrArg Rc.pending ((State.rcAt_turn h k k).trans (if_pos rfl)))

end Sys2Proof.Machine
end

