-- ==== Sys2Proof/Laws/Run.lean ====
section
/-! SUPPORT. Laws/Run.lean: what holds along a run: the record only grows, the inputs are used in their order, and under
SOLE_WRITER with TICK the identity only the instance's own writes change the image. -/
namespace Sys2Proof.Machine

variable {s t u : State} {l l' : List BusRecord} {m m' : Nat}

/-- From `s` to `t` the record grew by `l` and `m` transaction inputs were used. -/
structure State.Onward (s t : State) (l : List BusRecord) (m : Nat) : Prop where
  log  : t.busLog = s.busLog ++ l
  txns : t.inputs.txns = s.inputs.txns.drop m
  nTxn : t.inputs.nTxn = s.inputs.nTxn + m

theorem State.Onward.refl (s : State) : s.Onward s [] 0 := ⟨by simp, by simp, by simp⟩

theorem State.Onward.trans (h : s.Onward t l m) (h' : t.Onward u l' m') : s.Onward u (l ++ l') (m + m') :=
  ⟨by rw [h'.log, h.log, List.append_assoc], by rw [h'.txns, h.txns, List.drop_drop],
   by rw [h'.nTxn, h.nTxn]; omega⟩

/-- An update that leaves the record and the transaction inputs alone. -/
theorem State.Onward.quiet (h : s.Onward t l m) (hl : u.busLog = t.busLog) (ht : u.inputs.txns = t.inputs.txns)
    (hn : u.inputs.nTxn = t.inputs.nTxn) : s.Onward u l m :=
  ⟨hl.trans h.log, ht.trans h.txns, hn.trans h.nTxn⟩

/-- One transaction, whatever image it leaves. -/
theorem State.onward_transacted (s : State) (im : Memory) (op : BusOp) :
    s.Onward (s.transacted im op) [⟨s.cur, op⟩] 1 := ⟨rfl, by simp, rfl⟩

theorem State.onward_recordBus (s : State) (op : BusOp) : s.Onward (s.recordBus op) [⟨s.cur, op⟩] 0 :=
  ⟨rfl, by simp, rfl⟩

theorem State.onward_writeAndEnd (s : State) (a : Nat) (v : List Byte) :
    s.Onward (s.writeAndEnd a v) [⟨s.cur, .memWrite s.cfg.dev s.cfg.bus a v s.txn.outcome⟩] 1 := by
  rcases State.writeAndEnd_cases s a v with ⟨ho, he⟩ | ⟨ho, he⟩ <;> rw [he, ho]
  · exact (State.onward_transacted s s.mem _).quiet rfl rfl rfl
  · exact (State.onward_transacted s s.mem _).quiet rfl rfl rfl

theorem State.Onward.recordedUntil (h : s.Onward t l m) : s.recordedUntil t = l := by
  simp [State.recordedUntil, h.log]

theorem State.Onward.txnsUntil (h : s.Onward t l m) : s.txnsUntil t = m := by
  simp [State.txnsUntil, h.nTxn]

theorem State.txn_eq_txnAt (s : State) : s.txn = s.txnAt 0 := by
  unfold State.txn State.txnAt
  cases s.inputs.txns <;> rfl

theorem State.Onward.txnAt (h : s.Onward t l m) (i : Nat) : t.txnAt i = s.txnAt (m + i) := by
  simp only [State.txnAt, h.txns, h.nTxn, List.getD_eq_getElem?_getD, List.getElem?_drop]
  rw [Nat.add_assoc]

/-- SOLE_WRITER of a run is SOLE_WRITER of its first part and of its rest. -/
theorem State.SoleWriterUntil.split {k : Nat} (h : s.SoleWriterUntil u k) (h₁ : s.Onward t l m) (h₂ : t.Onward u l' m') :
    s.SoleWriterUntil t k ∧ t.SoleWriterUntil u k := by
  have e := h.env
  have f := h.instances
  rw [(h₁.trans h₂).txnsUntil] at e
  rw [(h₁.trans h₂).recordedUntil] at f
  refine ⟨⟨fun i hi => ?_, fun r hr => ?_⟩, ⟨fun i hi => ?_, fun r hr => ?_⟩⟩
  · rw [h₁.txnsUntil] at hi; exact e i (by omega)
  · rw [h₁.recordedUntil] at hr; exact f r (List.mem_append_left _ hr)
  · rw [h₂.txnsUntil] at hi; rw [h₁.txnAt]; exact e _ (by omega)
  · rw [h₂.recordedUntil] at hr; exact f r (List.mem_append_right _ hr)

theorem State.ClockStandsUntil.split (h : s.ClockStandsUntil u) (h₁ : s.Onward t l m) (h₂ : t.Onward u l' m') :
    s.ClockStandsUntil t ∧ t.ClockStandsUntil u := by
  unfold State.ClockStandsUntil at h
  rw [(h₁.trans h₂).txnsUntil] at h
  refine ⟨fun i hi => ?_, fun i hi => ?_⟩
  · rw [h₁.txnsUntil] at hi; exact h i (by omega)
  · rw [h₂.txnsUntil] at hi; rw [h₁.txnAt]; exact h _ (by omega)

/-- With neither kind of ENV step a transaction meets the image as the one before it left it. -/
theorem State.imageNow_of_still (h : SoleWriter s.txn) (h' : ClockStands s.txn) : s.imageNow = s.mem := by
  have he : s.txn.env = [] := by
    cases hc : s.txn.env with
    | nil => rfl
    | cons w ws =>
      have a := h w (by rw [hc]; exact List.mem_cons_self)
      have b := h' w (by rw [hc]; exact List.mem_cons_self)
      rw [a] at b; cases b
  simp [State.imageNow, he, Memory.afterEnv]

/-- What a command records: at most two transactions or two bus operations, all its own (R61, R66); and an image that no
write and no step of ENV changed. -/
theorem Ends.onward {i : Instr} {w : State → Nat → List Byte → State}
    (hw : ∀ (s : State) (a : Nat) (v : List Byte), ∃ l m, s.Onward (w s a v) l m ∧ m ≤ 1 ∧ (∀ r ∈ l, r.rc = s.cur) ∧
      ((∀ r ∈ l, r.isWrite = false) → (w s a v).mem = s.mem)) (h : Ends w i s t) :
    ∃ l m, s.Onward t l m ∧ m ≤ 2 ∧ (∀ r ∈ l, r.rc = s.cur) ∧
      ((∀ r ∈ l, r.isWrite = false) → (∀ j, j < m → SoleWriter (s.txnAt j)) → (∀ j, j < m → ClockStands (s.txnAt j)) →
        t.mem = s.mem) := by
  have one : (∀ j, j < 1 → SoleWriter (s.txnAt j)) → (∀ j, j < 1 → ClockStands (s.txnAt j)) → s.imageNow = s.mem :=
    fun h h' => State.imageNow_of_still (by rw [s.txn_eq_txnAt]; exact h 0 (by omega))
      (by rw [s.txn_eq_txnAt]; exact h' 0 (by omega))
  cases h with
  | noHandle | outOfRange => exact ⟨[], 0, (State.Onward.refl s).quiet rfl rfl rfl, by omega, by simp, fun _ _ _ => rfl⟩
  | readFailed a n =>
    exact ⟨_, 1, (State.onward_transacted s s.mem _).quiet rfl rfl rfl, by omega, by simp, fun _ h h' => one h h'⟩
  | readThenDone a n =>
    exact ⟨_, 1, (State.onward_transacted s s.mem _).quiet rfl rfl rfl, by omega, by simp, fun _ h h' => one h h'⟩
  | readThenWrite a n k v =>
    obtain ⟨l, m, ho, hle, hr, hm⟩ := hw ((s.afterRead a n).skipBytes k) (storedBytes i).1 v
    have h₁ : s.Onward ((s.afterRead a n).skipBytes k) [_] 1 := (State.onward_transacted s s.mem _).quiet rfl rfl rfl
    refine ⟨_, _, h₁.trans ho, by omega, fun r h => ?_, fun hl h h' => ?_⟩
    · rcases List.mem_append.1 h with h | h
      · rw [List.mem_singleton] at h; rw [h]
      · exact hr r h
    · exact (hm fun r h => hl r (List.mem_append_right _ h)).trans
        (one (fun j hj => h j (by omega)) fun j hj => h' j (by omega))
  | writeOnly o v =>
    exact ⟨_, 1, State.onward_writeAndEnd s _ v, by omega, by simp, fun h => by cases h _ (List.mem_singleton.2 rfl)⟩
  | codec k r => exact ⟨[], 0, (State.Onward.refl s).quiet rfl rfl rfl, by omega, by simp, fun _ _ _ => rfl⟩
  | configured c d v yb =>
    unfold State.configure
    have h₁ := fun o => (State.onward_recordBus s.skipAttach (.attach d v o))
    have h₀ : s.Onward s.skipAttach [] 0 := (State.Onward.refl s).quiet rfl rfl rfl
    split
    · exact ⟨_, _, (h₀.trans (h₁ none)).quiet rfl rfl rfl, by omega, by simp, fun _ _ _ => rfl⟩
    · next cap _ =>
      exact ⟨_, _, ((h₀.trans (h₁ (some cap))).trans (State.onward_recordBus _ (.detach (some cap) .ok))).quiet
        rfl rfl rfl, by omega, by simp, fun _ _ _ => rfl⟩
    · next cap _ => exact ⟨_, _, (h₀.trans (h₁ (some cap))).quiet rfl rfl rfl, by omega, by simp, fun _ _ _ => rfl⟩
  | deconfigured =>
    unfold State.deconfigure
    have h₀ : s.Onward s.skipDetach [] 0 := (State.Onward.refl s).quiet rfl rfl rfl
    have h₁ := h₀.trans (State.onward_recordBus s.skipDetach (.detach s.cfg.bus s.detachOutcome))
    simp only
    split <;> exact ⟨_, _, h₁.quiet rfl rfl rfl, by omega, by simp, fun _ _ _ => rfl⟩

theorem onward_write (s : State) (a : Nat) (v : List Byte) : ∃ l m, s.Onward (s.writeAndEnd a v) l m ∧
    m ≤ 1 ∧ (∀ r ∈ l, r.rc = s.cur) ∧ ((∀ r ∈ l, r.isWrite = false) → (s.writeAndEnd a v).mem = s.mem) :=
  ⟨_, 1, State.onward_writeAndEnd s a v, by omega, by simp, fun h => by cases h _ (List.mem_singleton.2 rfl)⟩

theorem onward_hold (s : State) (a : Nat) (v : List Byte) : ∃ l m, s.Onward (s.hold a v) l m ∧
    m ≤ 1 ∧ (∀ r ∈ l, r.rc = s.cur) ∧ ((∀ r ∈ l, r.isWrite = false) → (s.hold a v).mem = s.mem) :=
  ⟨[], 0, (State.Onward.refl s).quiet rfl rfl rfl, by omega, by simp, fun _ => rfl⟩

/-- What a step records is its own instance's, never that of one in progress but in its own turn; and an image that no
write and no step of ENV changed. -/
theorem step_onward (h : step s = .next t) :
    ∃ l m, s.Onward t l m ∧
      (∀ r ∈ l, (s.rcAt r.rc).pending = none ∨ ∃ rest, s.inbox = .finish r.rc :: rest) ∧
      ((∀ r ∈ l, r.isWrite = false) → (∀ j, j < m → SoleWriter (s.txnAt j)) → (∀ j, j < m → ClockStands (s.txnAt j)) →
        t.mem = s.mem) := by
  rcases step_cases h with ⟨-, rfl⟩ | ⟨k, c, rest, i, hi, -, hp, he⟩ | ⟨k, c, rest, i, hi, -, hp, he⟩ |
    ⟨k, rest, hi, rfl⟩ | ⟨k, rest, -, -, rfl⟩ | ⟨rest, -, rfl⟩
  · exact ⟨[], 0, .refl _, by simp, fun _ _ _ => rfl⟩
  · obtain ⟨l, m, ho, hle, hr, hm⟩ := (exec_ends he).onward onward_write
    exact ⟨l, m, ⟨ho.log, ho.txns, ho.nTxn⟩, fun r h => .inl (by rw [hr r h]; exact hp), hm⟩
  · obtain ⟨l, m, ho, hle, hr, hm⟩ := (startCommand_ends he).onward onward_hold
    exact ⟨l, m, ⟨ho.log, ho.txns, ho.nTxn⟩, fun r h => .inl (by rw [hr r h]; exact hp), hm⟩
  · cases hp : (s.rcAt k).pending with
    | none =>
      rw [State.finish_idle (s := { s with inbox := rest }) hp]
      exact ⟨[], 0, (State.Onward.refl s).quiet rfl rfl rfl, by simp, fun _ _ _ => rfl⟩
    | some p =>
      rw [State.finish_pending (s := { s with inbox := rest }) hp]
      have ho := State.onward_writeAndEnd (State.setPending { { s with inbox := rest } with cur := k } none) p.addr p.bytes
      refine ⟨_, 1, ⟨ho.log, ho.txns, ho.nTxn⟩, fun r h => .inr ?_, fun h => by cases h _ (List.mem_singleton.2 rfl)⟩
      rw [List.mem_singleton] at h
      exact ⟨rest, by rw [h]; exact hi⟩
  · exact ⟨[], 0, (State.Onward.refl s).quiet rfl rfl rfl, by simp, fun _ _ _ => rfl⟩
  · exact ⟨[], 0, (State.Onward.refl s).quiet rfl rfl rfl, by simp, fun _ _ _ => rfl⟩

/-- A run is a step and the rest of the run. -/
theorem run_succ {n : Nat} {s t : Sys2Proof.core.State} (h : Host.Core.run Sys2Proof.core (n + 1) s = .next t) :
    ∃ a : State, step s = .next a ∧ Host.Core.run Sys2Proof.core n a = .next t := by
  rw [Host.Core.run] at h
  split at h
  · next a ha => exact ⟨a, ha, h⟩
  · cases h
  · cases h

/-- A run only adds to the record and uses the inputs in their order. -/
theorem run_onward {n : Nat} (h : Host.Core.run Sys2Proof.core n s = .next t) : ∃ l m, s.Onward t l m := by
  induction n generalizing s with
  | zero => cases h; exact ⟨[], 0, .refl _⟩
  | succ n ih =>
    obtain ⟨a, ha, h⟩ := run_succ h
    obtain ⟨l, m, h₁, -⟩ := step_onward ha
    obtain ⟨l', m', h₂⟩ := ih h
    exact ⟨_, _, h₁.trans h₂⟩

/-- A command that runs in one step has no other instance inside it, so that `State.Undisturbed` is SOLE_WRITER and TICK
the identity for it (R75, R76). -/
theorem exec_undisturbed {i : Instr} (h : s.Undisturbed) (he : exec i s = .next t) :
    s.SoleWriterUntil t s.cur ∧ s.ClockStandsUntil t := by
  obtain ⟨l, m, ho, hle, hr, -⟩ := (exec_ends he).onward onward_write
  have h₂ : s.secondTxn = s.txnAt 1 := by
    have : s.Onward (s.afterRead 0 0) [_] 1 := (State.onward_transacted s s.mem _).quiet rfl rfl rfl
    rw [State.secondTxn, State.txn_eq_txnAt, this.txnAt]
  rw [← ho.txnsUntil] at hle
  obtain ⟨a, b, c, d⟩ := h
  rw [State.txn_eq_txnAt] at a b
  rw [h₂] at c d
  refine ⟨⟨fun j hj => ?_, fun r h _ => hr r (by rwa [ho.recordedUntil] at h)⟩, fun j hj => ?_⟩
  · obtain rfl | rfl : j = 0 ∨ j = 1 := by omega
    exacts [a, c]
  · obtain rfl | rfl : j = 0 ∨ j = 1 := by omega
    exacts [b, d]

end Sys2Proof.Machine
end

