-- ==== Sys2Proof/Tests/Slice0.lean ====
section
/-! SUPPORT. Tests/Slice0.lean: the WellFormed smoke test, one decoding per constructor, at most two one-step tests per
command with the values of spec/95_test_vectors.md, and the witnesses of the obligations' hypotheses. -/
namespace Sys2Proof.Tests

open Sys2Proof.Machine

/-! ## Small states -/

/-- An image whose first registers hold these bytes, every other byte being 0. -/
def image (l : List Byte) : Memory := Memory.setList [] 0 l

/-- A configured instance (the conventions of 95_test_vectors.md: address 0x68, speed 100000). -/
def handle (base : Word) : Rc :=
  { Rc.reset with cfg := { configured := true, yearBase := base, dev := 0x68, speed := 100000, bus := some 7 } }

/-- Instance 0 configured with a base; the image; the coming transactions. -/
def scene (l : List Byte) (base : Word) (ts : List Txn) : State :=
  { State.reset with insts := [(0, handle base)], mem := image l, inputs := { Inputs.reset with txns := ts } }

/-- Nothing configured; the coming attaches. -/
def bare (l : List Byte) (ts : List Txn) (as : List AttachOutcome) : State :=
  { State.reset with mem := image l, inputs := { Inputs.reset with txns := ts, attaches := as } }

/-- Instance 0 configured; the coming detach. -/
def release (o : BusOutcome) : State :=
  { scene [] 100 [] with inputs := { Inputs.reset with detaches := [o] } }

/-- A transaction that succeeds, with no ENV step before it and every free byte 0. -/
def good : Txn := ⟨[], .ok, List.replicate 16 0⟩

/-- A transaction that fails, with no ENV step before it. -/
def bad : Txn := ⟨[], .fail, List.replicate 16 0xEE⟩

/-- The response of a command that ended: status and result words. -/
def response (o : Host.Outcome State Fault Refusal) : Option (Status × List Word) :=
  match o with
  | .next t => some (t.port.status, t.port.results)
  | .fault _ => none
  | .refused _ => none

/-- The fault a command raised. -/
def faultOf (o : Host.Outcome State Fault Refusal) : Option Fault :=
  match o with
  | .next _ => none
  | .fault f => some f
  | .refused _ => none

/-- The refusal a command met. -/
def refusedAs (o : Host.Outcome State Fault Refusal) : Option Refusal :=
  match o with
  | .next _ => none
  | .fault _ => none
  | .refused r => some r

/-- The state after. -/
def after (o : Host.Outcome State Fault Refusal) : State :=
  match o with
  | .next t => t
  | .fault _ => State.reset
  | .refused _ => State.reset

/-- The bytes of the image from `a` on. -/
def bytesAt (s : State) (a n : Nat) : List Byte := (List.range n).map fun i => s.mem.get (a + i)

theorem image_wf (l : List Byte) : (image l).wf = true := Memory.wf_setList rfl 0 l

theorem handle_ne (base : Word) : handle base ≠ Rc.reset := fun h => by
  have := congrArg (fun r : Rc => r.cfg.configured) h
  simp [handle, Rc.reset, Cfg.reset] at this

theorem scene_inv (l : List Byte) (base : Word) (ts : List Txn) (h : base.toInt % 100 = 0) : (scene l base ts).Inv where
  mem := image_wf l
  table := by simp [scene, Sparse.wfFrom, handle_ne]
  cfg k := by
    simp only [State.rcAt, scene, Sparse.get]
    split <;> simp [handle, Rc.reset, Cfg.reset, Cfg.Inv, h]
  port k := by
    simp only [State.rcAt, scene, Sparse.get]
    split <;> simp [handle, Rc.reset, Port.reset, Port.Inv]
  pending k p h := by
    simp only [State.rcAt, scene, Sparse.get] at h
    split at h <;> simp [handle, Rc.reset] at h
  log := by simp [scene, State.reset]

theorem bare_inv (l : List Byte) (ts : List Txn) (as : List AttachOutcome) : (bare l ts as).Inv where
  mem := image_wf l
  table := rfl
  cfg k := by simp [State.rcAt, bare, State.reset, Sparse.get, Rc.reset, Cfg.reset, Cfg.Inv]
  port k := by simp [State.rcAt, bare, State.reset, Sparse.get, Rc.reset, Port.reset, Port.Inv]
  pending k p h := by simp [State.rcAt, bare, State.reset, Sparse.get, Rc.reset] at h
  log := by simp [bare, State.reset]

theorem release_inv (o : BusOutcome) : (release o).Inv where
  mem := rfl
  table := (scene_inv [] 100 [] (by decide)).table
  cfg k := (scene_inv [] 100 [] (by decide)).cfg k
  port k := (scene_inv [] 100 [] (by decide)).port k
  pending k := (scene_inv [] 100 [] (by decide)).pending k
  log := by simp [release, scene, State.reset]

/-! ## WellFormed: its one check refuses a SETRAM whose list no length word can count -/

theorem length_of_long (n : Nat) : (List.replicate n (0 : Byte)).length = n := List.length_replicate

theorem test_wellFormed_refuses_long_setram : (Instr.setram 0 (List.replicate (2 ^ 32) 0)).wellFormed = false := by
  simp only [Instr.wellFormed, length_of_long, lt_self_iff_false, decide_false]

theorem test_wellFormed_takes_short_setram : (Instr.setram 0 [0xAA, 0x55]).wellFormed = true := by decide

/-! ## Decoding: one word per constructor, written out from R97 and the encodings of 95_test_vectors.md -/

theorem test_decode_tobcd : decode ⟨0b00000001, [0x0000002D]⟩ = .ok (.tobcd 45) := by decide
theorem test_decode_frombcd : decode ⟨0b00000010, [0x00000037]⟩ = .ok (.frombcd 0x37) := by decide
theorem test_decode_dec12h : decode ⟨0b00000011, [0x000000D2]⟩ = .ok (.dec12h 0xD2) := by decide
theorem test_decode_enc12h : decode ⟨0b00000100, [0xFFFFFFFF]⟩ = .ok (.enc12h (-1)) := by decide
theorem test_decode_config :
    decode ⟨0b00010000, [0x00000015, 0x00000068, 0x000186A0]⟩ = .ok (.config 21 0x68 100000) := by decide
theorem test_decode_deconfig : decode ⟨0b00010001, []⟩ = .ok .deconfig := by decide
theorem test_decode_gettime : decode ⟨0b00100000, []⟩ = .ok .gettime := by decide
theorem test_decode_settime : decode ⟨0b00100001,
    [0x00000001, 0x00000002, 0x00000003, 0x00000004, 0x00000004, 0x00000063, 0x00000005]⟩ =
    .ok (.settime { sec := 1, min := 2, hour := 3, mday := 4, mon := 4, year := 99, wday := 5 }) := by decide
theorem test_decode_getraw : decode ⟨0b00100010, []⟩ = .ok .getraw := by decide
theorem test_decode_setraw : decode ⟨0b00100011, [59, 0, 11, 1, 0, 7, 31, 12, 99]⟩ = .ok (.setraw
    { seconds := 59, minutes := 0, hours := 11, hour12 := true, pm := false, day := 7, date := 31, month := 12,
      year := 99 }) := by decide
theorem test_decode_gethalt : decode ⟨0b00110000, []⟩ = .ok .gethalt := by decide
theorem test_decode_sethalt : decode ⟨0b00110001, [0x00000001]⟩ = .ok (.sethalt true) := by decide
theorem test_decode_getout : decode ⟨0b00110010, []⟩ = .ok .getout := by decide
theorem test_decode_setout : decode ⟨0b00110011, [0x00000000]⟩ = .ok (.setout false) := by decide
theorem test_decode_getsqwe : decode ⟨0b00110100, []⟩ = .ok .getsqwe := by decide
theorem test_decode_setsqwe : decode ⟨0b00110101, [0x00000001]⟩ = .ok (.setsqwe true) := by decide
theorem test_decode_getrate : decode ⟨0b00110110, []⟩ = .ok .getrate := by decide
theorem test_decode_setrate : decode ⟨0b00110111, [0x00000003]⟩ = .ok (.setrate 3) := by decide
theorem test_decode_get12h : decode ⟨0b00111000, []⟩ = .ok .get12h := by decide
theorem test_decode_set12h : decode ⟨0b00111001, [0x00000001]⟩ = .ok (.set12h true) := by decide
theorem test_decode_getram : decode ⟨0b01000000, [0x00000032, 0x0000000A]⟩ = .ok (.getram 50 10) := by decide
theorem test_decode_setram :
    decode ⟨0b01000001, [0x00000000, 0x00000002, 0x000000AA, 0x00000055]⟩ = .ok (.setram 0 [0xAA, 0x55]) := by decide

/-- Table T15. -/
theorem test_decode_reserved_opcodes : ∀ op ∈ [0x00, 0x05, 0x0F, 0x12, 0x24, 0x3A, 0x42, 0xFF],
    decode ⟨op, []⟩ = .error .reservedOpcode := by decide

/-- Tables T1, T5, T10, T12, T14: an operand word with a bit its kind requires zero. -/
theorem test_decode_reserved_bits : ∀ c ∈ [(⟨0x02, [0x00000100]⟩ : Encoded), ⟨0x10, [0x15, 0x80, 0x000186A0]⟩,
    ⟨0x23, [0, 0, 0, 2, 0, 0, 0, 0, 0]⟩, ⟨0x23, [256, 0, 0, 0, 0, 0, 0, 0, 0]⟩, ⟨0x31, [2]⟩, ⟨0x37, [4]⟩,
    ⟨0x41, [0, 1, 0x1AA]⟩], decode c = .error .reservedOperandBits := by decide

/-- Table T14: length 3 and two data words. -/
theorem test_decode_short_setram : decode ⟨0x41, [0, 3, 1, 2]⟩ = .error .shortCommand := by decide

/-- The host's numbering: the opcode in bits 7-0, operand word 0 in bits 39-8; bits above `nbits` are 0. -/
theorem test_decodeTableWord : decodeTableWord 40 0x2D01 = some (.tobcd 45) ∧
    decodeTableWord 8 0x2D01 = some (.tobcd 0) ∧ decodeTableWord 8 0x41 = some (.setram 0 []) ∧
    decodeTableWord 8 0x42 = none := by decide

theorem test_withFetchWord_runs_next : response (step (State.reset.withFetchWord 40 0x3702)) = some (.ok, [37]) := by
  decide

/-! ## One step of each command -/

/-- The status codes (R27). -/
theorem test_status_codes : [Status.ok, .invalidArgument, .outOfMemory, .busError].map Status.code = [0, 1, 2, 3] := by
  decide

/-- T1. -/
theorem test_tobcd : response (exec (.tobcd 45) State.reset) = some (.ok, [0x45]) := by decide
theorem test_tobcd_last : response (exec (.tobcd 99) State.reset) = some (.ok, [0x99]) := by decide
theorem test_frombcd : response (exec (.frombcd 0x59) State.reset) = some (.ok, [59]) := by decide
theorem test_frombcd_malformed : response (exec (.frombcd 0xFF) State.reset) = some (.ok, [165]) := by decide

/-- T3, T4. -/
theorem test_dec12h_malformed : response (exec (.dec12h 0x7F) State.reset) = some (.ok, [37]) := by decide
theorem test_dec12h_noon : response (exec (.dec12h 0x72) State.reset) = some (.ok, [12]) := by decide
theorem test_enc12h_midnight : response (exec (.enc12h 0) State.reset) = some (.ok, [0x52]) := by decide
theorem test_enc12h_overlap : response (exec (.enc12h 45) State.reset) = some (.ok, [0x73]) := by decide

/-- T5. -/
theorem test_config_negative : (after (exec (.config (-1) 0x68 100000) (bare [] [] [.ok 7]))).cfg =
    { configured := true, yearBase := -2000, dev := 0x68, speed := 100000, bus := some 7 } := by decide
theorem test_config_overflow :
    faultOf (exec (.config 21474857 0x68 100000) (bare [] [] [.ok 7])) = some .arithOverflow := by decide
theorem test_deconfig : (after (exec .deconfig (release .ok))).cfg.configured = false := by decide
theorem test_deconfig_unconfigured : response (exec .deconfig State.reset) = some (.invalidArgument, []) := by decide

/-- T6. -/
theorem test_gettime_noon : response (exec .gettime (scene [0x59, 0x59, 0x72, 0x07, 0x31, 0x12, 0x99] 100 [good])) =
    some (.ok, [59, 59, 12, 31, 11, 199, 6]) := by decide
theorem test_gettime_malformed : response (exec .gettime (scene [0xFF, 0xFF, 0xBF, 0xFF, 0xFF, 0xFF, 0xFF] 100 [good])) =
    some (.ok, [85, 85, 45, 45, 24, 265, 6]) := by decide

/-- T7. -/
theorem test_settime_keeps_CH_and_mode : bytesAt (after (exec (.settime ⟨5, 7, 15, 29, 1, 124, 4⟩)
    (scene [0x80, 0, 0x40] 100 [good, good]))) 0 7 = [0x85, 0x07, 0x63, 0x05, 0x29, 0x02, 0x24] := by decide
theorem test_settime_negative_year : bytesAt (after (exec (.settime ⟨0, 0, 0, 1, 0, -1, 0⟩)
    (scene [0, 0, 0] 100 [good, good]))) 0 7 = [0, 0, 0, 1, 1, 1, 0x99] := by decide

/-- T9. -/
theorem test_getraw : response (exec .getraw (scene [0xB5, 0, 0x63, 2, 0x10, 3, 0x25] 100 [good])) =
    some (.ok, [35, 0, 3, 1, 1, 2, 10, 3, 25]) := by decide
theorem test_getraw_bcd :
    response (exec .getraw { scene [0, 0, 0x63, 2, 0x10, 3, 0x25] 100 [good] with coding := .bcd }) =
    some (.ok, [0, 0, 3, 1, 1, 2, 0x10, 3, 0x25]) := by decide

/-- T10. -/
theorem test_setraw : bytesAt (after (exec (.setraw ⟨59, 0, 11, true, false, 7, 31, 12, 99⟩)
    (scene [0xA3] 100 [good, good]))) 0 7 = [0xD9, 0x00, 0x51, 0x07, 0x31, 0x12, 0x99] := by decide
theorem test_setraw_masks : bytesAt (after (exec (.setraw ⟨99, 0, 45, false, false, 9, 0, 99, 0⟩)
    (scene [0] 100 [good, good]))) 0 7 = [0x19, 0x00, 0x05, 0x01, 0x00, 0x19, 0x00] := by decide

/-- T11. -/
theorem test_gethalt : response (exec .gethalt (scene [0xB0] 100 [good])) = some (.ok, [1]) := by decide
theorem test_getout : response (exec .getout (scene [0, 0, 0, 0, 0, 0, 0, 0x13] 100 [good])) = some (.ok, [0]) := by decide
theorem test_getsqwe : response (exec .getsqwe (scene [0, 0, 0, 0, 0, 0, 0, 0x93] 100 [good])) = some (.ok, [1]) := by
  decide
theorem test_getrate : response (exec .getrate (scene [0, 0, 0, 0, 0, 0, 0, 0x12] 100 [good])) = some (.ok, [2]) := by
  decide
theorem test_get12h : response (exec .get12h (scene [0, 0, 0x63] 100 [good])) = some (.ok, [1]) := by decide

/-- T12. -/
theorem test_sethalt : bytesAt (after (exec (.sethalt true) (scene [0x30] 100 [good, good]))) 0 1 = [0xB0] := by decide
theorem test_sethalt_skips : (after (exec (.sethalt true) (scene [0xB0] 100 [good, good]))).shapes = [.read 0 1] := by
  decide
theorem test_setout : bytesAt (after (exec (.setout true) (scene [0, 0, 0, 0, 0, 0, 0, 0x13] 100 [good, good]))) 7 1 =
    [0x93] := by decide
theorem test_setsqwe : bytesAt (after (exec (.setsqwe false) (scene [0, 0, 0, 0, 0, 0, 0, 0x93] 100 [good, good]))) 7 1 =
    [0x83] := by decide
theorem test_setrate_writes_reserved_back : bytesAt (after (exec (.setrate 1)
    (scene [0, 0, 0, 0, 0, 0, 0, 0x02] 100 [⟨[], .ok, [0x6C]⟩, good]))) 7 1 = [0x6D] := by decide
theorem test_setrate_keeps_OUT_and_SQWE : bytesAt (after (exec (.setrate 3)
    (scene [0, 0, 0, 0, 0, 0, 0, 0x90] 100 [good, good]))) 7 1 = [0x93] := by decide

/-- T13. -/
theorem test_set12h_clears_bit7 : bytesAt (after (exec (.set12h true)
    (scene [0, 0, 0x95] 100 [⟨[], .ok, [0x80]⟩, good]))) 2 1 = [0x63] := by decide
theorem test_set12h_malformed : bytesAt (after (exec (.set12h false) (scene [0, 0, 0x7F] 100 [good, good]))) 2 1 =
    [0x37] := by decide

/-- T14. -/
theorem test_getram_boundary : response (exec (.getram 55 1) (scene (List.replicate 63 0 ++ [0x5A]) 100 [good])) =
    some (.ok, [0x5A]) := by decide
theorem test_getram_no_wrap : response (exec (.getram 0xFFFFFFFF 1) (scene [] 100 [good])) =
    some (.invalidArgument, []) := by decide
theorem test_setram : bytesAt (after (exec (.setram 0 [0xAA, 0x55]) (scene [] 100 [good]))) 7 4 = [0, 0xAA, 0x55, 0] := by
  decide
theorem test_setram_out_of_range : response (exec (.setram 55 [1, 2]) (scene [] 100 [good])) =
    some (.invalidArgument, []) := by decide

/-- T15: the mark on the instance comes before the base, the transaction before the year sum. -/
theorem test_order_config :
    refusedAs (exec (.config 21474857 0x68 100000) (scene [] 100 [])) = some .alreadyConfigured := by decide
theorem test_order_gettime : response (exec .gettime (scene [0, 0, 0, 1, 1, 1, 0x48] 2147483600 [bad])) =
    some (.busError, []) := by decide

/-! ## Witnesses: for each obligation with hypotheses, a state and operands that meet them, clause by clause -/

/-- Instance 0 with base 100 (`year_base` of century 21), image 0x00-0x07 as given, two transactions that succeed. -/
def ready : State := scene [0x80, 0, 0x15, 1, 1, 1, 0x25, 0x90] 100 [good, good, good]

theorem ready_inv : ready.Inv := scene_inv _ _ _ (by decide)

/-- The same, its first transaction failing. -/
def broken : State := scene [0x80, 0, 0x15, 1, 1, 1, 0x25, 0x90] 100 [bad]

/-- The same, its second transaction failing. -/
def torn : State := scene [0x80, 0, 0x15, 1, 1, 1, 0x25, 0x90] 100 [good, bad]

/-- Nothing configured, an attach that succeeds. -/
def fresh : State := bare [] [] [.ok 7]

theorem fresh_inv : fresh.Inv := bare_inv _ _ _

theorem ready_undisturbed : ready.Undisturbed := by
  refine ⟨?_, ?_, ?_, ?_⟩ <;> intro w hw <;> exact absurd hw (List.not_mem_nil)

/-- The three kinds of state that the outcome statements tell apart, the last by its second transaction. -/
theorem clauses : fresh.Inv ∧ fresh.cfg.configured = false ∧ broken.Inv ∧ broken.cfg.configured = true ∧
    broken.txn.outcome = .fail ∧ ready.Inv ∧ ready.cfg.configured = true ∧ ready.txn.outcome = .ok ∧
    ready.secondTxn.outcome = .ok ∧ torn.Inv ∧ torn.cfg.configured = true ∧ torn.txn.outcome = .ok ∧
    torn.secondTxn.outcome = .fail :=
  ⟨fresh_inv, by decide, scene_inv _ _ _ (by decide), by decide, by decide, ready_inv, by decide, by decide, by decide,
   scene_inv _ _ _ (by decide), by decide, by decide, by decide⟩

theorem test_witness_TobcdReportsBcdByte : fresh.Inv ∧ (0 ≤ (99 : Word).toInt ∧ (99 : Word).toInt ≤ 99) ∧
    ¬(0 ≤ (100 : Word).toInt ∧ (100 : Word).toInt ≤ 99) ∧ ¬(0 ≤ (-1 : Word).toInt ∧ (-1 : Word).toInt ≤ 99) :=
  ⟨fresh_inv, by decide, by decide, by decide⟩

theorem test_witness_FrombcdReportsNumber : fresh.Inv := fresh_inv
theorem test_witness_Dec12hReportsHour : fresh.Inv := fresh_inv

theorem test_witness_Enc12hReportsHourByte : fresh.Inv ∧ (0 ≤ (23 : Word).toInt ∧ (23 : Word).toInt ≤ 23) ∧
    (0 ≤ (111 : Word).toInt ∧ (111 : Word).toInt ≤ 111) ∧ (-1 : Word).toInt < 0 ∧
    (112 ≤ (112 : Word).toInt ∧ 12 ≤ (112 : Word).toInt) :=
  ⟨fresh_inv, by decide, by decide, by decide, by decide⟩

theorem test_witness_CodecCommandsTouchOnlyResponse :
    fresh.Inv ∧ Instr.enc12h 5 ∈ [Instr.tobcd 5, Instr.frombcd 0, Instr.dec12h 0, Instr.enc12h 5] :=
  ⟨fresh_inv, by decide⟩

theorem test_witness_CodecLaws : 99 ≤ 99 ∧ 23 ≤ 23 ∧ ((0x99 : Byte).toNat / 16 ≤ 9 ∧ (0x99 : Byte).toNat % 16 ≤ 9) ∧
    (1 ≤ 12 ∧ 12 ≤ 12 ∧ (0x72 : Byte).toNat = 96 + bcd 12) ∧ (0x52 : Byte).toNat = 64 + bcd 12 ∧
    encode12Hour 23 0 = encode12Hour 23 0 := by decide

/-- The two centuries beyond the range, the two at its ends (T5), and the three outcomes of the attach. -/
theorem test_witness_ConfigOutcomes : ready.Inv ∧ ready.cfg.configured = true ∧ fresh.Inv ∧
    fresh.cfg.configured = false ∧ 2 ^ 31 - 1 < ((21474857 : Word).toInt - 20) * 100 ∧
    ((-21474818 : Word).toInt + 1 - 20) * 100 < -2 ^ 31 ∧ ((21474856 : Word).toInt - 20) * 100 ≤ 2 ^ 31 - 1 ∧
    -2 ^ 31 ≤ ((-21474817 : Word).toInt + 1 - 20) * 100 ∧ fresh.attachOutcome = .ok 7 ∧
    ((bare [] [] [.attachFail]).Inv ∧ (bare [] [] [.attachFail]).cfg.configured = false ∧
      (bare [] [] [.attachFail]).attachOutcome = .attachFail) ∧
    ((bare [] [] [.allocFail 7]).Inv ∧ (bare [] [] [.allocFail 7]).cfg.configured = false ∧
      (bare [] [] [.allocFail 7]).attachOutcome = .allocFail 7) :=
  ⟨ready_inv, by decide, fresh_inv, by decide, by decide, by decide, by decide, by decide, by decide,
   ⟨bare_inv _ _ _, by decide, by decide⟩, bare_inv _ _ _, by decide, by decide⟩

theorem test_witness_ConfigCompletesInCenturyRange : fresh.Inv ∧ fresh.cfg.configured = false ∧
    fresh.attachOutcome = .ok 7 ∧ -21474817 ≤ (-21474817 : Word).toInt ∧ (-21474817 : Word).toInt ≤ 21474856 ∧
    (21474856 : Word).toInt ≤ 21474856 :=
  ⟨fresh_inv, by decide, by decide, by decide, by decide, by decide⟩

theorem test_witness_DeconfigOutcomes : fresh.Inv ∧ fresh.cfg.configured = false ∧ (release .ok).Inv ∧
    (release .ok).cfg.configured = true ∧ (release .ok).detachOutcome = .ok ∧ (release .fail).Inv ∧
    (release .fail).cfg.configured = true ∧ (release .fail).detachOutcome = .fail :=
  ⟨fresh_inv, by decide, release_inv _, by decide, by decide, release_inv _, by decide, by decide⟩

/-- The year sum at the largest value that fits and one beyond (T6). -/
theorem test_witness_GettimeOutcomes :
    (fresh.Inv ∧ fresh.cfg.configured = false) ∧
    (broken.Inv ∧ broken.cfg.configured = true ∧ broken.txn.outcome = .fail) ∧
    ((scene [0, 0, 0, 1, 1, 1, 0x47] 2147483600 [good]).Inv ∧
      (scene [0, 0, 0, 1, 1, 1, 0x47] 2147483600 [good]).txn.outcome = .ok ∧
      (scene [0, 0, 0, 1, 1, 1, 0x47] 2147483600 [good]).cfg.yearBase.toInt +
        unbcd ((scene [0, 0, 0, 1, 1, 1, 0x47] 2147483600 [good]).imageNow.get 6).toNat ≤ 2 ^ 31 - 1) ∧
    ((scene [0, 0, 0, 1, 1, 1, 0x48] 2147483600 [good]).Inv ∧
      (scene [0, 0, 0, 1, 1, 1, 0x48] 2147483600 [good]).txn.outcome = .ok ∧
      2 ^ 31 - 1 < (scene [0, 0, 0, 1, 1, 1, 0x48] 2147483600 [good]).cfg.yearBase.toInt +
        unbcd ((scene [0, 0, 0, 1, 1, 1, 0x48] 2147483600 [good]).imageNow.get 6).toNat) :=
  ⟨⟨fresh_inv, by decide⟩, ⟨scene_inv _ _ _ (by decide), by decide, by decide⟩,
   ⟨scene_inv _ _ _ (by decide), by decide, by decide⟩, scene_inv _ _ _ (by decide), by decide, by decide⟩

/-- A calendar time at the upper ends of its ranges. -/
def lastSecond : CalendarTime := { sec := 59, min := 59, hour := 23, mday := 31, mon := 11, year := 199, wday := 6 }

theorem lastSecond_legal : (0 ≤ lastSecond.sec.toInt ∧ lastSecond.sec.toInt ≤ 59) ∧
    (0 ≤ lastSecond.min.toInt ∧ lastSecond.min.toInt ≤ 59) ∧ (0 ≤ lastSecond.hour.toInt ∧ lastSecond.hour.toInt ≤ 23) ∧
    (0 ≤ lastSecond.wday.toInt ∧ lastSecond.wday.toInt ≤ 6) ∧ (1 ≤ lastSecond.mday.toInt ∧ lastSecond.mday.toInt ≤ 31) ∧
    (0 ≤ lastSecond.mon.toInt ∧ lastSecond.mon.toInt ≤ 11) := by decide

theorem test_witness_SettimeOutcomes : (fresh.Inv ∧ fresh.cfg.configured = false) ∧
    (broken.Inv ∧ broken.cfg.configured = true ∧ broken.txn.outcome = .fail) ∧
    (torn.Inv ∧ torn.cfg.configured = true ∧ torn.txn.outcome = .ok ∧ torn.secondTxn.outcome = .fail) ∧
    (ready.Inv ∧ ready.cfg.configured = true ∧ ready.txn.outcome = .ok ∧ ready.secondTxn.outcome = .ok) ∧
    lastSecond.sec.toInt ≤ 59 ∧ lastSecond.hour.toInt ≤ 23 ∧ lastSecond.mday.toInt ≤ 31 :=
  ⟨⟨fresh_inv, by decide⟩, ⟨scene_inv _ _ _ (by decide), by decide, by decide⟩,
   ⟨scene_inv _ _ _ (by decide), by decide, by decide, by decide⟩, ⟨ready_inv, by decide, by decide, by decide⟩,
   by decide, by decide, by decide⟩

theorem test_witness_SetTimeThenGetTimeReturnsRecord : ready.Inv ∧ ready.cfg.configured = true ∧
    ready.cfg.yearBase.toInt ≤ lastSecond.year.toInt ∧ lastSecond.year.toInt ≤ ready.cfg.yearBase.toInt + 99 ∧
    ready.txn.outcome = .ok ∧ ready.secondTxn.outcome = .ok ∧
    (after (exec (.settime lastSecond) ready)).txn.outcome = .ok ∧
    (∀ a, a < 7 → (after (exec (.settime lastSecond) ready)).imageNow.get a =
      (after (exec (.settime lastSecond) ready)).mem.get a) :=
  ⟨ready_inv, by decide, by decide, by decide, by decide, by decide, by decide, by decide⟩

theorem test_witness_GetrawOutcomes : (fresh.Inv ∧ fresh.cfg.configured = false) ∧
    (broken.Inv ∧ broken.cfg.configured = true ∧ broken.txn.outcome = .fail) ∧
    (ready.Inv ∧ ready.cfg.configured = true ∧ ready.txn.outcome = .ok) :=
  ⟨⟨fresh_inv, by decide⟩, ⟨scene_inv _ _ _ (by decide), by decide, by decide⟩, ready_inv, by decide, by decide⟩

/-- A raw record at the upper ends of its ranges, in 12-hour mode. -/
def lastRaw : RawData :=
  { seconds := 59, minutes := 59, hours := 12, hour12 := true, pm := true, day := 7, date := 31, month := 12, year := 99 }

/-- The same in BCD bits. -/
def lastRawBcd : RawData :=
  { seconds := 0x59, minutes := 0x59, hours := 0x12, hour12 := true, pm := true, day := 7, date := 0x31, month := 0x12,
    year := 0x99 }

theorem test_witness_SetrawOutcomes : (fresh.Inv ∧ fresh.cfg.configured = false) ∧
    (broken.Inv ∧ broken.cfg.configured = true ∧ broken.txn.outcome = .fail) ∧
    (torn.Inv ∧ torn.cfg.configured = true ∧ torn.txn.outcome = .ok ∧ torn.secondTxn.outcome = .fail) ∧
    (ready.Inv ∧ ready.cfg.configured = true ∧ ready.txn.outcome = .ok ∧ ready.secondTxn.outcome = .ok) ∧
    lastRaw.year.toNat ≤ 99 ∧ 99 < (100 : Byte).toNat :=
  ⟨⟨fresh_inv, by decide⟩, ⟨scene_inv _ _ _ (by decide), by decide, by decide⟩,
   ⟨scene_inv _ _ _ (by decide), by decide, by decide, by decide⟩, ⟨ready_inv, by decide, by decide, by decide⟩,
   by decide, by decide⟩

theorem test_witness_SetRawThenGetRawReturnsRecord : ready.Inv ∧ ready.cfg.configured = true ∧ ready.coding = .decimal ∧
    (lastRaw.seconds.toNat ≤ 59 ∧ lastRaw.minutes.toNat ≤ 59 ∧ 1 ≤ lastRaw.hours.toNat ∧ lastRaw.hours.toNat ≤ 12 ∧
      lastRaw.day.toNat ≤ 7 ∧ lastRaw.date.toNat ≤ 31 ∧ lastRaw.month.toNat ≤ 12 ∧ lastRaw.year.toNat ≤ 99) ∧
    (∀ v ∈ [lastRawBcd.seconds, lastRawBcd.minutes, lastRawBcd.hours, lastRawBcd.day, lastRawBcd.date, lastRawBcd.month,
      lastRawBcd.year], v.toNat / 16 ≤ 9 ∧ v.toNat % 16 ≤ 9) ∧
    (unbcd lastRawBcd.hours.toNat ≤ 12 ∧ unbcd lastRawBcd.year.toNat ≤ 99) ∧
    ready.txn.outcome = .ok ∧ ready.secondTxn.outcome = .ok ∧
    (after (exec (.setraw lastRaw) ready)).txn.outcome = .ok ∧
    (∀ a, a < 7 → (after (exec (.setraw lastRaw) ready)).imageNow.get a = (after (exec (.setraw lastRaw) ready)).mem.get a) :=
  ⟨ready_inv, by decide, by decide, by decide, by decide, by decide, by decide, by decide, by decide, by decide⟩

theorem test_witness_GetterOutcomes : (fresh.Inv ∧ fresh.cfg.configured = false) ∧
    (broken.Inv ∧ broken.cfg.configured = true ∧ broken.txn.outcome = .fail) ∧
    (ready.Inv ∧ ready.cfg.configured = true ∧ ready.txn.outcome = .ok) := test_witness_GetrawOutcomes

/-- SETHALT 1 finds CH set and skips; SETHALT 0 finds it set and writes. -/
theorem test_witness_SetterOutcomes : (fresh.Inv ∧ fresh.cfg.configured = false) ∧
    (broken.Inv ∧ broken.cfg.configured = true ∧ broken.txn.outcome = .fail) ∧
    (ready.Inv ∧ ready.cfg.configured = true ∧ ready.txn.outcome = .ok ∧ ready.secondTxn.outcome = .ok) ∧
    ready.imageNow.get 0 &&& 0x80 = 0x80 ∧ ready.imageNow.get 0 &&& 0x80 ≠ 0x00 ∧
    (torn.Inv ∧ torn.txn.outcome = .ok ∧ torn.imageNow.get 0 &&& 0x80 ≠ 0x00 ∧ torn.secondTxn.outcome = .fail) :=
  ⟨⟨fresh_inv, by decide⟩, ⟨scene_inv _ _ _ (by decide), by decide, by decide⟩,
   ⟨ready_inv, by decide, by decide, by decide⟩, by decide, by decide, scene_inv _ _ _ (by decide), by decide, by decide,
   by decide⟩

theorem test_witness_SettersStoreTheirFieldOnly : ready.Inv ∧ ready.cfg.configured = true ∧ ready.Undisturbed ∧
    ready.txn.outcome = .ok ∧ ready.secondTxn.outcome = .ok :=
  ⟨ready_inv, by decide, ready_undisturbed, by decide, by decide⟩

theorem test_witness_RepeatedSetHaltSkipsTheWrite : ready.Inv ∧ ready.cfg.configured = true ∧
    exec (.sethalt false) ready = .next (after (exec (.sethalt false) ready)) ∧
    (after (exec (.sethalt false) ready)).port.status = .ok ∧ (after (exec (.sethalt false) ready)).txn.outcome = .ok ∧
    ((after (exec (.sethalt false) ready)).imageNow.get 0).getLsbD 7 =
      ((after (exec (.sethalt false) ready)).mem.get 0).getLsbD 7 :=
  ⟨ready_inv, by decide, rfl, by decide, by decide, by decide⟩

/-- The hours byte 0x15 is in 24-hour mode: SET12H 0 skips, SET12H 1 writes. -/
theorem test_witness_Set12hOutcomes : (fresh.Inv ∧ fresh.cfg.configured = false) ∧
    (broken.Inv ∧ broken.cfg.configured = true ∧ broken.txn.outcome = .fail) ∧
    (ready.Inv ∧ ready.cfg.configured = true ∧ ready.txn.outcome = .ok ∧ ready.secondTxn.outcome = .ok ∧
      (ready.imageNow.get 2).toNat / 64 % 2 = 0 ∧ (ready.imageNow.get 2).toNat / 64 % 2 ≠ 1) ∧
    (torn.Inv ∧ torn.txn.outcome = .ok ∧ (torn.imageNow.get 2).toNat / 64 % 2 ≠ 1 ∧ torn.secondTxn.outcome = .fail) :=
  ⟨⟨fresh_inv, by decide⟩, ⟨scene_inv _ _ _ (by decide), by decide, by decide⟩,
   ⟨ready_inv, by decide, by decide, by decide, by decide, by decide⟩, scene_inv _ _ _ (by decide), by decide, by decide,
   by decide⟩

theorem test_witness_ModeSwitchKeepsHour : LegalHours 0x23 ∧ LegalHours 0x52 ∧ LegalHours 0x72 :=
  ⟨.inl ⟨23, by decide⟩, .inr ⟨12, by decide⟩, .inr ⟨12, by decide⟩⟩

theorem test_witness_Set12hThenReadsShowModeAndHour : ready.Inv ∧ ready.cfg.configured = true ∧
    exec (.set12h true) ready = .next (after (exec (.set12h true) ready)) ∧
    (after (exec (.set12h true) ready)).port.status = .ok ∧ (after (exec (.set12h true) ready)).txn.outcome = .ok ∧
    (after (exec (.set12h true) ready)).imageNow.get 2 = (after (exec (.set12h true) ready)).mem.get 2 ∧
    ready.Undisturbed ∧ LegalHours (ready.mem.get 2) ∧ ready.coding = .decimal :=
  ⟨ready_inv, by decide, rfl, by decide, by decide, by decide, ready_undisturbed, .inl ⟨15, by decide⟩, by decide⟩

/-- The bound is inclusive (S7): 40 + 16 is in, 50 + 10 and 57 + 0 are out; 56 + 0 is in. -/
theorem test_witness_GetramOutcomes : fresh.Inv ∧ fresh.cfg.configured = false ∧ ready.Inv ∧
    ready.cfg.configured = true ∧ 56 < (50 : Word).toNat + (10 : Word).toNat ∧ 56 < (57 : Word).toNat + (0 : Word).toNat ∧
    (40 : Word).toNat + (16 : Word).toNat ≤ 56 ∧ (56 : Word).toNat + (0 : Word).toNat ≤ 56 ∧ ready.txn.outcome = .ok ∧
    broken.Inv ∧ broken.cfg.configured = true ∧ broken.txn.outcome = .fail :=
  ⟨fresh_inv, by decide, ready_inv, by decide, by decide, by decide, by decide, by decide, by decide,
   scene_inv _ _ _ (by decide), by decide, by decide⟩

theorem test_witness_SetramOutcomes : fresh.Inv ∧ fresh.cfg.configured = false ∧ ready.Inv ∧
    ready.cfg.configured = true ∧ 56 < (55 : Word).toNat + ([1, 2] : List Byte).length ∧
    (54 : Word).toNat + ([1, 2] : List Byte).length ≤ 56 ∧ (56 : Word).toNat + ([] : List Byte).length ≤ 56 ∧
    ready.txn.outcome = .ok ∧ broken.Inv ∧ broken.cfg.configured = true ∧ broken.txn.outcome = .fail :=
  ⟨fresh_inv, by decide, ready_inv, by decide, by decide, by decide, by decide, by decide, scene_inv _ _ _ (by decide),
   by decide, by decide⟩

theorem test_witness_SetRamThenGetRamReturnsBytes : ready.Inv ∧ ready.cfg.configured = true ∧
    (54 : Word).toNat + ([1, 2] : List Byte).length ≤ 56 ∧
    exec (.setram 54 [1, 2]) ready = .next (after (exec (.setram 54 [1, 2]) ready)) ∧
    (after (exec (.setram 54 [1, 2]) ready)).port.status = .ok ∧
    (after (exec (.setram 54 [1, 2]) ready)).txn.outcome = .ok ∧
    (∀ a, a < 64 → (after (exec (.setram 54 [1, 2]) ready)).imageNow.get a =
      (after (exec (.setram 54 [1, 2]) ready)).mem.get a) :=
  ⟨ready_inv, by decide, by decide, rfl, by decide, by decide, by decide⟩

theorem test_witness_ReadsReturnStoredBits : 7 < 8 := by decide
theorem test_witness_ReservedBitsAreThese : 0 < 8 := by decide

/-- A SETSQWE 0 that ends OK stores its byte; bytes 6 and 8 are outside it. -/
theorem test_witness_CommandsStoreOnlyTheirBytes : ready.Inv ∧
    exec (.setsqwe false) ready = .next (after (exec (.setsqwe false) ready)) ∧
    6 < (storedBytes (.setsqwe false)).1 ∧ (storedBytes (.setsqwe false)).1 + (storedBytes (.setsqwe false)).2 ≤ 8 :=
  ⟨ready_inv, rfl, by decide, by decide⟩

/-- A read that fails, a SETRAM whose write fails, and a SETTIME whose second transaction fails. -/
theorem test_witness_FailedTransactionEndsBusError :
    (broken.Inv ∧ exec .gettime broken = .next (after (exec .gettime broken)) ∧ broken.txn.outcome = .fail ∧
      (after (exec .gettime broken)).shapes.length - broken.shapes.length = 1) ∧
    (exec (.setram 0 [1]) broken = .next (after (exec (.setram 0 [1]) broken)) ∧
      (after (exec (.setram 0 [1]) broken)).shapes.length - broken.shapes.length = 1) ∧
    (torn.Inv ∧ exec (.settime lastSecond) torn = .next (after (exec (.settime lastSecond) torn)) ∧
      torn.secondTxn.outcome = .fail ∧
      (after (exec (.settime lastSecond) torn)).shapes.length - torn.shapes.length = 2) :=
  ⟨⟨scene_inv _ _ _ (by decide), rfl, by decide, by decide⟩, ⟨rfl, by decide⟩, scene_inv _ _ _ (by decide), rfl,
   by decide, by decide⟩

theorem test_witness_EachFamilyKeepsToItsRegisters : ready.Inv ∧ ready.Undisturbed ∧
    exec (.settime lastSecond) ready = .next (after (exec (.settime lastSecond) ready)) ∧
    exec (.setram 0 [1]) ready = .next (after (exec (.setram 0 [1]) ready)) ∧ 8 ≤ 8 ∧ 7 < 8 ∧
    (∀ o bs, Instr.settime lastSecond ≠ .setram o bs) :=
  ⟨ready_inv, ready_undisturbed, rfl, rfl, by decide, by decide, fun _ _ h => by cases h⟩

theorem test_witness_ClockHaltAndModeArePreserved : ready.Inv ∧ ready.Undisturbed ∧
    exec (.settime lastSecond) ready = .next (after (exec (.settime lastSecond) ready)) ∧
    (0 ≤ lastSecond.sec.toInt ∧ lastSecond.sec.toInt ≤ 59) ∧ (0 ≤ lastSecond.hour.toInt ∧ lastSecond.hour.toInt ≤ 23) ∧
    ready.txn.outcome = .ok ∧ ready.secondTxn.outcome = .ok :=
  ⟨ready_inv, ready_undisturbed, rfl, by decide, by decide, by decide, by decide⟩

theorem test_witness_TransactionsAreTheTables : ready.Inv ∧
    exec (.settime lastSecond) ready = .next (after (exec (.settime lastSecond) ready)) ∧
    (after (exec (.settime lastSecond) ready)).port.status = .ok ∧ maySkip (.settime lastSecond) = false ∧
    exec (.sethalt true) ready = .next (after (exec (.sethalt true) ready)) ∧
    (after (exec (.sethalt true) ready)).port.status = .ok ∧ maySkip (.sethalt true) = true :=
  ⟨ready_inv, rfl, by decide, by decide, rfl, by decide, by decide⟩

/-- A SETRAM 0, [1] records one write that succeeded; a SETSQWE 0 whose write fails records the byte read and the failure;
CONFIG records its attach, and the release where the allocation fails; DECONFIG records the detach of what it held. -/
theorem test_witness_RecordShowsTheCommandsTransactions :
    (ready.Inv ∧ exec (.setram 0 [1]) ready = .next (after (exec (.setram 0 [1]) ready)) ∧
      (after (exec (.setram 0 [1]) ready)).busLog = [⟨0, .memWrite 0x68 (some 7) 8 [1] .ok⟩]) ∧
    (torn.Inv ∧ exec (.setsqwe false) torn = .next (after (exec (.setsqwe false) torn)) ∧
      (after (exec (.setsqwe false) torn)).busLog =
        [⟨0, .memRead 0x68 (some 7) 7 1 (some [0x90])⟩, ⟨0, .memWrite 0x68 (some 7) 7 [0x80] .fail⟩]) ∧
    (fresh.Inv ∧ exec (.config 21 0x68 9) fresh = .next (after (exec (.config 21 0x68 9) fresh)) ∧
      (after (exec (.config 21 0x68 9) fresh)).busLog = [⟨0, .attach 0x68 9 (some 7)⟩]) ∧
    ((bare [] [] [.attachFail]).Inv ∧
      (after (exec (.config 21 0x68 9) (bare [] [] [.attachFail]))).busLog = [⟨0, .attach 0x68 9 none⟩]) ∧
    ((bare [] [] [.allocFail 7]).Inv ∧ (after (exec (.config 21 0x68 9) (bare [] [] [.allocFail 7]))).busLog =
      [⟨0, .attach 0x68 9 (some 7)⟩, ⟨0, .detach (some 7) .ok⟩]) ∧
    ((release .fail).Inv ∧ (release .fail).cfg.configured = true ∧
      exec .deconfig (release .fail) = .next (after (exec .deconfig (release .fail))) ∧
      (after (exec .deconfig (release .fail))).busLog = [⟨0, .detach (some 7) .fail⟩]) :=
  ⟨⟨ready_inv, rfl, by decide⟩, ⟨scene_inv _ _ _ (by decide), rfl, by decide⟩, ⟨fresh_inv, rfl, by decide⟩,
   ⟨bare_inv _ _ _, by decide⟩, ⟨bare_inv _ _ _, by decide⟩, release_inv _, by decide, rfl, by decide⟩

theorem test_witness_NoHandleEndsInvalidArgument : fresh.Inv ∧ fresh.cfg.configured = false ∧
    needsHandle .deconfig = true ∧ needsHandle .gettime = true := ⟨fresh_inv, by decide, by decide, by decide⟩

theorem test_witness_OnlyLifecycleCommandsWriteHandles : ready.Inv ∧
    exec .gettime ready = .next (after (exec .gettime ready)) ∧ isLifecycle .gettime = false := ⟨ready_inv, rfl, by decide⟩

/-- `ready`, the host's next event given. -/
def ready' (e : HostEvent) : State := { ready with inbox := [e] }

theorem ready'_inv (e : HostEvent) : (ready' e).Inv :=
  { mem := ready_inv.mem, table := ready_inv.table, cfg := ready_inv.cfg, port := ready_inv.port,
    pending := ready_inv.pending, log := ready_inv.log }

theorem test_witness_YearBaseIsFixedWhileConfigured : (ready' (.command 0 ⟨0x20, []⟩)).Inv ∧
    step (ready' (.command 0 ⟨0x20, []⟩)) = .next (after (step (ready' (.command 0 ⟨0x20, []⟩)))) ∧
    ((ready' (.command 0 ⟨0x20, []⟩)).rcAt 0).cfg.configured = true ∧
    ((after (step (ready' (.command 0 ⟨0x20, []⟩)))).rcAt 0).cfg.configured = true :=
  ⟨ready'_inv _, rfl, by decide, by decide⟩

theorem test_witness_ResponsesHaveTheirShape : ready.Inv ∧ exec .getraw ready = .next (after (exec .getraw ready)) ∧
    (after (exec .getraw ready)).port.status = .ok ∧ broken.Inv ∧
    exec .getraw broken = .next (after (exec .getraw broken)) ∧ (after (exec .getraw broken)).port.status ≠ .ok :=
  ⟨ready_inv, rfl, by decide, scene_inv _ _ _ (by decide), rfl, by decide⟩

/-- Each cause: the two faults, the refusal, no handle, both RAM bounds, the allocation, the first and the second
transaction, the attach and the detach. -/
theorem test_witness_OutcomesHaveTheirCauses : fresh.Inv ∧ ready.Inv ∧ broken.Inv ∧ torn.Inv ∧ (release .fail).Inv ∧
    (bare [] [] [.allocFail 7]).Inv ∧ (bare [] [] [.attachFail]).Inv ∧
    faultOf (exec (.config 21474857 0x68 100000) fresh) = some .arithOverflow ∧
    faultOf (exec .gettime (scene [0, 0, 0, 1, 1, 1, 0x48] 2147483600 [good])) = some .arithOverflow ∧
    refusedAs (exec (.config 21 0x68 100000) ready) = some .alreadyConfigured ∧
    response (exec .gettime fresh) = some (.invalidArgument, []) ∧
    response (exec (.getram 50 10) ready) = some (.invalidArgument, []) ∧
    response (exec (.setram 55 [1, 2]) ready) = some (.invalidArgument, []) ∧
    response (exec (.config 21 0x68 100000) (bare [] [] [.allocFail 7])) = some (.outOfMemory, []) ∧
    response (exec .gettime broken) = some (.busError, []) ∧
    response (exec (.setsqwe false) torn) = some (.busError, []) ∧
    response (exec (.config 21 0x68 100000) (bare [] [] [.attachFail])) = some (.busError, []) ∧
    response (exec .deconfig (release .fail)) = some (.busError, []) :=
  ⟨fresh_inv, ready_inv, scene_inv _ _ _ (by decide), scene_inv _ _ _ (by decide), release_inv _, bare_inv _ _ _,
   bare_inv _ _ _, by decide, by decide, by decide, by decide, by decide, by decide, by decide, by decide, by decide,
   by decide, by decide⟩

/-! ### Two instances (R296) -/

/-- Instances 0 and 1 configured for one chip, the control register as given, the next event given, four transactions
that succeed. -/
def pair (control : Byte) (e : HostEvent) : State :=
  { scene [0, 0, 0, 0, 0, 0, 0, control] 100 [good, good, good, good] with
    insts := [(0, handle 100), (1, handle 100)], inbox := [e] }

theorem pair_inv (c : Byte) (e : HostEvent) : (pair c e).Inv where
  mem := image_wf _
  table := by simp [pair, Sparse.wfFrom, handle_ne]
  cfg k := by
    simp only [State.rcAt, pair, Sparse.get]
    split <;> (try split) <;> simp [handle, Rc.reset, Cfg.reset, Cfg.Inv]
  port k := by
    simp only [State.rcAt, pair, Sparse.get]
    split <;> (try split) <;> simp [handle, Rc.reset, Port.reset, Port.Inv]
  pending k p h := by
    simp only [State.rcAt, pair, Sparse.get] at h
    split at h <;> (try split at h) <;> simp [handle, Rc.reset] at h
  log := by simp [pair, scene, State.reset]

/-- An instance between the two transactions of a SETSQWE 1 that read 0x00. -/
def halfway : Rc :=
  { handle 100 with port := Port.reset.presented ⟨0x35, [1]⟩, pending := some ⟨7, [0x10]⟩ }

/-- Instance 0 halfway; instance 1 has set OUT since the read. -/
def midway (e : HostEvent) (t : Txn) : State :=
  { scene [0, 0, 0, 0, 0, 0, 0, 0x80] 100 [t] with
    insts := [(0, halfway), (1, handle 100)], inbox := [e] }

theorem midway_inv (e : HostEvent) (t : Txn) : (midway e t).Inv where
  mem := image_wf _
  table := by simp [midway, Sparse.wfFrom, handle_ne, show halfway ≠ Rc.reset by decide]
  cfg k := by
    simp only [State.rcAt, midway, Sparse.get]
    split <;> (try split) <;> simp [halfway, handle, Rc.reset, Cfg.reset, Cfg.Inv]
  port k := by
    simp only [State.rcAt, midway, Sparse.get]
    split <;> (try split) <;> simp [halfway, handle, Rc.reset, Port.reset, Port.Inv, Port.presented]
  pending k p h := by
    simp only [State.rcAt, midway, Sparse.get] at h ⊢
    split at h <;> (try split at h) <;> simp [halfway, handle, Rc.reset] at h
    next hk => subst h; simp [hk, Rc.InProgress, halfway, handle, Port.presented]
  log := by simp [midway, scene, State.reset]

/-- R78: SETSQWE 1 stops before its write, with the bytes to write computed from the byte read. -/
theorem test_start_holds_the_write :
    ((after (step (pair 0x80 (.start 0 ⟨0x35, [1]⟩)))).rcAt 0).pending = some ⟨7, [0x90]⟩ ∧
    (after (step (pair 0x80 (.start 0 ⟨0x35, [1]⟩)))).shapes = [.read 7 1] := by decide

/-- R331: the write of instance 0 undoes what instance 1 did to OUT after the read. -/
theorem test_finish_overwrites : bytesAt (after (step (midway (.finish 0) good))) 7 1 = [0x10] ∧
    response (step (midway (.finish 0) good)) = some (.ok, []) := by decide

theorem test_witness_StartThenFinishIsTheCommand : ready.Inv ∧ ready.rc.pending = none ∧
    startCommand (.setsqwe false) ready = .next (after (startCommand (.setsqwe false) ready)) ∧
    faultOf (startCommand (.config 21474857 0x68 9) fresh) = some .arithOverflow ∧
    refusedAs (startCommand (.config 21 0x68 9) ready) = some .alreadyConfigured :=
  ⟨ready_inv, by decide, rfl, by decide, by decide⟩

/-- SETSQWE 0 finds SQWE set and writes; SETSQWE 1 finds it set and skips. -/
theorem test_witness_StartedCommandStopsBeforeItsWrite : ready.Inv ∧ ready.rc.pending = none ∧
    txnTable (.setsqwe false) = [.read 7 1, .write 7 1] ∧
    exec (.setsqwe false) ready = .next (after (exec (.setsqwe false) ready)) ∧
    (after (exec (.setsqwe false) ready)).shapes = ready.shapes ++ [.read 7 1, .write 7 1] ∧
    (after (exec (.setsqwe true) ready)).shapes ≠ ready.shapes ++ [.read 7 1, .write 7 1] ∧
    exec (.setsqwe true) ready = .next (after (exec (.setsqwe true) ready)) :=
  ⟨ready_inv, by decide, by decide, rfl, by decide, by decide, rfl⟩

theorem test_witness_FinishIssuesTheWriteOwed : ∀ t ∈ [good, bad], (midway (.finish 0) t).Inv ∧
    ((midway (.finish 0) t).rcAt 0).pending = some ⟨7, [0x10]⟩ ∧ (midway (.finish 0) t).inbox = [.finish 0] ∧
    good.outcome = .ok ∧ bad.outcome = .fail :=
  fun t _ => ⟨midway_inv _ t, rfl, rfl, rfl, rfl⟩

/-- Instance 0 halfway, then a GETHALT of instance 1 and the turn of instance 0, two transactions that succeed. -/
def window : State :=
  { midway .restart good with
    inbox := [.command 1 ⟨0x30, []⟩, .finish 0], inputs := { Inputs.reset with txns := [good, good] } }

/-- The state `n` steps on. -/
def afterRun (s : State) (n : Nat) : State := after (Host.Core.run Sys2Proof.core n s)

/-- SOLE_WRITER holds of a run in which the other instance reads, not of one in which it writes (R75): a SETOUT 0 of
instance 1 in the same place finds OUT set and stores. -/
theorem test_soleWriter : (∀ i, i < window.txnsUntil (afterRun window 2) → SoleWriter (window.txnAt i)) ∧
    (∀ r ∈ window.recordedUntil (afterRun window 2), r.isWrite = true → r.rc = 0) ∧
    (∀ i, i < window.txnsUntil (afterRun window 2) → ClockStands (window.txnAt i)) ∧
    ¬({ window with inbox := [.command 1 ⟨0x33, [0]⟩] } : State).SoleWriterUntil
      (after (step { window with inbox := [.command 1 ⟨0x33, [0]⟩] })) 0 := by
  refine ⟨by unfold SoleWriter; decide, by decide, by unfold ClockStands; decide, fun h => ?_⟩
  exact absurd (h.instances ⟨1, .memWrite 0x68 (some 7) 7 [0x00] .ok⟩ (by decide) rfl) (by decide)

/-- A command for instance 1 goes on, one for instance 0 is stuck, and so is a reading of its response; and a run to the
turn of instance 0 under SOLE_WRITER. -/
theorem test_witness_CommandInProgressEndsByItsOwnTurn :
    (window.Inv ∧ (window.rcAt 0).pending = some ⟨7, [0x10]⟩ ∧
      window.inbox = [.command 1 ⟨0x30, []⟩] ++ .finish 0 :: [] ∧
      Host.Core.run Sys2Proof.core 2 window = .next (afterRun window 2) ∧
      window.SoleWriterUntil (afterRun window 2) 0 ∧ window.ClockStandsUntil (afterRun window 2)) ∧
    (∀ e, (midway e good).Inv) ∧ (∀ e, ((midway e good).rcAt 0).pending ≠ none) ∧
    step (midway (.command 1 ⟨0x30, []⟩) good) = .next (after (step (midway (.command 1 ⟨0x30, []⟩) good))) ∧
    decode ⟨0x30, []⟩ = .ok .gethalt ∧
    faultOf (step (midway (.command 0 ⟨0x30, []⟩) good)) = some .concurrentUse ∧
    faultOf (step (midway (.start 0 ⟨0x30, []⟩) good)) = some .concurrentUse ∧
    faultOf (step (midway (.readResponse 0) good)) = some .concurrentUse :=
  ⟨⟨{ mem := (midway_inv .restart good).mem, table := (midway_inv .restart good).table,
      cfg := (midway_inv .restart good).cfg, port := (midway_inv .restart good).port,
      pending := (midway_inv .restart good).pending, log := (midway_inv .restart good).log }, rfl, rfl, rfl,
    ⟨test_soleWriter.1, test_soleWriter.2.1⟩, test_soleWriter.2.2.1⟩,
   fun e => midway_inv e good, fun _ => by simp [State.rcAt, midway, Sparse.get, halfway], rfl, by decide, by decide, by decide, by decide⟩

theorem test_witness_InstancesInterleaveInEveryOrder : (pair 0 .restart).Inv ∧ 0 ≠ 1 ∧
    ((pair 0 .restart).rcAt 0).cfg.configured = true ∧ ((pair 0 .restart).rcAt 1).cfg.configured = true ∧
    ((pair 0 .restart).rcAt 0).pending = none ∧ ((pair 0 .restart).rcAt 1).pending = none ∧
    (pair 0 .restart).inputs.txns = [good, good, good, good] ∧ good.outcome = .ok :=
  ⟨pair_inv _ _, by decide, by decide, by decide, by decide, by decide, by decide, by decide⟩

theorem test_witness_RestartResetsBlockNotImage : (ready' .restart).inbox = .restart :: [] := rfl

theorem test_witness_ReadResponseClearsWords : (ready' (.readResponse 0)).Inv ∧
    (ready' (.readResponse 0)).inbox = .readResponse 0 :: [] ∧ ((ready' (.readResponse 0)).rcAt 0).pending = none :=
  ⟨ready'_inv _, rfl, by decide⟩

theorem test_witness_StepRunsDecodedCommand :
    (ready' (.command 0 ⟨0x37, [3]⟩)).inbox = .command 0 ⟨0x37, [3]⟩ :: [] ∧ decode ⟨0x37, [3]⟩ = .ok (.setrate 3) ∧
    ((ready' (.command 0 ⟨0x37, [3]⟩)).rcAt 0).pending = none ∧
    (ready' (.start 0 ⟨0x37, [3]⟩)).inbox = .start 0 ⟨0x37, [3]⟩ :: [] :=
  ⟨rfl, by decide, by decide, rfl⟩

theorem test_witness_PresentedCommandIsOnThePort : ready.Inv := ready_inv

theorem test_witness_BlockWaitsForTheHost : State.reset.inbox = [] ∧
    (ready' (.finish 0)).inbox = .finish 0 :: [] ∧ ((ready' (.finish 0)).rcAt 0).pending = none :=
  ⟨rfl, rfl, by decide⟩

/-- A refusal of each origin: at decode, and of CONFIG on a configured instance. -/
theorem test_witness_RefusedCommandChangesNothing : (ready' (.command 0 ⟨0x42, []⟩)).Inv ∧
    refusedAs (step (ready' (.command 0 ⟨0x42, []⟩))) = some .reservedOpcode ∧
    decode ⟨0x42, []⟩ = .error .reservedOpcode ∧
    refusedAs (step (ready' (.command 0 ⟨0x10, [21, 0x68, 100000]⟩))) = some .alreadyConfigured ∧
    decode ⟨0x10, [21, 0x68, 100000]⟩ = .ok (.config 21 0x68 100000) :=
  ⟨ready'_inv _, by decide, by decide, by decide, by decide⟩

theorem test_witness_DecodeOfEncode : (Instr.setram 0 [0xAA]).wellFormed = true ∧ Instr.gettime.wellFormed = true := by
  decide

theorem test_witness_EncodeOfDecode : decode ⟨0x41, [0, 1, 0xAA, 0xFFFFFFFF]⟩ = .ok (.setram 0 [0xAA]) := by decide

theorem test_witness_ReservedOpcodesAreRefused : (0x41 : Byte).toNat < 0x42 ∧ 0x42 ≤ (0x42 : Byte).toNat ∧
    (ready' (.command 0 ⟨0x42, []⟩)).inbox = .command 0 ⟨0x42, []⟩ :: [] := ⟨by decide, by decide, rfl⟩

/-- A BOOL word of 2, and a second data word of 256. -/
theorem test_witness_ReservedOperandBitsAreRefused :
    (Opcode.sethalt.operandCount [2] ≤ ([2] : List Word).length ∧ ([2] : List Word)[0]? = some 2 ∧
      kindLimit .bool ≤ (2 : Word).toNat ∧ Opcode.sethalt.kinds[0]? = some .bool) ∧
    (Opcode.setram.operandCount [0, 2, 0, 256] ≤ ([0, 2, 0, 256] : List Word).length ∧
      ([0, 2, 0, 256] : List Word)[3]? = some 256 ∧ kindLimit .byte ≤ (256 : Word).toNat ∧
      2 ≤ 3 ∧ 3 < Opcode.setram.operandCount [0, 2, 0, 256]) := by decide

theorem test_witness_ShortSetramIsRefused : ([1, 2] : List Word).length < (3 : Word).toNat := by decide

theorem test_witness_OpcodeFieldsSelect : opFam Opcode.setrate.byte = 3 ∧ opFam Opcode.setraw.byte = 2 ∧
    opFam Opcode.setram.byte = 4 := by decide

theorem test_witness_StepKeepsInvariant : (ready' (.command 0 ⟨0x21, lastSecond.words⟩)).Inv ∧
    step (ready' (.command 0 ⟨0x21, lastSecond.words⟩)) =
      .next (after (step (ready' (.command 0 ⟨0x21, lastSecond.words⟩)))) := ⟨ready'_inv _, rfl⟩

end Sys2Proof.Tests
end

section
/-! Proofs, 20_memory: which transactions a command issues, and what a failed one leaves (R66, R72). -/
namespace Sys2Proof.Machine

section
variable {i : Instr} {s t : State}

/-! ### What each end of a command adds to the record -/

/-- CONFIG's attach, and the release on a rollback, are no transactions of R66. -/
@[simp] theorem State.shapes_configure (s : State) (d : BitVec 7) (v yb : Word) :
    (s.configure d v yb).shapes = s.shapes := by
  unfold State.configure
  split <;> simp

/-- DECONFIG's detach is no transaction of R66. -/
@[simp] theorem State.shapes_deconfigure (s : State) : s.deconfigure.shapes = s.shapes := by
  unfold State.deconfigure
  simp only
  split <;> simp

/-- An error's status is not OK (R27). -/
theorem ErrorKind.status_ne_ok (e : ErrorKind) : e.status ≠ .ok := by cases e <;> decide

/-- A command that ended in an error did not end OK (R289). -/
theorem State.raise_status_ne_ok (h : t.tableWf) (e : ErrorKind) : (t.raise e).port.status ≠ .ok := by
  obtain ⟨-, hst, -⟩ := State.raise_reports h e
  rw [hst]
  exact e.status_ne_ok

/-- The transactions a command issues are the first part of its row; where it ends OK they are the row, or the read of a
setter that skips (R66, R213). -/
theorem Ends.shapes_prefix (h : Ends State.writeAndEnd i s t) (hs : s.tableWf) :
    ∃ l, t.shapes = s.shapes ++ l ∧ l <+: txnTable i ∧
      (t.port.status = .ok → l = txnTable i ∨ maySkip i = true ∧ l = (txnTable i).take 1) := by
  cases h with
  | noHandle | outOfRange =>
    exact ⟨[], by simp, List.nil_prefix, fun hok => absurd hok (State.raise_status_ne_ok hs _)⟩
  | readFailed a n rest hc hl ht =>
    have hq := (State.quiet_afterFailedRead s a n).tableWf hs
    exact ⟨[.read a n], by simp, by simp [ht], fun hok => absurd hok (State.raise_status_ne_ok hq _)⟩
  | readThenDone a n rest ws hc hl ht ha ho hw hk =>
    refine ⟨[.read a n], by simp, by simp [ht], fun _ => ?_⟩
    rcases hk with rfl | hskip
    · exact .inl ht.symm
    · exact .inr ⟨hskip, by simp [ht]⟩
  | readThenWrite a n k v hc hl ht => exact ⟨_, by simp [ht], List.prefix_rfl, fun _ => .inl rfl⟩
  | writeOnly o v hi => subst hi; exact ⟨_, by simp [txnTable], List.prefix_rfl, fun _ => .inl rfl⟩
  | codec k r hn hl ht => exact ⟨_, by simp [ht], List.prefix_rfl, fun _ => .inl rfl⟩
  | configured c d v yb hi => subst hi; exact ⟨_, by simp [txnTable], List.prefix_rfl, fun _ => .inl rfl⟩
  | deconfigured hi => subst hi; exact ⟨_, by simp [txnTable], List.prefix_rfl, fun _ => .inl rfl⟩

/-! ### Which transaction failed -/

/-- A command that issued a transaction, its first having failed, is a read that failed or a SETRAM. -/
theorem Ends.cases_of_first_fail (h : Ends State.writeAndEnd i s t) (hn : s.shapes.length < t.shapes.length)
    (hf : s.txn.outcome = .fail) :
    (∃ a n, (∀ o v, i ≠ .setram o v) ∧ t = (s.afterFailedRead a n).raise .busError) ∨
    (∃ o v, i = .setram o v ∧ o.toNat + v.length ≤ 56 ∧ t = s.writeAndEnd (8 + o.toNat) v) := by
  cases h with
  | readFailed a n rest hc hl ht =>
    refine .inl ⟨a, n, ?_, rfl⟩
    rintro o v rfl
    cases ht
  | writeOnly o v hi hc hr => exact .inr ⟨o, v, hi, hr, rfl⟩
  | readThenDone _ _ _ _ _ _ _ _ ho | readThenWrite _ _ _ _ _ _ _ _ _ _ ho => rw [hf] at ho; cases ho
  | _ => simp at hn

/-- A command that issued two transactions is a read that succeeded and the final write. -/
theorem Ends.readThenWrite_of_two (h : Ends State.writeAndEnd i s t) (hn : s.shapes.length + 2 ≤ t.shapes.length) :
    ∃ a n k v, s.txn.outcome = .ok ∧ (storedBytes i).2 = v.length ∧ (storedBytes i).1 + v.length ≤ 8 ∧
      t = ((s.afterRead a n).skipBytes k).writeAndEnd (storedBytes i).1 v := by
  cases h with
  | readThenWrite a n k v hc hl ht ha hb hv ho => exact ⟨a, n, k, v, ho, hb, hv, rfl⟩
  | _ => simp at hn

/-- A final write that failed: BusError, a free byte in each addressed byte, every other as the transaction met it
(R72). -/
theorem State.writeAndEnd_of_fail (h : t.tableWf) (hm : t.imageNow.wf = true) {a : Nat} {v : List Byte}
    (ha : a + v.length ≤ 64) (hf : t.txn.outcome = .fail) :
    (t.writeAndEnd a v).Reports .busError [] ∧
    (∀ j, j < v.length → (t.writeAndEnd a v).mem.get (a + j) = t.noise j) ∧
    (∀ x, x < a ∨ a + v.length ≤ x → (t.writeAndEnd a v).mem.get x = t.imageNow.get x) := by
  obtain ⟨-, hfail, hout⟩ := State.writeAndEnd_spec h hm ha
  obtain ⟨hrep, hbytes⟩ := hfail hf
  exact ⟨hrep, fun j hj => by rw [hbytes _ (by omega) (by omega), Nat.add_sub_cancel_left], hout⟩

end

/-! ### The obligations -/

/-- Settles O33: each of the nine ends of a command issues the first part of its row, and one that ends OK all of it but a
skipped write. -/
theorem transactionsAreTheTables : Obligations.TransactionsAreTheTables := by
  intro i s t hs he
  obtain ⟨l, hl, hpre, hok⟩ := (exec_ends he).shapes_prefix hs.tableWf
  refine ⟨l, hl, hpre, fun hst hskip => ?_, fun hst _ => (hok hst).imp_right And.right⟩
  exact (hok hst).resolve_right fun h => by simp [hskip] at h

/-- Settles O29: a failed first transaction is a read or SETRAM's write, and two transactions are a read that succeeded
and the final write, which a failure fills with free bytes. -/
theorem failedTransactionEndsBusError : Obligations.FailedTransactionEndsBusError := by
  intro i s t hs he n
  refine ⟨fun hn hf => ?_, fun hn => ?_⟩
  · rcases (exec_ends he).cases_of_first_fail (by omega) hf with ⟨a, len, hi, rfl⟩ | ⟨o, v, rfl, hr, rfl⟩
    · obtain ⟨hrep, -, -, hmem, -⟩ := State.endsReadFailed_raise hs.tableWf a len
      exact ⟨by simp [n], hrep, fun _ => hmem, fun o bs h => absurd h (hi o bs)⟩
    · obtain ⟨hrep, hbytes, hout⟩ :=
        State.writeAndEnd_of_fail hs.tableWf (State.imageNow_wf hs.mem) (a := 8 + o.toNat) (v := v) (by omega) hf
      refine ⟨by simp [n], hrep, fun h => absurd rfl (h o v), fun o' bs h => ?_⟩
      cases h
      exact ⟨hbytes, hout⟩
  · obtain ⟨a, len, k, v, ho, hlen, hv, rfl⟩ := (exec_ends he).readThenWrite_of_two (by omega)
    refine ⟨ho, fun hf => ?_⟩
    have hq := (State.quiet_afterRead s a len).trans (State.quiet_skipBytes _ k)
    rw [hlen]
    exact State.writeAndEnd_of_fail (hq.tableWf hs.tableWf) (State.secondImage_wf hs.mem) (by omega) hf

end Sys2Proof.Machine
end

section
/-! Proofs, 30_encoding: the opcode fields of the opcode map (R92). -/
namespace Sys2Proof.Machine

/-- Settles O57: R92 speaks of the 22 bytes of the opcode map alone, so the case split is over its rows; in each of them
the three fields are bits of a literal byte. -/
theorem opcodeFieldsSelect : Obligations.OpcodeFieldsSelect := by
  intro o
  cases o <;> decide

end Sys2Proof.Machine
end

section
/-! Proofs, 40_handle_lifecycle: what DECONFIG does to the handle and what it leaves alone (R123). -/
namespace Sys2Proof.Machine

variable {s : State}

/-! ### The state in which DECONFIG reports -/

/-- The detach is recorded and the handle given up, the status not yet written (R123). -/
def State.released (s : State) : State :=
  (s.skipDetach.recordBus (.detach s.cfg.bus s.detachOutcome)).setCfg { s.cfg with configured := false, bus := none }

/-- DECONFIG ends, by the outcome of the detach, with OK or BusError from one and the same state (R123). -/
theorem State.deconfigure_cases (s : State) :
    (s.detachOutcome = .ok ∧ s.deconfigure = s.released.complete []) ∨
    (s.detachOutcome = .fail ∧ s.deconfigure = s.released.raise .busError) := by
  unfold State.deconfigure State.released
  cases s.detachOutcome with
  | ok => exact .inl ⟨rfl, rfl⟩
  | fail => exact .inr ⟨rfl, rfl⟩

/-- The detach itself touches only the free inputs and the record; the handle is given up after it. -/
theorem State.quiet_detach (s : State) :
    s.Quiet (s.skipDetach.recordBus (.detach s.cfg.bus s.detachOutcome)) :=
  (State.quiet_skipDetach s).trans (State.quiet_recordBus _ _)

theorem State.released_tableWf (hs : s.tableWf) : s.released.tableWf :=
  State.setCfg_tableWf (s.quiet_detach.tableWf hs) _

theorem State.cfg_released (hs : s.tableWf) : s.released.cfg = { s.cfg with configured := false, bus := none } :=
  State.cfg_setCfg (s.quiet_detach.tableWf hs) _

theorem State.released_hostFrame (hs : s.tableWf) : s.HostFrame s.released :=
  State.hostFrame_setCfg s.quiet_detach hs _

/-! ### What both outcomes of the detach share -/

@[simp] theorem State.mem_deconfigure (s : State) : s.deconfigure.mem = s.mem := by
  rcases s.deconfigure_cases with ⟨-, h⟩ | ⟨-, h⟩ <;> rw [h] <;> rfl

@[simp] theorem State.pointer_deconfigure (s : State) : s.deconfigure.pointer = s.pointer := by
  rcases s.deconfigure_cases with ⟨-, h⟩ | ⟨-, h⟩ <;> rw [h] <;> rfl

/-- The handle is unconfigured and holds no capability, whether or not the detach succeeded (R123). -/
theorem State.cfg_deconfigure (hs : s.tableWf) :
    s.deconfigure.cfg = { s.cfg with configured := false, bus := none } := by
  rcases s.deconfigure_cases with ⟨-, h⟩ | ⟨-, h⟩ <;> rw [h]
  · rw [State.cfg_complete (State.released_tableWf hs), State.cfg_released hs]
  · rw [State.cfg_raise (State.released_tableWf hs), State.cfg_released hs]

theorem State.deconfigure_hostFrame (hs : s.tableWf) : s.HostFrame s.deconfigure := by
  rcases s.deconfigure_cases with ⟨-, h⟩ | ⟨-, h⟩ <;> rw [h]
  · exact (State.released_hostFrame hs).trans (State.complete_hostFrame (.refl _) (State.released_tableWf hs) _)
  · exact (State.released_hostFrame hs).trans (State.raise_hostFrame (.refl _) (State.released_tableWf hs) _)

/-! ### What the outcome of the detach decides -/

theorem State.deconfigure_reports_ok (hs : s.tableWf) (ho : s.detachOutcome = .ok) :
    s.deconfigure.Reports .ok [] := by
  rcases s.deconfigure_cases with ⟨-, h⟩ | ⟨hf, -⟩
  · rw [h]
    exact State.complete_reports (State.released_tableWf hs) _
  · cases ho.symm.trans hf

theorem State.deconfigure_reports_busError (hs : s.tableWf) (ho : s.detachOutcome = .fail) :
    s.deconfigure.Reports .busError [] := by
  rcases s.deconfigure_cases with ⟨hok, -⟩ | ⟨-, h⟩
  · cases ho.symm.trans hok
  · rw [h]
    exact State.raise_reports (State.released_tableWf hs) _

/-! ### The command -/

/-- DECONFIG is the detach behind the handle check (R22, R123). -/
theorem exec_deconfig (s : State) : exec .deconfig s = s.withHandle fun s => .next s.deconfigure := rfl

theorem exec_deconfig_unconfigured (hc : s.cfg.configured = false) :
    exec .deconfig s = .next (s.raise .invalidArgument) := by
  rw [exec_deconfig, State.withHandle_unconfigured hc]

theorem exec_deconfig_configured (hc : s.cfg.configured = true) : exec .deconfig s = .next s.deconfigure := by
  rw [exec_deconfig, State.withHandle_configured hc]

/-- Settles O9: the handle check decides between InvalidArgument and the detach; the detach's two outcomes end in one
state but for the status. -/
theorem deconfigOutcomes : Obligations.DeconfigOutcomes := by
  intro s hs
  have ht := hs.tableWf
  refine ⟨fun hc => ⟨_, exec_deconfig_unconfigured hc, State.endsInvalid_raise ht⟩, fun hc => ?_⟩
  exact ⟨s.deconfigure, exec_deconfig_configured hc, State.deconfigure_hostFrame ht,
    fun a => by rw [State.mem_deconfigure], s.pointer_deconfigure, s.shapes_deconfigure,
    State.cfg_deconfigure ht, State.deconfigure_reports_ok ht, State.deconfigure_reports_busError ht⟩

end Sys2Proof.Machine
end

section
/-! Proofs, 41_bcd_hour_codec: what the four codec commands report, and the laws of the codec (R141-R149). -/
namespace Sys2Proof.Machine

variable {s : State} {n : Int} {free : Byte} {h k : Nat}

/-! ### The encoders as result words (R94, R141, R147) -/

/-- A byte's result word is the word of its number (R94). -/
theorem zext32_eq_ofNat (b : Byte) : zext32 b = BitVec.ofNat 32 b.toNat := (BitVec.ofNat_toNat 32 b).symm

theorem zext32_toBCD (h0 : 0 ≤ n) (h1 : n ≤ 99) : zext32 (toBCD n free) = BitVec.ofNat 32 (bcd n.toNat) := by
  rw [zext32_eq_ofNat, toBCD_toNat_int n h0 h1]

theorem zext32_encode12Hour (h0 : 0 ≤ n) (h1 : n ≤ 111) :
    zext32 (encode12Hour n free) = BitVec.ofNat 32 (hour12Or n.toNat) := by
  obtain ⟨m, rfl⟩ := Int.eq_ofNat_of_zero_le h0
  rw [zext32_eq_ofNat, encode12Hour_toNat m (by omega), Int.toNat_natCast]

/-- Below 0 the digits are the free byte, and only the mode bit is ORed in (R147). -/
theorem encode12Hour_neg (hn : n < 0) : encode12Hour n free = free ||| 0x40 := by
  have hp : ¬12 ≤ n := by omega
  have hz : ¬n = 0 := by omega
  have hd : toBCD n free = free := toBCD_free n (by omega) free
  simp only [encode12Hour, hp, hz, hd, decide_false, Bool.false_eq_true, if_false]

/-- From 112 on, `n - 12` is past two digits: the PM flag and the mode bit are ORed into the free byte (R147). -/
theorem encode12Hour_high (hn : 112 ≤ n) : encode12Hour n free = free ||| 0x60 := by
  have hp : 12 ≤ n := by omega
  have hz : ¬n - 12 = 0 := by omega
  have hd : toBCD (n - 12) free = free := toBCD_free (n - 12) (by omega) free
  simp only [encode12Hour, hp, hz, hd, decide_true, if_true, if_false]
  exact BitVec.or_assoc free 0x20 0x40

/-! ### The 12-hour layout in plain arithmetic: 12 stands for 0, and 32 is the PM flag (R31, R145, R147) -/

/-- The digits of an hour of the dial lie below the PM flag. -/
theorem bcd_dial_lt (hk : k ≤ 12) : bcd k < 32 := by unfold bcd; omega

theorem hour12Of_am (hk : k ≤ 12) : hour12Of (64 + bcd k) = k % 12 := by
  have hd := bcd_dial_lt hk
  have hb : (64 + bcd k) % 32 = bcd k := by omega
  have hf : ¬(64 + bcd k) / 32 % 2 = 1 := by omega
  rw [hour12Of, hb, unbcd_bcd k (by omega), if_neg hf]
  split <;> omega

theorem hour12Of_pm (hk : k ≤ 12) : hour12Of (96 + bcd k) = k % 12 + 12 := by
  have hd := bcd_dial_lt hk
  have hb : (96 + bcd k) % 32 = bcd k := by omega
  have hf : (96 + bcd k) / 32 % 2 = 1 := by omega
  rw [hour12Of, hb, unbcd_bcd k (by omega), if_pos hf]
  split <;> omega

/-- The hour that the dial shows: 12 where the hour of the half day is 0. -/
theorem dial_of_mod (h1 : 1 ≤ k) (hk : k ≤ 12) : (if k % 12 = 0 then 12 else k % 12) = k := by split <;> omega

theorem hour12Byte_am (h1 : 1 ≤ k) (hk : k ≤ 12) : hour12Byte (k % 12) = 64 + bcd k := by
  rw [hour12Byte, if_neg (by omega), Nat.mod_mod, dial_of_mod h1 hk]

theorem hour12Byte_pm (h1 : 1 ≤ k) (hk : k ≤ 12) : hour12Byte (k % 12 + 12) = 96 + bcd k := by
  rw [hour12Byte, if_pos (by omega), Nat.add_mod_right, Nat.mod_mod, dial_of_mod h1 hk]

/-- Every hour 0..23 is an hour 1..12 of the dial in one half of the day. -/
theorem hour_cases (hh : h ≤ 23) : ∃ k, 1 ≤ k ∧ k ≤ 12 ∧ (h = k % 12 ∨ h = k % 12 + 12) := by
  by_cases hz : h % 12 = 0
  · exact ⟨12, by omega⟩
  · exact ⟨h % 12, by omega⟩

theorem hour12Of_hour12Byte (hh : h ≤ 23) : hour12Of (hour12Byte h) = h := by
  obtain ⟨k, h1, hk, rfl | rfl⟩ := hour_cases hh
  · rw [hour12Byte_am h1 hk, hour12Of_am hk]
  · rw [hour12Byte_pm h1 hk, hour12Of_pm hk]

/-! ### The laws (R149) -/

theorem encode12Hour_toNat_of_hour (hh : h ≤ 23) : (encode12Hour h free).toNat = hour12Byte h := by
  rw [encode12Hour_toNat h (by omega), hour12Or_eq h hh]

theorem fromBCD_toBCD (hh : h ≤ 99) : fromBCD (toBCD h free) = h := by
  rw [fromBCD_eq, toBCD_toNat h hh, unbcd_bcd h hh]

theorem toBCD_fromBCD {b : Byte} (ht : b.toNat / 16 ≤ 9) (hu : b.toNat % 16 ≤ 9) : toBCD (fromBCD b) free = b := by
  have h99 : unbcd b.toNat ≤ 99 := by unfold unbcd; omega
  apply BitVec.eq_of_toNat_eq
  rw [fromBCD_eq, toBCD_toNat _ h99, bcd_unbcd b.toNat ht hu]

theorem decode12Hour_encode12Hour (hh : h ≤ 23) : decode12Hour (encode12Hour h free) = h := by
  rw [decode12Hour_eq, encode12Hour_toNat_of_hour hh, hour12Of_hour12Byte hh]

theorem encode12Hour_decode12Hour {b : Byte} (h1 : 1 ≤ k) (hk : k ≤ 12)
    (hb : b.toNat = 64 + bcd k ∨ b.toNat = 96 + bcd k) : encode12Hour (decode12Hour b) free = b := by
  apply BitVec.eq_of_toNat_eq
  rcases hb with hb | hb
  · rw [decode12Hour_eq, hb, hour12Of_am hk, encode12Hour_toNat_of_hour (by omega), hour12Byte_am h1 hk]
  · rw [decode12Hour_eq, hb, hour12Of_pm hk, encode12Hour_toNat_of_hour (by omega), hour12Byte_pm h1 hk]

/-! ### The commands -/

/-- A command that draws one free byte, and does nothing else, ends OK with its result words (R27). -/
theorem State.skipBytes_complete_reports (hs : s.Inv) (w : List Word) :
    ((s.skipBytes 1).complete w).Reports .ok w :=
  State.complete_reports ((s.tableWf_skipBytes 1).2 hs.tableWf) w

theorem exec_tobcd (w : Word) (s : State) :
    exec (.tobcd w) s = .next ((s.skipBytes 1).complete [zext32 (toBCD w.toInt (s.freeByte 0))]) := rfl

theorem exec_frombcd (b : Byte) (s : State) : exec (.frombcd b) s = .next (s.complete [byteWord (fromBCD b)]) := rfl

theorem exec_dec12h (b : Byte) (s : State) :
    exec (.dec12h b) s = .next (s.complete [int32Word (decode12Hour b)]) := rfl

theorem exec_enc12h (w : Word) (s : State) :
    exec (.enc12h w) s = .next ((s.skipBytes 1).complete [zext32 (encode12Hour w.toInt (s.freeByte 0))]) := rfl

/-- Settles O4: each of the four ranges of the hour has its own value of the encoder; on 0..23 the ORed byte of 0..111
is the legal one. -/
theorem enc12hReportsHourByte : Obligations.Enc12hReportsHourByte := by
  intro s w hs
  refine ⟨_, exec_enc12h w s, fun ⟨h0, h23⟩ => ?_, fun ⟨h0, h111⟩ => ?_, fun hneg => ?_, fun hhigh => ?_⟩
  · rw [zext32_encode12Hour h0 (by omega), hour12Or_eq _ (by omega)]
    exact State.skipBytes_complete_reports hs _
  · rw [zext32_encode12Hour h0 h111]
    exact State.skipBytes_complete_reports hs _
  · rw [encode12Hour_neg hneg]
    exact State.skipBytes_complete_reports hs _
  · rw [encode12Hour_high hhigh]
    exact State.skipBytes_complete_reports hs _

/-- Settles O1: two digits, or the free byte. -/
theorem tobcdReportsBcdByte : Obligations.TobcdReportsBcdByte := by
  intro s w hs
  refine ⟨_, exec_tobcd w s, fun ⟨h0, h99⟩ => ?_, fun hout => ?_⟩
  · rw [zext32_toBCD h0 h99]
    exact State.skipBytes_complete_reports hs _
  · rw [toBCD_free _ hout]
    exact State.skipBytes_complete_reports hs _

/-- Settles O2: the decoder's arithmetic has no case for a malformed nibble. -/
theorem frombcdReportsNumber : Obligations.FrombcdReportsNumber := by
  intro s b hs
  refine ⟨_, exec_frombcd b s, ?_⟩
  rw [fromBCD_eq, unbcd]
  exact State.complete_reports hs.tableWf _

/-- Settles O3: the decoder's hour is never negative, so its INT32 word is the word of a number. -/
theorem dec12hReportsHour : Obligations.Dec12hReportsHour := by
  intro s b hs
  refine ⟨_, exec_dec12h b s, ?_⟩
  rw [decode12Hour_eq, int32Word, BitVec.ofInt_natCast]
  exact State.complete_reports hs.tableWf _

/-- Settles O6: laws (a) to (d) are the round trips; (e) follows from (b), the decoder undoing the encoder. -/
theorem codecLaws : Obligations.CodecLaws := by
  intro free
  refine ⟨fun _ => fromBCD_toBCD, fun _ => decode12Hour_encode12Hour, fun _ => toBCD_fromBCD,
    fun _ _ => encode12Hour_decode12Hour, fun h h' hh hh' heq => ?_⟩
  calc h = decode12Hour (encode12Hour h free) := (decode12Hour_encode12Hour hh).symm
    _ = decode12Hour (encode12Hour h' free) := by rw [heq]
    _ = h' := decode12Hour_encode12Hour hh'

end Sys2Proof.Machine
end

section
/-! Proofs, 42_time_and_raw: what GETTIME, SETTIME, GETRAW and SETRAW report and store, and what a record written by one
reads back as by the other (R171-R179). -/
namespace Sys2Proof.Machine

section
variable {s : State} {i : Instr} {a n : Nat} {k : State → (Nat → Byte) → State → Host.Outcome State Fault Refusal}

/-! ### A command that begins with the handle check and a read (R22, R72) -/

theorem exec_endsInvalid (hx : exec i s = s.withHandle fun s => s.onRead a n (k s)) (hs : s.tableWf)
    (hc : s.cfg.configured = false) : ∃ t, exec i s = .next t ∧ s.EndsInvalid t :=
  ⟨_, hx.trans (State.withHandle_unconfigured hc), State.endsInvalid_raise hs⟩

theorem exec_endsReadFailed (hx : exec i s = s.withHandle fun s => s.onRead a n (k s)) (hs : s.tableWf)
    (hc : s.cfg.configured = true) (ho : s.txn.outcome = .fail) : ∃ t, exec i s = .next t ∧ s.EndsReadFailed t a n :=
  ⟨_, hx.trans ((State.withHandle_configured hc).trans (State.onRead_fail ho)), State.endsReadFailed_raise hs a n⟩

theorem exec_of_read (hx : exec i s = s.withHandle fun s => s.onRead a n (k s)) (hc : s.cfg.configured = true)
    (ho : s.txn.outcome = .ok) : exec i s = k s (s.readByte a) (s.afterRead a n) :=
  hx.trans ((State.withHandle_configured hc).trans (State.onRead_ok ho))

theorem exec_gettime (s : State) : exec .gettime s = s.withHandle fun s => s.onRead 0x00 7 fun r s' =>
    if fitsInt32 (yearOf s.cfg.yearBase (r 6)) then .next (s'.complete (timeWords s.cfg.yearBase r))
    else .fault .arithOverflow := rfl

theorem exec_getraw (s : State) : exec .getraw s = s.withHandle fun s => s.onRead 0x00 7 fun r s' =>
    .next (s'.complete (rawWords s.coding r)) := rfl

theorem exec_settime (d : CalendarTime) (s : State) : exec (.settime d) s = s.withHandle fun s =>
    s.onRead 0x00 3 fun r s' => .next ((s'.skipBytes 7).writeAndEnd 0x00 (timeBytes d r s'.freeByte)) := rfl

theorem exec_setraw (d : RawData) (s : State) : exec (.setraw d) s = s.withHandle fun s =>
    s.onRead 0x00 1 fun r s' => .next ((s'.skipBytes 7).writeAndEnd 0x00 (rawBytes s.coding d (r 0) s'.freeByte)) := rfl

end

section
variable {s : State} {n : Nat} {v : List Byte}

/-! ### The state after SETTIME or SETRAW has read and then written the seven time registers (R66) -/

theorem State.writeAndEnd_tableWf (hs : s.tableWf) (a : Nat) (v : List Byte) : (s.writeAndEnd a v).tableWf := by
  rcases State.writeAndEnd_cases s a v with ⟨-, h⟩ | ⟨-, h⟩ <;> rw [h]
  · exact State.complete_tableWf ((s.quiet_afterWrite a v).tableWf hs) _
  · exact State.raise_tableWf ((s.quiet_afterFailedWrite a v).tableWf hs) _

/-- The read of `n` bytes succeeded, seven free bytes are drawn, and the final write of `v` is done, whatever comes of
it. -/
def State.timesWritten (s : State) (n : Nat) (v : List Byte) : State :=
  ((s.afterRead 0x00 n).skipBytes 7).writeAndEnd 0x00 v

theorem exec_settime_of_read (d : CalendarTime) (hc : s.cfg.configured = true) (ho : s.txn.outcome = .ok) :
    exec (.settime d) s = .next (s.timesWritten 3 (timeBytes d (s.readByte 0) s.freeByte)) :=
  exec_of_read (exec_settime d s) hc ho

theorem exec_setraw_of_read (d : RawData) (hc : s.cfg.configured = true) (ho : s.txn.outcome = .ok) :
    exec (.setraw d) s = .next (s.timesWritten 1 (rawBytes s.coding d (s.readByte 0 0) s.freeByte)) :=
  exec_of_read (exec_setraw d s) hc ho

theorem State.quiet_beforeTimes (s : State) (n : Nat) : s.Quiet ((s.afterRead 0x00 n).skipBytes 7) :=
  (s.quiet_afterRead 0 n).trans (State.quiet_skipBytes _ 7)

theorem State.timesWritten_hostFrame (hs : s.tableWf) (n : Nat) (v : List Byte) : s.HostFrame (s.timesWritten n v) :=
  State.writeAndEnd_hostFrame (s.quiet_beforeTimes n) hs _ v

theorem State.timesWritten_handlesFrame (hs : s.tableWf) (n : Nat) (v : List Byte) :
    s.HandlesFrame (s.timesWritten n v) :=
  State.writeAndEnd_handlesFrame (s.quiet_beforeTimes n) hs _ v

theorem State.timesWritten_tableWf (hs : s.tableWf) (n : Nat) (v : List Byte) : (s.timesWritten n v).tableWf :=
  State.writeAndEnd_tableWf ((s.quiet_beforeTimes n).tableWf hs) _ v

theorem State.timesWritten_cfg (hs : s.tableWf) (n : Nat) (v : List Byte) : (s.timesWritten n v).cfg = s.cfg := by
  rw [State.cfg, State.rc, (State.timesWritten_hostFrame hs n v).cur]
  exact State.timesWritten_handlesFrame hs n v s.cur

theorem State.timesWritten_shapes (hv : v.length = 7) :
    (s.timesWritten n v).shapes = s.shapes ++ [.read 0x00 n, .write 0x00 7] := by
  simp [State.timesWritten, hv]

/-- Registers 0x07 and up are as ENV left them before the write, whatever came of it (R72). -/
theorem State.timesWritten_get_rest (hs : s.Inv) (hv : v.length = 7) {x : Nat} (hx : 7 ≤ x) :
    (s.timesWritten n v).mem.get x = s.secondImage.get x := by
  obtain ⟨-, -, hrest⟩ := State.writeAndEnd_spec (a := 0) (v := v) ((s.quiet_beforeTimes n).tableWf hs.tableWf)
    (State.secondImage_wf hs.mem) (by omega)
  exact hrest x (.inr (by omega))

theorem State.timesWritten_of_fail (hs : s.Inv) (hv : v.length = 7) (ho : s.secondTxn.outcome = .fail) :
    (s.timesWritten n v).Reports .busError [] ∧ ∀ x, x < 7 → (s.timesWritten n v).mem.get x = s.secondNoise x := by
  obtain ⟨-, hfail, -⟩ := State.writeAndEnd_spec (a := 0) (v := v) ((s.quiet_beforeTimes n).tableWf hs.tableWf)
    (State.secondImage_wf hs.mem) (by omega)
  obtain ⟨hrep, hget⟩ := hfail ho
  exact ⟨hrep, fun x hx => hget x (by omega) (by omega)⟩

theorem State.timesWritten_of_ok (hs : s.Inv) (hv : v.length = 7) (ho : s.secondTxn.outcome = .ok) :
    (s.timesWritten n v).Reports .ok [] ∧ ∀ x, x < 7 → (s.timesWritten n v).mem.get x = v.getD x 0 := by
  obtain ⟨hok, -, -⟩ := State.writeAndEnd_spec (a := 0) (v := v) ((s.quiet_beforeTimes n).tableWf hs.tableWf)
    (State.secondImage_wf hs.mem) (by omega)
  obtain ⟨hrep, hget⟩ := hok ho
  exact ⟨hrep, fun x hx => hget x (by omega) (by omega)⟩

end

/-! ### The bits of the seven time registers that a read returns as stored (R38, R39) -/

/-- How many low bits of a time register are not reserved; in the seconds byte, those below CH. -/
def timeBits (i : Nat) : Nat :=
  match i with
  | 0 | 1 | 2 => 7
  | 3 => 3
  | 4 => 6
  | 5 => 5
  | _ => 8

/-- Two groups of time registers that agree on CH-free, unreserved bits. -/
def SameTimes (r r' : Nat → Byte) : Prop :=
  ∀ i, i < 7 → (r i).toNat % 2 ^ timeBits i = (r' i).toNat % 2 ^ timeBits i

theorem timeBits_le (i : Nat) : timeBits i ≤ 8 := by unfold timeBits; split <;> omega

theorem timeBits_not_reserved {i : Nat} (hi : i < 7) :
    ∀ j, j < timeBits i → (reservedMask (0 + i)).getLsbD j = false := by
  revert i; decide

/-- A read of the time registers returns the stored bits. -/
theorem State.readByte_sameTimes (s : State) : SameTimes (s.readByte 0) s.imageNow.get := fun i hi => by
  have h := s.readByte_mod 0 i (timeBits i) (timeBits_le i) (timeBits_not_reserved hi)
  rwa [Nat.zero_add] at h

/-- What the reads take from two groups of registers that agree: the low bits, register by register. -/
theorem SameTimes.bits {r r' : Nat → Byte} (h : SameTimes r r') :
    (r 0).toNat % 128 = (r' 0).toNat % 128 ∧ (r 1).toNat % 128 = (r' 1).toNat % 128 ∧
    (r 2).toNat % 128 = (r' 2).toNat % 128 ∧ (r 3).toNat % 8 = (r' 3).toNat % 8 ∧
    (r 4).toNat % 64 = (r' 4).toNat % 64 ∧ (r 5).toNat % 32 = (r' 5).toNat % 32 ∧ r 6 = r' 6 := by
  refine ⟨h 0 (by omega), h 1 (by omega), h 2 (by omega), h 3 (by omega), h 4 (by omega), h 5 (by omega), ?_⟩
  have h6 : (r 6).toNat % 2 ^ 8 = (r' 6).toNat % 2 ^ 8 := h 6 (by omega)
  rw [Nat.mod_eq_of_lt (r 6).isLt, Nat.mod_eq_of_lt (r' 6).isLt] at h6
  exact BitVec.eq_of_toNat_eq h6

/-! ### GETTIME (R171) -/

/-- The seven values that GETTIME reports for a base and the stored time registers, in word order (R42). -/
def timeFields (base : Int) (r : Nat → Byte) : List Int :=
  [(unbcd ((r 0).toNat % 128) : Int), (unbcd ((r 1).toNat % 128) : Int), (shownHour (r 2).toNat : Int),
   (unbcd ((r 4).toNat % 64) : Int), (unbcd ((r 5).toNat % 32) : Int) - 1, base + unbcd (r 6).toNat,
   (((r 3).toNat % 8 : Nat) : Int) - 1]

theorem unbcd_le {b : Nat} (hb : b < 256) : unbcd b ≤ 165 := by unfold unbcd; omega

theorem shownHour_le (b : Nat) : shownHour b ≤ 57 := by unfold shownHour hour12Of unbcd; split_ifs <;> omega

/-- Bit 7 of an hours byte does not show (R38, R171). -/
theorem shownHour_mod (b : Nat) : shownHour (b % 128) = shownHour b := by
  have hmode : b % 128 / 64 % 2 = b / 64 % 2 := by omega
  have hpm : b % 128 / 32 % 2 = b / 32 % 2 := by omega
  have hdial : b % 128 % 32 = b % 32 := by omega
  have hday : b % 128 % 64 = b % 64 := by omega
  simp only [shownHour, hour12Of, hmode, hpm, hdial, hday]

theorem timeFields_congr {r r' : Nat → Byte} (h : SameTimes r r') (base : Int) :
    timeFields base r = timeFields base r' := by
  obtain ⟨h0, h1, h2, h3, h4, h5, h6⟩ := h.bits
  simp only [timeFields, ← shownHour_mod (r 2).toNat, ← shownHour_mod (r' 2).toNat, h0, h1, h2, h3, h4, h5, h6]

theorem int32Word_toInt_of_small {n : Int} (h : -1 ≤ n) (h' : n ≤ 165) : (int32Word n).toInt = n :=
  int32Word_toInt n (by omega) (by omega)

theorem yearOf_eq (base : Word) (b : Byte) : yearOf base b = base.toInt + unbcd b.toNat := by
  rw [yearOf, fromBCD_eq]

theorem fitsInt32_yearOf (base : Word) (b : Byte) :
    fitsInt32 (yearOf base b) = decide (base.toInt + unbcd b.toNat ≤ 2 ^ 31 - 1) := by
  have hlow : -2 ^ 31 ≤ base.toInt := BitVec.le_toInt base
  rw [yearOf_eq, fitsInt32, decide_eq_decide]
  omega

/-- The words that GETTIME reports, as integers, where the year fits (R94, R171). -/
theorem timeWords_toInt (base : Word) (r : Nat → Byte) (hy : base.toInt + unbcd (r 6).toNat ≤ 2 ^ 31 - 1) :
    (timeWords base r).map BitVec.toInt = timeFields base.toInt r := by
  have hlow : -2 ^ 31 ≤ base.toInt := BitVec.le_toInt base
  have hsec := unbcd_le (b := (r 0).toNat % 128) (by omega)
  have hmin := unbcd_le (b := (r 1).toNat % 128) (by omega)
  have hhour := shownHour_le (r 2).toNat
  have hmday := unbcd_le (b := (r 4).toNat % 64) (by omega)
  have hmon := unbcd_le (b := (r 5).toNat % 32) (by omega)
  simp only [timeWords, timeFields, List.map_cons, List.map_nil, fromBCD_eq, hourOf_eq, yearOf_eq, byte_and_0x7F,
    byte_and_0x3F, byte_and_0x1F, byte_and_0x07]
  rw [int32Word_toInt_of_small (by omega) (by omega), int32Word_toInt_of_small (by omega) (by omega),
    int32Word_toInt_of_small (by omega) (by omega), int32Word_toInt_of_small (by omega) (by omega),
    int32Word_toInt_of_small (by omega) (by omega), int32Word_toInt _ (by omega) (by omega),
    int32Word_toInt_of_small (by omega) (by omega)]

section
variable {s : State}

theorem State.readByte_year (s : State) : s.readByte 0 6 = s.imageNow.get 6 := s.readByte_full 0 6 rfl

theorem exec_gettime_ok (hc : s.cfg.configured = true) (ho : s.txn.outcome = .ok)
    (hy : s.cfg.yearBase.toInt + unbcd (s.imageNow.get 6).toNat ≤ 2 ^ 31 - 1) :
    ∃ w, exec .gettime s = .next ((s.afterRead 0 7).complete w) ∧
      w.map BitVec.toInt = timeFields s.cfg.yearBase.toInt s.imageNow.get := by
  rw [← s.readByte_year] at hy
  refine ⟨timeWords s.cfg.yearBase (s.readByte 0), ?_, ?_⟩
  · rw [exec_of_read (exec_gettime s) hc ho, fitsInt32_yearOf, if_pos (decide_eq_true hy)]
  · rw [timeWords_toInt _ _ hy, timeFields_congr s.readByte_sameTimes]

theorem exec_gettime_overflow (hc : s.cfg.configured = true) (ho : s.txn.outcome = .ok)
    (hy : 2 ^ 31 - 1 < s.cfg.yearBase.toInt + unbcd (s.imageNow.get 6).toNat) :
    exec .gettime s = .fault .arithOverflow := by
  rw [← s.readByte_year] at hy
  rw [exec_of_read (exec_gettime s) hc ho, fitsInt32_yearOf, if_neg (by rw [decide_eq_true_eq]; omega)]

end

/-- Settles O10: the handle check, the read and the year sum decide in this order; the words show only bits that a read
returns as stored. -/
theorem gettimeOutcomes : Obligations.GettimeOutcomes := by
  intro s hs
  refine ⟨exec_endsInvalid (exec_gettime s) hs.tableWf, exec_endsReadFailed (exec_gettime s) hs.tableWf,
    fun hc ho hy => ?_, exec_gettime_overflow⟩
  obtain ⟨w, hx, hw⟩ := exec_gettime_ok hc ho hy
  exact ⟨_, w, hx, State.endsRead_complete hs.tableWf 0 7 w, by simp, hw⟩

/-! ### SETTIME (R172-R174) -/

/-- A number of two digits whose tens are less than 8 leaves bit 7 of its byte clear. -/
theorem bcd_lt_128 {n : Nat} (hn : n ≤ 79) : bcd n < 128 := by unfold bcd; omega

/-- CH kept from a byte that was read, ORed with a byte that leaves bit 7 clear (R174, R178). -/
theorem keepCH_toNat {b v : Byte} (hv : v.toNat < 128) : ((b &&& 0x80) ||| v).toNat = b.toNat / 128 * 128 + v.toNat := by
  have hb := b.isLt
  have hch : (b &&& 0x80).toNat = 2 ^ 7 * (b.toNat / 128) := by
    rw [BitVec.toNat_and]
    change b.toNat &&& 2 ^ 7 = _
    rw [Nat.and_two_pow, Nat.testBit_eq_decide_div_mod_eq]
    rcases Nat.mod_two_eq_zero_or_one (b.toNat / 2 ^ 7) with h | h <;> simp only [h] <;> simp <;> omega
  rw [BitVec.toNat_or, hch, ← Nat.two_pow_add_eq_or_of_lt hv, Nat.mul_comm]

/-- The seconds byte of legal seconds keeps CH (R174). -/
theorem secByte_toNat {n : Int} (h0 : 0 ≤ n) (h59 : n ≤ 59) (b free : Byte) :
    ((b &&& 0x80) ||| toBCD n free).toNat = b.toNat / 128 * 128 + bcd n.toNat := by
  have hsec := toBCD_toNat_int n h0 (by omega) free
  rw [keepCH_toNat (by rw [hsec]; exact bcd_lt_128 (by omega)), hsec]

/-- `L(f, e)` as a case of the field's range (R172, R174). -/
theorem legalOr_ite {P : Prop} [Decidable P] {b free : Byte} {n : Nat} (h : P → b.toNat = n) :
    if P then (legalOr (decide P) b free).toNat = n else legalOr (decide P) b free = free := by
  by_cases hp : P
  · rw [if_pos hp, legalOr, if_pos (decide_eq_true hp), h hp]
  · rw [if_neg hp, legalOr, if_neg (by simpa using hp)]

/-- The hours byte of a legal hour in either mode (R174). -/
theorem hourByte_toNat {h : Int} (h0 : 0 ≤ h) (h23 : h ≤ 23) (mode free : Byte) :
    (hourByte (mode.getLsbD 6) h free).toNat =
      if mode.toNat / 64 % 2 = 1 then hour12Byte h.toNat else bcd h.toNat := by
  obtain ⟨m, rfl⟩ := Int.eq_ofNat_of_zero_le h0
  have hbit : mode.getLsbD 6 = decide (mode.toNat / 64 % 2 = 1) := byte_bit mode 6
  rw [hbit, hourByte, Int.toNat_natCast]
  by_cases hmode : mode.toNat / 64 % 2 = 1
  · rw [if_pos (decide_eq_true hmode), if_pos hmode, encode12Hour_toNat_of_hour (by omega)]
  · rw [if_neg (by rwa [decide_eq_true_eq]), if_neg hmode, toBCD_toNat m (by omega)]

/-- The byte of a field that the chip counts from 1 (R174). -/
theorem toBCD_succ_toNat {n : Int} {free : Byte} (h0 : 0 ≤ n) (h98 : n ≤ 98) :
    (toBCD (n + 1) free).toNat = bcd (n.toNat + 1) := by
  rw [toBCD_toNat_int _ (by omega) (by omega), Int.toNat_add h0 (by omega)]
  rfl

theorem bcd_of_digit {n : Nat} (hn : n ≤ 9) : bcd n = n := by unfold bcd; omega

/-- Settles O11: the read and the write are SETTIME's two transactions; where both succeed each register holds its
field's encoding or its free byte. -/
theorem settimeOutcomes : Obligations.SettimeOutcomes := by
  intro s d hs
  refine ⟨exec_endsInvalid (exec_settime d s) hs.tableWf, exec_endsReadFailed (exec_settime d s) hs.tableWf,
    fun hc ho => ?_⟩
  have hlen : (timeBytes d (s.readByte 0) s.freeByte).length = 7 := rfl
  refine ⟨_, exec_settime_of_read d hc ho, State.timesWritten_hostFrame hs.tableWf _ _,
    State.timesWritten_handlesFrame hs.tableWf _ _, fun x => State.timesWritten_get_rest hs hlen,
    State.timesWritten_shapes hlen, State.timesWritten_of_fail hs hlen, fun hw => ?_⟩
  obtain ⟨hrep, hget⟩ := State.timesWritten_of_ok (n := 3) hs hlen hw
  have hch : s.readByte 0 0 = s.imageNow.get 0 := s.readByte_full 0 0 rfl
  have hmode : (s.readByte 0 2).getLsbD 6 = (s.imageNow.get 2).getLsbD 6 := s.readByte_bit 0 2 6 (by omega) (by decide)
  refine ⟨hrep, ?sec, ?min, ?hour, ?wday, ?mday, ?mon, ?year⟩
  case sec =>
    rw [hget 0 (by omega)]
    exact legalOr_ite fun ⟨h0, h59⟩ => (secByte_toNat h0 h59 _ _).trans (by rw [hch])
  case min =>
    rw [hget 1 (by omega)]
    exact legalOr_ite fun ⟨h0, h59⟩ => toBCD_toNat_int _ h0 (by omega) _
  case hour =>
    rw [hget 2 (by omega)]
    refine legalOr_ite fun ⟨h0, h23⟩ => ?_
    rw [hmode, hourByte_toNat h0 h23]
  case wday =>
    rw [hget 3 (by omega)]
    refine legalOr_ite fun ⟨h0, h6⟩ => ?_
    rw [toBCD_succ_toNat (n := d.wday.toInt) h0 (by omega), bcd_of_digit (by omega)]
  case mday =>
    rw [hget 4 (by omega)]
    exact legalOr_ite fun ⟨h1, h31⟩ => toBCD_toNat_int d.mday.toInt (by omega) (by omega) _
  case mon =>
    rw [hget 5 (by omega)]
    refine legalOr_ite fun ⟨h0, h11⟩ => ?_
    exact toBCD_succ_toNat (n := d.mon.toInt) h0 (by omega)
  case year =>
    rw [hget 6 (by omega)]
    exact toBCD_toNat_int _ (Int.emod_nonneg _ (by omega)) (by omega) _

/-! ### A calendar time written and read back (R175) -/

/-- The digits of a number come back from a byte that keeps them. -/
theorem unbcd_bcd_mod {n m : Nat} (hn : n ≤ 99) (hm : bcd n < m) : unbcd (bcd n % m) = n := by
  rw [Nat.mod_eq_of_lt hm, unbcd_bcd n hn]

/-- A legal hour comes back in either mode. -/
theorem shownHour_bcd {h : Nat} (hh : h ≤ 23) : shownHour (bcd h) = h := by
  have hlt : bcd h < 64 := by unfold bcd; omega
  rw [shownHour, if_neg (by omega), unbcd_bcd_mod (by omega) hlt]

theorem shownHour_hour12Byte {h : Nat} (hh : h ≤ 23) : shownHour (hour12Byte h) = h := by
  have hmode : hour12Byte h / 64 % 2 = 1 := by
    obtain ⟨k, h1, hk, rfl | rfl⟩ := hour_cases hh
    · rw [hour12Byte_am h1 hk]; have := bcd_dial_lt hk; omega
    · rw [hour12Byte_pm h1 hk]; have := bcd_dial_lt hk; omega
  rw [shownHour, if_pos hmode, hour12Of_hour12Byte hh]

/-- A year in the century window of a base comes back from its last two digits (R173, R175). -/
theorem year_of_century {base y : Int} (hb : base % 100 = 0) (h0 : base ≤ y) (h99 : y ≤ base + 99) :
    base + unbcd (bcd (y % 100).toNat) = y := by
  rw [unbcd_bcd _ (by omega)]
  omega

theorem wordList_eq_of_toInt {l l' : List Word} (h : l.map BitVec.toInt = l'.map BitVec.toInt) : l = l' :=
  List.map_injective_iff.2 (fun _ _ => BitVec.eq_of_toInt_eq) h

/-- Every field of a calendar time but the year is in its legal range (R172). -/
structure LegalTime (d : CalendarTime) : Prop where
  sec  : 0 ≤ d.sec.toInt ∧ d.sec.toInt ≤ 59
  min  : 0 ≤ d.min.toInt ∧ d.min.toInt ≤ 59
  hour : 0 ≤ d.hour.toInt ∧ d.hour.toInt ≤ 23
  wday : 0 ≤ d.wday.toInt ∧ d.wday.toInt ≤ 6
  mday : 1 ≤ d.mday.toInt ∧ d.mday.toInt ≤ 31
  mon  : 0 ≤ d.mon.toInt ∧ d.mon.toInt ≤ 11

/-- A legal calendar time is encoded field by field, no free byte showing (R174). -/
theorem timeBytes_of_legal {d : CalendarTime} (hd : LegalTime d) (r free : Nat → Byte) :
    timeBytes d r free =
      [(r 0 &&& 0x80) ||| toBCD d.sec.toInt (free 0), toBCD d.min.toInt (free 1),
       hourByte ((r 2).getLsbD 6) d.hour.toInt (free 2), toBCD (d.wday.toInt + 1) (free 3),
       toBCD d.mday.toInt (free 4), toBCD (d.mon.toInt + 1) (free 5), toBCD (d.year.toInt % 100) (free 6)] := by
  simp only [timeBytes, legalOr, legalSec, legalMin, legalHour, legalWday, legalMday, legalMon, hd.sec, hd.min, hd.hour,
    hd.wday, hd.mday, hd.mon, and_self, decide_true, if_true, yearOfCentury]

/-- GETTIME decodes the bytes of a legal calendar time in the century window of the base to its fields (R175). -/
theorem timeFields_timeBytes {d : CalendarTime} (hd : LegalTime d) {base : Int} (hb : base % 100 = 0)
    (h0 : base ≤ d.year.toInt) (h99 : d.year.toInt ≤ base + 99) (r free : Nat → Byte) :
    timeFields base (fun i => (timeBytes d r free).getD i 0) = d.words.map BitVec.toInt := by
  have hbytes := timeBytes_of_legal hd r free
  obtain ⟨⟨s0, s1⟩, ⟨m0, m1⟩, ⟨hour0, hour23⟩, ⟨w0, w1⟩, ⟨d0, d1⟩, ⟨n0, n1⟩⟩ := hd
  have fsec : unbcd (((r 0 &&& 0x80) ||| toBCD d.sec.toInt (free 0)).toNat % 128) = d.sec.toInt.toNat := by
    rw [secByte_toNat s0 s1, Nat.mul_add_mod_self_right, unbcd_bcd_mod (by omega) (bcd_lt_128 (by omega))]
  have fmin : unbcd ((toBCD d.min.toInt (free 1)).toNat % 128) = d.min.toInt.toNat := by
    rw [toBCD_toNat_int _ m0 (by omega), unbcd_bcd_mod (by omega) (bcd_lt_128 (by omega))]
  have fhour : shownHour (hourByte ((r 2).getLsbD 6) d.hour.toInt (free 2)).toNat = d.hour.toInt.toNat := by
    rw [hourByte_toNat hour0 hour23]
    split
    · exact shownHour_hour12Byte (by omega)
    · exact shownHour_bcd (by omega)
  have fwday : (toBCD (d.wday.toInt + 1) (free 3)).toNat % 8 = d.wday.toInt.toNat + 1 := by
    rw [toBCD_succ_toNat w0 (by omega), bcd_of_digit (by omega)]
    omega
  have fmday : unbcd ((toBCD d.mday.toInt (free 4)).toNat % 64) = d.mday.toInt.toNat := by
    rw [toBCD_toNat_int _ (by omega) (by omega), unbcd_bcd_mod (by omega) (by unfold bcd; omega)]
  have fmon : unbcd ((toBCD (d.mon.toInt + 1) (free 5)).toNat % 32) = d.mon.toInt.toNat + 1 := by
    rw [toBCD_succ_toNat n0 (by omega), unbcd_bcd_mod (by omega) (by unfold bcd; omega)]
  have fyear : base + unbcd (toBCD (d.year.toInt % 100) (free 6)).toNat = d.year.toInt := by
    rw [toBCD_toNat_int _ (Int.emod_nonneg _ (by omega)) (by omega), year_of_century hb h0 h99]
  rw [hbytes]
  simp only [timeFields, CalendarTime.words, List.map_cons, List.map_nil, List.getD_cons_zero, List.getD_cons_succ, fsec,
    fmin, fhour, fmday, fmon, fwday, fyear, List.cons.injEq, and_true, true_and]
  omega

/-- Settles O12: the registers that SETTIME stored show its fields to GETTIME, and INT32 words with equal integers are
equal. -/
theorem setTimeThenGetTimeReturnsRecord : Obligations.SetTimeThenGetTimeReturnsRecord := by
  intro s d hs hc hsec hmin hhour hwday hmday hmon hy0 hy99 ho hw
  have hd : LegalTime d := ⟨hsec, hmin, hhour, hwday, hmday, hmon⟩
  obtain ⟨⟨-, hst, -⟩, hget⟩ :=
    State.timesWritten_of_ok (n := 3) (v := timeBytes d (s.readByte 0) s.freeByte) hs rfl hw
  refine ⟨_, exec_settime_of_read d hc ho, hst, fun ho' henv => ?_⟩
  have ht := State.timesWritten_tableWf hs.tableWf 3 (timeBytes d (s.readByte 0) s.freeByte)
  have hcfg := State.timesWritten_cfg hs.tableWf 3 (timeBytes d (s.readByte 0) s.freeByte)
  generalize s.timesWritten 3 (timeBytes d (s.readByte 0) s.freeByte) = t at *
  have hsame : SameTimes t.imageNow.get (fun i => (timeBytes d (s.readByte 0) s.freeByte).getD i 0) := fun i hi => by
    rw [henv i hi, hget i hi]
  have hbase : s.cfg.yearBase.toInt % 100 = 0 := (hs.cfg s.cur).2 hc
  have hfields := (timeFields_congr hsame _).trans (timeFields_timeBytes hd hbase hy0 hy99 (s.readByte 0) s.freeByte)
  have hyear : t.cfg.yearBase.toInt + unbcd (t.imageNow.get 6).toNat ≤ 2 ^ 31 - 1 := by
    have hy : s.cfg.yearBase.toInt + unbcd (t.imageNow.get 6).toNat = d.year.toInt := congrArg (·.getD 5 0) hfields
    have hlt := BitVec.toInt_lt (x := d.year)
    rw [hcfg, hy]
    omega
  obtain ⟨w, hx, hwords⟩ := exec_gettime_ok (by rwa [hcfg]) ho' hyear
  rw [hcfg, hfields] at hwords
  refine ⟨_, hx, ?_⟩
  rw [← wordList_eq_of_toInt hwords]
  exact State.complete_reports ((State.quiet_afterRead t 0 7).tableWf ht) w

/-! ### GETRAW (R176) -/

/-- The nine values that GETRAW reports under a coding for the stored time registers, in word order (R43). -/
def rawFields (coding : RawCoding) (r : Nat → Byte) : List Nat :=
  let v := rawValue coding
  [v ((r 0).toNat % 128), v ((r 1).toNat % 128),
   v (if (r 2).toNat / 64 % 2 = 1 then (r 2).toNat % 32 else (r 2).toNat % 64), (r 2).toNat / 64 % 2,
   (if (r 2).toNat / 64 % 2 = 1 then (r 2).toNat / 32 % 2 else 0),
   v ((r 3).toNat % 8), v ((r 4).toNat % 64), v ((r 5).toNat % 32), v (r 6).toNat]

theorem rawFields_congr {r r' : Nat → Byte} (h : SameTimes r r') (coding : RawCoding) :
    rawFields coding r = rawFields coding r' := by
  obtain ⟨h0, h1, h2, h3, h4, h5, h6⟩ := h.bits
  have hmode : (r 2).toNat / 64 % 2 = (r' 2).toNat / 64 % 2 := by omega
  have hpm : (r 2).toNat / 32 % 2 = (r' 2).toNat / 32 % 2 := by omega
  have hdial : (r 2).toNat % 32 = (r' 2).toNat % 32 := by omega
  have hday : (r 2).toNat % 64 = (r' 2).toNat % 64 := by omega
  simp only [rawFields, h0, h1, hmode, hpm, hdial, hday, h3, h4, h5, h6]

theorem zext32_toNat (b : Byte) : (zext32 b).toNat = b.toNat := by
  rw [zext32_eq_ofNat, BitVec.toNat_ofNat, Nat.mod_eq_of_lt (by omega)]

theorem rawDec_toNat (coding : RawCoding) (x : Byte) : (rawDec coding x).toNat = rawValue coding x.toNat := by
  cases coding with
  | decimal =>
    have hle := unbcd_le x.isLt
    change (byteWord (fromBCD x)).toNat = unbcd x.toNat
    rw [fromBCD_eq, BitVec.toNat_ofNat, Nat.mod_eq_of_lt (by omega)]
  | bcd => exact zext32_toNat x

/-- A flag's result word, the flag being a bit of a register (R94). -/
theorem boolWord_toNat (v : Bool) : (boolWord v).toNat = v.toNat := by cases v <;> rfl

theorem byte_bit_toNat (b : Byte) (k : Nat) : (b.getLsbD k).toNat = b.toNat / 2 ^ k % 2 :=
  Nat.toNat_testBit b.toNat k

/-- The words that GETRAW reports, as numbers (R94, R176). -/
theorem rawWords_toNat (coding : RawCoding) (r : Nat → Byte) :
    (rawWords coding r).map BitVec.toNat = rawFields coding r := by
  have hmode : ((r 2).getLsbD 6).toNat = (r 2).toNat / 64 % 2 := byte_bit_toNat (r 2) 6
  have hpm : ((r 2).getLsbD 5).toNat = (r 2).toNat / 32 % 2 := byte_bit_toNat (r 2) 5
  cases h12 : (r 2).getLsbD 6 with
  | false =>
    rw [h12, Bool.toNat_false] at hmode
    simp only [rawWords, rawFields, h12, ← hmode, Bool.false_eq_true, if_false, Nat.zero_ne_one, List.map_cons,
      List.map_nil, rawDec_toNat, boolWord_toNat, Bool.toNat_false, byte_and_0x7F, byte_and_0x3F, byte_and_0x1F,
      byte_and_0x07]
  | true =>
    rw [h12, Bool.toNat_true] at hmode
    simp only [rawWords, rawFields, h12, ← hmode, if_true, List.map_cons, List.map_nil, rawDec_toNat, boolWord_toNat,
      Bool.toNat_true, hpm, byte_and_0x7F, byte_and_0x3F, byte_and_0x1F, byte_and_0x07]

theorem exec_getraw_ok {s : State} (hc : s.cfg.configured = true) (ho : s.txn.outcome = .ok) :
    ∃ w, exec .getraw s = .next ((s.afterRead 0 7).complete w) ∧
      w.map BitVec.toNat = rawFields s.coding s.imageNow.get := by
  refine ⟨_, exec_of_read (exec_getraw s) hc ho, ?_⟩
  rw [rawWords_toNat, rawFields_congr s.readByte_sameTimes]

/-- Settles O13: the handle check and the read decide; the words show only bits that a read returns as stored. -/
theorem getrawOutcomes : Obligations.GetrawOutcomes := by
  intro s hs
  refine ⟨exec_endsInvalid (exec_getraw s) hs.tableWf, exec_endsReadFailed (exec_getraw s) hs.tableWf, fun hc ho => ?_⟩
  obtain ⟨w, hx, hw⟩ := exec_getraw_ok hc ho
  exact ⟨_, w, hx, State.endsRead_complete hs.tableWf 0 7 w, by simp, hw⟩

/-! ### SETRAW (R177, R178) -/

theorem byte_and_0xFF (b : Byte) : (b &&& 0xFF).toNat = b.toNat % 256 := by
  rw [BitVec.toNat_and]; exact Nat.and_two_pow_sub_one_eq_mod b.toNat 8

/-- `enc(v, mask)` on numbers, for a mask of low bits (R177). -/
theorem rawEnc_toNat {mask : Byte} {m : Nat} (hmask : ∀ b : Byte, (b &&& mask).toNat = b.toNat % m)
    (coding : RawCoding) (v free : Byte) : (rawEnc coding v mask free).toNat = rawBits coding v free m := by
  rw [rawEnc.eq_def, hmask, rawBits]
  cases coding with
  | bcd => rfl
  | decimal =>
    rw [if_neg (by decide)]
    by_cases hv : v.toNat ≤ 99
    · rw [if_pos hv, toBCD_toNat _ hv]
    · rw [if_neg hv, toBCD_free _ (by omega)]

theorem rawBits_lt {m : Nat} (hm : 0 < m) (coding : RawCoding) (v free : Byte) : rawBits coding v free m < m :=
  Nat.mod_lt _ hm

/-- In 12-hour mode the mode bit, the record's PM flag and the digits stand side by side (R178). -/
theorem hour12Flags_toNat (pm : Bool) {x : Byte} (hx : x.toNat < 32) :
    (0x40 ||| (boolByte pm <<< 5) ||| x).toNat = 64 + (if pm then 32 else 0) + x.toNat := by
  rw [BitVec.toNat_or]
  cases pm
  · exact (Nat.two_pow_add_eq_or_of_lt (i := 5) hx 2).symm
  · exact (Nat.two_pow_add_eq_or_of_lt (i := 5) hx 3).symm

theorem rawHourByte_toNat (coding : RawCoding) (d : RawData) (free : Byte) :
    (rawHourByte coding d free).toNat =
      if d.hour12 then 64 + (if d.pm then 32 else 0) + rawBits coding d.hours free 32
      else rawBits coding d.hours free 64 := by
  have hdial := rawEnc_toNat byte_and_0x1F coding d.hours free
  unfold rawHourByte
  split
  · rw [hour12Flags_toNat d.pm (by rw [hdial]; exact rawBits_lt (by omega) _ _ _), hdial]
  · exact rawEnc_toNat byte_and_0x3F coding d.hours free

/-- Settles O14: the read and the write are SETRAW's two transactions; where both succeed each register holds its
field's masked encoding, and CH as it was read. -/
theorem setrawOutcomes : Obligations.SetrawOutcomes := by
  intro s d hs
  refine ⟨exec_endsInvalid (exec_setraw d s) hs.tableWf, exec_endsReadFailed (exec_setraw d s) hs.tableWf,
    fun hc ho => ?_⟩
  have hlen : (rawBytes s.coding d (s.readByte 0 0) s.freeByte).length = 7 := rfl
  refine ⟨_, exec_setraw_of_read d hc ho, State.timesWritten_hostFrame hs.tableWf _ _,
    State.timesWritten_handlesFrame hs.tableWf _ _, fun x => State.timesWritten_get_rest hs hlen,
    State.timesWritten_shapes hlen, State.timesWritten_of_fail hs hlen, fun hw => ?_⟩
  obtain ⟨hrep, hget⟩ := State.timesWritten_of_ok (n := 1) hs hlen hw
  have hbyte : ∀ x, x < 7 → ((s.timesWritten 1 (rawBytes s.coding d (s.readByte 0 0) s.freeByte)).mem.get x).toNat =
      ((rawBytes s.coding d (s.readByte 0 0) s.freeByte).getD x 0).toNat := fun x hx => by rw [hget x hx]
  have hch : s.readByte 0 0 = s.imageNow.get 0 := s.readByte_full 0 0 rfl
  have hsec := rawEnc_toNat byte_and_0x7F s.coding d.seconds (s.freeByte 0)
  refine ⟨hrep, (hbyte 0 (by omega)).trans ?_,
    (hbyte 1 (by omega)).trans (rawEnc_toNat byte_and_0x7F s.coding d.minutes (s.freeByte 1)),
    (hbyte 2 (by omega)).trans (rawHourByte_toNat s.coding d (s.freeByte 2)),
    (hbyte 3 (by omega)).trans (rawEnc_toNat byte_and_0x07 s.coding d.day (s.freeByte 3)),
    (hbyte 4 (by omega)).trans (rawEnc_toNat byte_and_0x3F s.coding d.date (s.freeByte 4)),
    (hbyte 5 (by omega)).trans (rawEnc_toNat byte_and_0x1F s.coding d.month (s.freeByte 5)),
    (hbyte 6 (by omega)).trans (rawEnc_toNat byte_and_0xFF s.coding d.year (s.freeByte 6))⟩
  have hlow : (rawEnc s.coding d.seconds 0x7F (s.freeByte 0)).toNat < 128 := by
    rw [hsec]; exact rawBits_lt (by omega) _ _ _
  exact (keepCH_toNat hlow).trans (by rw [hsec, hch])

/-! ### A raw record written and read back (R179) -/

/-- The number that a raw numeric field stands for: decimal coding carries it, bcd coding its BCD byte (R43, R179). -/
def rawNumber (coding : RawCoding) (v : Byte) : Nat := if coding = .decimal then v.toNat else unbcd v.toNat

/-- A field whose digits fit in the bits it is kept to comes back (R177, R179). -/
theorem rawValue_rawBits {coding : RawCoding} {v free : Byte} {m : Nat}
    (hbcd : coding = .bcd → v.toNat / 16 ≤ 9 ∧ v.toNat % 16 ≤ 9) (hn : rawNumber coding v ≤ 99)
    (hm : bcd (rawNumber coding v) < m) : rawValue coding (rawBits coding v free m) = v.toNat := by
  cases coding with
  | decimal =>
    change v.toNat ≤ 99 at hn
    change bcd v.toNat < m at hm
    change unbcd ((if v.toNat ≤ 99 then bcd v.toNat else free.toNat) % m) = v.toNat
    rw [if_pos hn, unbcd_bcd_mod hn hm]
  | bcd =>
    obtain ⟨ht, hu⟩ := hbcd rfl
    change bcd (unbcd v.toNat) < m at hm
    rw [bcd_unbcd _ ht hu] at hm
    exact Nat.mod_eq_of_lt hm

/-- What the hours byte of SETRAW shows: its mode, its PM flag in 12-hour mode, and the digits of that mode (R178). -/
theorem hoursByte_shows {h12 pm : Bool} {x y w : Nat} (hx : x < 32) (hy : y < 64)
    (hw : w = if h12 then 64 + (if pm then 32 else 0) + x else y) :
    (if w / 64 % 2 = 1 then w % 32 else w % 64) = (if h12 then x else y) ∧ w / 64 % 2 = h12.toNat ∧
      (if w / 64 % 2 = 1 then w / 32 % 2 else 0) = (h12 && pm).toNat := by
  cases h12 with
  | false =>
    have hwy : w = y := by simpa using hw
    have hmode : w / 64 % 2 = 0 := by omega
    rw [hmode, hwy]
    exact ⟨Nat.mod_eq_of_lt hy, rfl, rfl⟩
  | true =>
    have hflag : w = 64 + 32 * pm.toNat + x := by rw [hw]; cases pm <;> rfl
    have hpm := pm.toNat_le
    have hmode : w / 64 % 2 = 1 := by omega
    simp only [hmode, if_true, Bool.true_and, Bool.toNat_true, true_and]
    omega

theorem bcd_le_bcd {n n' : Nat} (h : n ≤ n') : bcd n ≤ bcd n' := by unfold bcd; omega

theorem wordOfByte_toNat (b : Byte) : (wordOfByte b).toNat = b.toNat := zext32_toNat b

theorem wordOfBool_toNat (v : Bool) : (wordOfBool v).toNat = v.toNat := by cases v <;> rfl

theorem wordList_eq_of_toNat {l l' : List Word} (h : l.map BitVec.toNat = l'.map BitVec.toNat) : l = l' :=
  List.map_injective_iff.2 BitVec.toNat_injective h

/-- Every numeric field of a raw record is in its legal range, under bcd coding as a BCD byte (R179). -/
structure LegalRaw (coding : RawCoding) (d : RawData) : Prop where
  digits  : coding = .bcd → ∀ v ∈ [d.seconds, d.minutes, d.hours, d.day, d.date, d.month, d.year],
    v.toNat / 16 ≤ 9 ∧ v.toNat % 16 ≤ 9
  seconds : rawNumber coding d.seconds ≤ 59
  minutes : rawNumber coding d.minutes ≤ 59
  hours   : rawNumber coding d.hours ≤ if d.hour12 then 12 else 23
  day     : rawNumber coding d.day ≤ 7
  date    : rawNumber coding d.date ≤ 31
  month   : rawNumber coding d.month ≤ 12
  year    : rawNumber coding d.year ≤ 99

/-- GETRAW takes from the bytes of a legal raw record its fields, `pm` reading 0 in 24-hour mode (R179). -/
theorem rawFields_rawBytes {coding : RawCoding} {d : RawData} (hd : LegalRaw coding d) (sec : Byte) (free : Nat → Byte) :
    rawFields coding (fun i => (rawBytes coding d sec free).getD i 0) =
      ({ d with pm := d.hour12 && d.pm } : RawData).words.map BitVec.toNat := by
  have hback : ∀ v ∈ [d.seconds, d.minutes, d.hours, d.day, d.date, d.month, d.year], ∀ free {top m : Nat},
      rawNumber coding v ≤ top → top ≤ 99 → bcd top < m → rawValue coding (rawBits coding v free m) = v.toNat :=
    fun v hv free {top m} hle h99 hm => rawValue_rawBits (fun hb => hd.digits hb v hv) (Nat.le_trans hle h99)
      (Nat.lt_of_le_of_lt (bcd_le_bcd hle) hm)
  have hkeep : ∀ v free {m : Nat}, 0 < m → rawBits coding v free m % m = rawBits coding v free m :=
    fun v free {m} hm => Nat.mod_eq_of_lt (rawBits_lt hm _ _ _)
  have hlow : (rawEnc coding d.seconds 0x7F (free 0)).toNat < 128 := by
    rw [rawEnc_toNat byte_and_0x7F]; exact rawBits_lt (by omega) _ _ _
  obtain ⟨hdigits, hmode, hpm⟩ := hoursByte_shows (rawBits_lt (by omega) _ _ _) (rawBits_lt (by omega) _ _ _)
    (rawHourByte_toNat coding d (free 2))
  have fhours : rawValue coding (if d.hour12 then rawBits coding d.hours (free 2) 32
      else rawBits coding d.hours (free 2) 64) = d.hours.toNat := by
    have hle := hd.hours
    split at hle
    · next h => rw [if_pos h]; exact hback d.hours (by simp) _ hle (by omega) (by decide)
    · next h => rw [if_neg h]; exact hback d.hours (by simp) _ hle (by omega) (by decide)
  simp only [rawFields, rawBytes, List.getD_cons_zero, List.getD_cons_succ, RawData.words, List.map_cons, List.map_nil,
    wordOfByte_toNat, wordOfBool_toNat]
  rw [hdigits, hpm, hmode, keepCH_toNat hlow, Nat.mul_add_mod_self_right, rawEnc_toNat byte_and_0x7F,
    rawEnc_toNat byte_and_0x7F, rawEnc_toNat byte_and_0x07, rawEnc_toNat byte_and_0x3F, rawEnc_toNat byte_and_0x1F,
    rawEnc_toNat byte_and_0xFF]
  rw [hkeep _ _ (by omega), hkeep _ _ (by omega), hkeep _ _ (by omega), hkeep _ _ (by omega), hkeep _ _ (by omega),
    hback d.seconds (by simp) _ hd.seconds (by omega) (by decide),
    hback d.minutes (by simp) _ hd.minutes (by omega) (by decide), fhours,
    hback d.day (by simp) _ hd.day (by omega) (by decide), hback d.date (by simp) _ hd.date (by omega) (by decide),
    hback d.month (by simp) _ hd.month (by omega) (by decide), hback d.year (by simp) _ hd.year (by omega) (by decide)]

/-- Settles O15: the registers that SETRAW stored show its fields to GETRAW, and words with equal numbers are equal. -/
theorem setRawThenGetRawReturnsRecord : Obligations.SetRawThenGetRawReturnsRecord := by
  intro s d hs hc n hbcd hsec hmin hhour _ hday hdate hmonth hyear ho hw
  have hd : LegalRaw s.coding d := ⟨hbcd, hsec, hmin, hhour, hday.2, hdate.2, hmonth.2, hyear⟩
  obtain ⟨⟨-, hst, -⟩, hget⟩ :=
    State.timesWritten_of_ok (n := 1) (v := rawBytes s.coding d (s.readByte 0 0) s.freeByte) hs rfl hw
  refine ⟨_, exec_setraw_of_read d hc ho, hst, fun ho' henv => ?_⟩
  have ht := State.timesWritten_tableWf hs.tableWf 1 (rawBytes s.coding d (s.readByte 0 0) s.freeByte)
  have hcfg := State.timesWritten_cfg hs.tableWf 1 (rawBytes s.coding d (s.readByte 0 0) s.freeByte)
  have hcoding := (State.timesWritten_hostFrame hs.tableWf 1 (rawBytes s.coding d (s.readByte 0 0) s.freeByte)).coding
  generalize s.timesWritten 1 (rawBytes s.coding d (s.readByte 0 0) s.freeByte) = t at *
  have hsame : SameTimes t.imageNow.get (fun i => (rawBytes s.coding d (s.readByte 0 0) s.freeByte).getD i 0) :=
    fun i hi => by rw [henv i hi, hget i hi]
  obtain ⟨w, hx, hwords⟩ := exec_getraw_ok (by rwa [hcfg]) ho'
  rw [hcoding, rawFields_congr hsame, rawFields_rawBytes hd] at hwords
  refine ⟨_, hx, ?_⟩
  rw [← wordList_eq_of_toNat hwords]
  exact State.complete_reports ((State.quiet_afterRead t 0 7).tableWf ht) w

end Sys2Proof.Machine
end

section
/-! Proofs, 43_field_accessors: what the getters and setters of the single fields, and SET12H, report and store
(R211-R224). -/
namespace Sys2Proof.Machine

section
variable {s : State} {i : Instr} {f : Field}

/-! ### The getter pattern (R211) -/

theorem getField_eq (f : Field) (s : State) : getField f s = s.withHandle fun s => s.onRead f.addr 1 fun r s' =>
    .next (s'.complete [zext32 (f.extract (r 0))]) := rfl

/-- A field whose bits are not reserved reads as stored (R39). -/
theorem State.readByte_and_mask (s : State) (hres : f.mask &&& reservedMask f.addr = 0) :
    s.readByte f.addr 0 &&& f.mask = s.imageNow.get f.addr &&& f.mask :=
  readBack_and_mask f.addr _ _ f.mask hres

/-- The value of a field of `w` adjacent bits, as a number (R211). -/
theorem Field.extract_toNat {w : Nat} (hmask : f.mask.toNat >>> f.shift = 2 ^ w - 1) (r : Byte) :
    (f.extract r).toNat = r.toNat / 2 ^ f.shift % 2 ^ w := by
  rw [Field.extract, BitVec.toNat_ushiftRight, BitVec.toNat_and, Nat.shiftRight_and_distrib, hmask,
    Nat.and_two_pow_sub_one_eq_mod, Nat.shiftRight_eq_div_pow]

/-- Every outcome of a command of the getter pattern. -/
theorem getField_outcomes {w : Nat} (hx : exec i s = getField f s) (hres : f.mask &&& reservedMask f.addr = 0)
    (hmask : f.mask.toNat >>> f.shift = 2 ^ w - 1) (hs : s.Inv) :
    (s.cfg.configured = false → ∃ t, exec i s = .next t ∧ s.EndsInvalid t) ∧
    (s.cfg.configured = true → s.txn.outcome = .fail → ∃ t, exec i s = .next t ∧ s.EndsReadFailed t f.addr 1) ∧
    (s.cfg.configured = true → s.txn.outcome = .ok →
      ∃ t, exec i s = .next t ∧ t.shapes = s.shapes ++ [.read f.addr 1] ∧
        s.EndsRead t [BitVec.ofNat 32 ((s.imageNow.get f.addr).toNat / 2 ^ f.shift % 2 ^ w)]) := by
  have hx := hx.trans (getField_eq f s)
  refine ⟨exec_endsInvalid hx hs.tableWf, exec_endsReadFailed hx hs.tableWf, fun hc ho => ?_⟩
  have hval : f.extract (s.readByte f.addr 0) = f.extract (s.imageNow.get f.addr) := by
    rw [Field.extract, s.readByte_and_mask hres, ← Field.extract]
  refine ⟨_, exec_of_read hx hc ho, by simp, ?_⟩
  rw [hval, zext32_of_toNat _ _ (Field.extract_toNat hmask _)]
  exact State.endsRead_complete hs.tableWf f.addr 1 _

end

/-- Settles O16: each getter is the pattern at a row of R211's table, whose fields lie outside the reserved bits. -/
theorem getterOutcomes : Obligations.GetterOutcomes := by
  intro s hs row hrow
  simp only [List.mem_cons, List.not_mem_nil, or_false] at hrow
  rcases hrow with rfl | rfl | rfl | rfl | rfl
  · exact getField_outcomes (f := fieldCH) (w := 1) rfl rfl rfl hs
  · exact getField_outcomes (f := fieldOUT) (w := 1) rfl rfl rfl hs
  · exact getField_outcomes (f := fieldSQWE) (w := 1) rfl rfl rfl hs
  · exact getField_outcomes (f := fieldRS) (w := 2) rfl rfl rfl hs
  · exact getField_outcomes (f := fieldMode) (w := 1) rfl rfl rfl hs

/-! ### Read, check, write: the pattern of the setters and of SET12H (R212, R224) -/

/-- One byte is read; where it passes the skip test the command ends, else one byte is written in its place. -/
def readCheckWrite (a : Nat) (skip : Byte → Bool) (new : State → Byte → Byte) (s : State) :
    Host.Outcome State Fault Refusal :=
  s.withHandle fun s => s.onRead a 1 fun r s' =>
    .next (if skip (r 0) then s'.complete [] else s'.writeAndEnd a [new s' (r 0)])

theorem setField_eq (f : Field) (v : Byte) (s : State) :
    setField f v s = readCheckWrite f.addr (fun r => f.holds r v) (fun _ r => f.insert r v) s := rfl

theorem exec_set12h (v : Bool) (s : State) : exec (.set12h v) s =
    readCheckWrite 0x02 (fun r => r.getLsbD 6 == v) (fun s' r => reencode r v (s'.freeByte 0)) s := rfl

/-- A command that read register `a` and then wrote `b` there: what it reports and stores by the outcome of the write, and
that every other byte is as ENV left it (R72, R212). -/
def State.EndsStored (s t : State) (a : Nat) (b : Byte) : Prop :=
  s.HostFrame t ∧ s.HandlesFrame t ∧ (∀ x, x ≠ a → t.mem.get x = s.secondImage.get x) ∧
    t.shapes = s.shapes ++ [.read a 1, .write a 1] ∧
    (s.secondTxn.outcome = .fail → t.Reports .busError [] ∧ t.mem.get a = s.secondNoise 0) ∧
    (s.secondTxn.outcome = .ok → t.Reports .ok [] ∧ t.mem.get a = b)

section
variable {s : State} {i : Instr} {a : Nat} {skip : Byte → Bool} {new : State → Byte → Byte}

theorem State.endsStored_writeAndEnd (hs : s.Inv) (ha : a < 64) (b : Byte) :
    s.EndsStored ((s.afterRead a 1).writeAndEnd a [b]) a b := by
  have hq := s.quiet_afterRead a 1
  have hlen : a + [b].length ≤ 64 := ha
  obtain ⟨hok, hfail, hrest⟩ := State.writeAndEnd_spec (hq.tableWf hs.tableWf) (State.secondImage_wf hs.mem) hlen
  refine ⟨State.writeAndEnd_hostFrame hq hs.tableWf a [b], State.writeAndEnd_handlesFrame hq hs.tableWf a [b],
    fun x hx => hrest x (by simp; omega), by simp, fun ho => ?_, fun ho => ?_⟩
  · obtain ⟨hrep, hget⟩ := hfail ho
    exact ⟨hrep, by simpa using hget a⟩
  · obtain ⟨hrep, hget⟩ := hok ho
    exact ⟨hrep, by simpa using hget a⟩

/-- Every outcome of a command of the read-check-write pattern. -/
theorem readCheckWrite_outcomes (hx : exec i s = readCheckWrite a skip new s) (ha : a < 64) (hs : s.Inv) :
    (s.cfg.configured = false → ∃ t, exec i s = .next t ∧ s.EndsInvalid t) ∧
    (s.cfg.configured = true → s.txn.outcome = .fail → ∃ t, exec i s = .next t ∧ s.EndsReadFailed t a 1) ∧
    (s.cfg.configured = true → s.txn.outcome = .ok → skip (s.readByte a 0) = true →
      ∃ t, exec i s = .next t ∧ s.EndsRead t [] ∧ t.shapes = s.shapes ++ [.read a 1]) ∧
    (s.cfg.configured = true → s.txn.outcome = .ok → ¬skip (s.readByte a 0) = true →
      ∃ t, exec i s = .next t ∧ s.EndsStored t a (new (s.afterRead a 1) (s.readByte a 0))) := by
  have hx := hx.trans (readCheckWrite.eq_def a skip new s)
  refine ⟨exec_endsInvalid hx hs.tableWf, exec_endsReadFailed hx hs.tableWf, fun hc ho hskip => ?_, fun hc ho hskip => ?_⟩
  · exact ⟨_, (exec_of_read hx hc ho).trans (by rw [if_pos hskip]), State.endsRead_complete hs.tableWf a 1 [], by simp⟩
  · exact ⟨_, (exec_of_read hx hc ho).trans (by rw [if_neg hskip]), State.endsStored_writeAndEnd hs ha _⟩

end

/-! ### The setters (R212, R213) -/

section
variable {s : State} {i : Instr} {f : Field} {v nb : Byte}

/-- The skip test decides on the stored field (R39, R213). -/
theorem Field.holds_readByte (hres : f.mask &&& reservedMask f.addr = 0) (v : Byte) :
    f.holds (s.readByte f.addr 0) v = true ↔ s.imageNow.get f.addr &&& f.mask = f.newBits v := by
  rw [Field.holds, beq_iff_eq, s.readByte_and_mask hres]

/-- The new bits of a flag are all of its mask or none of it (R212). -/
theorem Field.newBits_boolByte (h1 : f.newBits 1 = f.mask) (v : Bool) :
    f.newBits (boolByte v) = if v then f.mask else 0 := by
  cases v with
  | true => exact h1
  | false => simp [Field.newBits, boolByte]

/-- The new bits of RS1:RS0 are the operand's two bits (R221). -/
theorem fieldRS_newBits (rs : BitVec 2) : fieldRS.newBits (rs.zeroExtend 8) = rs.zeroExtend 8 := by
  revert rs; decide

/-- Every outcome of a command of the setter pattern. -/
theorem setField_outcomes (hx : exec i s = setField f v s) (hres : f.mask &&& reservedMask f.addr = 0)
    (ha : f.addr < 64) (hnb : f.newBits v = nb) (hs : s.Inv) :
    (s.cfg.configured = false → ∃ t, exec i s = .next t ∧ s.EndsInvalid t) ∧
    (s.cfg.configured = true → s.txn.outcome = .fail → ∃ t, exec i s = .next t ∧ s.EndsReadFailed t f.addr 1) ∧
    (s.cfg.configured = true → s.txn.outcome = .ok → s.imageNow.get f.addr &&& f.mask = nb →
      ∃ t, exec i s = .next t ∧ s.EndsRead t [] ∧ t.shapes = s.shapes ++ [.read f.addr 1]) ∧
    (s.cfg.configured = true → s.txn.outcome = .ok → s.imageNow.get f.addr &&& f.mask ≠ nb →
      ∃ t, exec i s = .next t ∧ s.EndsStored t f.addr ((s.readByte f.addr 0 &&& ~~~f.mask) ||| nb)) := by
  subst hnb
  have h := readCheckWrite_outcomes (hx.trans (setField_eq f v s)) ha hs
  rwa [Field.holds_readByte hres] at h

end

/-- Settles O17: each setter is the pattern at a row of R211's table; the rows differ in the new bits. -/
theorem setterOutcomes : Obligations.SetterOutcomes := by
  intro s v rs hs row hrow
  simp only [List.mem_cons, List.not_mem_nil, or_false] at hrow
  rcases hrow with rfl | rfl | rfl | rfl
  · exact setField_outcomes (f := fieldCH) rfl rfl (by decide) (Field.newBits_boolByte rfl v) hs
  · exact setField_outcomes (f := fieldOUT) rfl rfl (by decide) (Field.newBits_boolByte rfl v) hs
  · exact setField_outcomes (f := fieldSQWE) rfl rfl (by decide) (Field.newBits_boolByte rfl v) hs
  · exact setField_outcomes (f := fieldRS) rfl rfl (by decide) (fieldRS_newBits rs) hs

/-! ### SET12H (R223, R224) -/

/-- Bits 6 and 7 of an hours byte do not count for its hour in 12-hour layout (R145). -/
theorem hour12Of_mod (b : Nat) : hour12Of (b % 64) = hour12Of b := by
  have hdial : b % 64 % 32 = b % 32 := by omega
  have hpm : b % 64 / 32 % 2 = b / 32 % 2 := by omega
  rw [hour12Of, hdial, hpm, ← hour12Of]

/-- The re-encoded hours byte depends on bits 5-0 alone; both encoders' arguments are in range, so no free byte shows
(R223). -/
theorem reencode_toNat (b : Byte) (v : Bool) (free : Byte) :
    (reencode b v free).toNat =
      if v then hour12Or (unbcd (b.toNat % 64)) else bcd (hour12Of (b.toNat % 64)) := by
  cases v with
  | true =>
    have hle : unbcd (b.toNat % 64) ≤ 111 := by unfold unbcd; omega
    rw [reencode, if_pos rfl, fromBCD_eq, byte_and_0x3F, encode12Hour_toNat _ hle, if_pos rfl]
  | false =>
    have hle : hour12Of b.toNat ≤ 99 := by unfold hour12Of unbcd; split_ifs <;> omega
    rw [reencode, if_neg (by decide), decode12Hour_eq, toBCD_toNat _ hle, if_neg (by decide), hour12Of_mod]

/-- The skip test of SET12H decides on the stored mode (R39, R224). -/
theorem State.mode_readByte (s : State) (v : Bool) : ((s.readByte 2 0).getLsbD 6 == v) = true ↔
    (s.imageNow.get 2).toNat / 64 % 2 = if v then 1 else 0 := by
  have hbit : (s.readByte 2 0).getLsbD 6 = decide ((s.imageNow.get 2).toNat / 64 % 2 = 1) :=
    (s.readByte_bit 2 0 6 (by omega) (by decide)).trans (byte_bit _ 6)
  rw [hbit, beq_iff_eq]
  cases v with
  | true => simp
  | false => simp

/-- Settles O20: SET12H is the pattern on the hours byte; its six low bits read as stored, and only they are re-encoded. -/
theorem set12hOutcomes : Obligations.Set12hOutcomes := by
  intro s v hs
  obtain ⟨hinv, hfail, hskip, hstore⟩ := readCheckWrite_outcomes (exec_set12h v s) (by omega) hs
  rw [s.mode_readByte] at hskip hstore
  refine ⟨hinv, hfail, hskip, fun hc ho hmode => ?_⟩
  obtain ⟨t, hx, hhost, hhandles, hrest, hshapes, hbad, hok⟩ := hstore hc ho hmode
  refine ⟨t, hx, hhost, hhandles, hrest, hshapes, hbad, fun hw => ?_⟩
  obtain ⟨hrep, hget⟩ := hok hw
  have hlow : (s.readByte 2 0).toNat % 64 = (s.imageNow.get 2).toNat % 64 := s.readByte_mod 2 0 6 (by omega) (by decide)
  refine ⟨hrep, ?_⟩
  rw [hget, reencode_toNat, hlow, hour12Of_mod]

end Sys2Proof.Machine
end

section
/-! Proofs, 44_ram: what GETRAM and SETRAM report, read and store (R261-R263). -/
namespace Sys2Proof.Machine

/-! ### The bound check (R261) -/

section
variable {s : State} {i : Instr} {offset length : Nat} {k : State → Host.Outcome State Fault Refusal}

theorem State.withinRam_of_le (h : offset + length ≤ 56) : s.withinRam offset length k = k s :=
  if_pos (decide_eq_true h)

theorem State.withinRam_of_gt (h : 56 < offset + length) :
    s.withinRam offset length k = .next (s.raise .invalidArgument) :=
  if_neg (by simpa [inRange] using h)

/-- The handle check and the bound check end in the same way, so it does not matter which of them fails (R22, R261). -/
theorem exec_ram_endsInvalid (hx : exec i s = s.withHandle fun s => s.withinRam offset length k) (hs : s.tableWf)
    (h : s.cfg.configured = false ∨ 56 < offset + length) : ∃ t, exec i s = .next t ∧ s.EndsInvalid t := by
  refine ⟨s.raise .invalidArgument, hx.trans ?_, State.endsInvalid_raise hs⟩
  cases hc : s.cfg.configured with
  | false => exact State.withHandle_unconfigured hc
  | true =>
    have hgt : 56 < offset + length := h.resolve_left (by simp [hc])
    exact (State.withHandle_configured hc).trans (State.withinRam_of_gt hgt)

end

section
variable {s : State} {offset length : Word} {bytes : List Byte}

/-! ### GETRAM (R262) -/

theorem exec_getram (offset length : Word) (s : State) : exec (.getram offset length) s = s.withHandle fun s =>
    s.withinRam offset.toNat length.toNat fun s => s.onRead (8 + offset.toNat) length.toNat fun r s' =>
      .next (s'.complete ((List.range length.toNat).map fun i => zext32 (r i))) := rfl

/-- Inside the window GETRAM is a command that begins with the handle check and a read. -/
theorem exec_getram_of_le (h : offset.toNat + length.toNat ≤ 56) : exec (.getram offset length) s =
    s.withHandle fun s => s.onRead (8 + offset.toNat) length.toNat fun r s' =>
      .next (s'.complete ((List.range length.toNat).map fun i => zext32 (r i))) := by
  simp only [exec_getram, State.withinRam_of_le h]

/-- No bit of the RAM is reserved (R38). -/
theorem reservedMask_ram {a : Nat} (ha : 8 ≤ a) : reservedMask a = 0 := by
  obtain ⟨n, rfl⟩ := Nat.exists_eq_add_of_le' ha
  rfl

/-- Every RAM byte reads as stored (R39). -/
theorem State.readByte_ram (s : State) (o j : Nat) : s.readByte (8 + o) j = s.imageNow.get (8 + o + j) :=
  s.readByte_full (8 + o) j (reservedMask_ram (by omega))

/-- Settles O23: the two checks fail alike; past them GETRAM is one read, and every RAM byte reads as stored. -/
theorem getramOutcomes : Obligations.GetramOutcomes := by
  intro s offset length hs
  refine ⟨exec_ram_endsInvalid (exec_getram offset length s) hs.tableWf,
    fun hc hle ho => exec_endsReadFailed (exec_getram_of_le hle) hs.tableWf hc ho, fun hc hle ho => ?_⟩
  refine ⟨_, exec_of_read (exec_getram_of_le hle) hc ho, by simp, ?_⟩
  simp only [s.readByte_ram]
  exact State.endsRead_complete hs.tableWf _ _ _

/-! ### SETRAM (R263) -/

theorem exec_setram (offset : Word) (bytes : List Byte) (s : State) : exec (.setram offset bytes) s =
    s.withHandle fun s => s.withinRam offset.toNat bytes.length fun s =>
      .next (s.writeAndEnd (8 + offset.toNat) bytes) := rfl

/-- With a handle and inside the window SETRAM is its final write. -/
theorem exec_setram_of_le (hc : s.cfg.configured = true) (h : offset.toNat + bytes.length ≤ 56) :
    exec (.setram offset bytes) s = .next (s.writeAndEnd (8 + offset.toNat) bytes) :=
  (exec_setram offset bytes s).trans ((State.withHandle_configured hc).trans (State.withinRam_of_le h))

/-- A final write that succeeded: OK, and the bytes are in the image (R14, R63). -/
theorem State.writeAndEnd_of_ok (h : s.tableWf) (hm : s.imageNow.wf = true) {a : Nat} (ha : a + bytes.length ≤ 64)
    (ho : s.txn.outcome = .ok) :
    (s.writeAndEnd a bytes).Reports .ok [] ∧
      ∀ j (hj : j < bytes.length), (s.writeAndEnd a bytes).mem.get (a + j) = bytes[j] := by
  obtain ⟨hok, -, -⟩ := State.writeAndEnd_spec h hm ha
  obtain ⟨hrep, hbytes⟩ := hok ho
  refine ⟨hrep, fun j hj => ?_⟩
  rw [hbytes _ (by omega) (by omega), Nat.add_sub_cancel_left, List.getD_eq_getElem _ _ hj]

/-- Settles O24: the two checks fail alike; past them SETRAM is one final write, which lies inside the image. -/
theorem setramOutcomes : Obligations.SetramOutcomes := by
  intro s offset bytes hs
  refine ⟨exec_ram_endsInvalid (exec_setram offset bytes s) hs.tableWf, fun hc hle => ?_⟩
  have hm := State.imageNow_wf hs.mem
  have ha : 8 + offset.toNat + bytes.length ≤ 64 := by omega
  obtain ⟨-, -, hrest⟩ := State.writeAndEnd_spec hs.tableWf hm ha
  refine ⟨_, exec_setram_of_le hc hle, State.writeAndEnd_hostFrame (.refl s) hs.tableWf _ _,
    State.writeAndEnd_handlesFrame (.refl s) hs.tableWf _ _, hrest, s.shapes_writeAndEnd _ _, fun ho => ?_,
    State.writeAndEnd_of_ok hs.tableWf hm ha⟩
  obtain ⟨hrep, hnoise, -⟩ := State.writeAndEnd_of_fail hs.tableWf hm ha ho
  exact ⟨hrep, hnoise⟩

end

end Sys2Proof.Machine
end

section
/-! Proofs, 30_encoding: the decoder against the encoder, and what it refuses (R91-R101). -/
namespace Sys2Proof.Machine

/-! ### The opcode map (R97, R98) -/

theorem Opcode.ofByte_byte (o : Opcode) : Opcode.ofByte o.byte = some o := by cases o <;> rfl

theorem Opcode.byte_of_ofByte {op : Byte} {o : Opcode} (h : Opcode.ofByte op = some o) : o.byte = op :=
  eq_of_beq (List.find?_some (p := fun o : Opcode => o.byte == op) h)

theorem Opcode.byte_injective {o o' : Opcode} (h : o.byte = o'.byte) : o = o' := by
  have hs : some o = some o' := by rw [← Opcode.ofByte_byte o, h, Opcode.ofByte_byte o']
  exact Option.some.inj hs

/-- The row of a command (R97). -/
def Instr.opcode (i : Instr) : Opcode :=
  match i with
  | .tobcd _ => .tobcd | .frombcd _ => .frombcd | .dec12h _ => .dec12h | .enc12h _ => .enc12h
  | .config _ _ _ => .config | .deconfig => .deconfig
  | .gettime => .gettime | .settime _ => .settime | .getraw => .getraw | .setraw _ => .setraw
  | .gethalt => .gethalt | .sethalt _ => .sethalt | .getout => .getout | .setout _ => .setout
  | .getsqwe => .getsqwe | .setsqwe _ => .setsqwe | .getrate => .getrate | .setrate _ => .setrate
  | .get12h => .get12h | .set12h _ => .set12h
  | .getram _ _ => .getram | .setram _ _ => .setram

theorem encode_op (i : Instr) : (encode i).op = (Instr.opcode i).byte := by cases i <;> rfl

/-! ### The operand kinds (R94): a word of its kind is the word of its value -/

theorem byteOf_wordOfByte (b : Byte) : byteOf (wordOfByte b) = b := by revert b; decide
theorem boolOf_wordOfBool (v : Bool) : boolOf (wordOfBool v) = v := by cases v <;> rfl
theorem rs2Of_zeroExtend (v : BitVec 2) : rs2Of (v.zeroExtend 32) = v := by revert v; decide
theorem addr7Of_zeroExtend (v : BitVec 7) : addr7Of (v.zeroExtend 32) = v := by revert v; decide

/-- A mask of all bits from `n` up refuses exactly the words from `2 ^ n` up. -/
theorem and_high_eq_zero_iff (w : Word) (n : Nat) :
    w &&& (BitVec.allOnes 32 <<< n) = 0 ↔ w.toNat < 2 ^ n := by
  have hle : w.toNat / 2 ^ n * 2 ^ n ≤ w.toNat := Nat.div_mul_le_self _ _
  have hval : (w &&& (BitVec.allOnes 32 <<< n)).toNat = w.toNat / 2 ^ n * 2 ^ n := by
    rw [← BitVec.shiftLeft_ushiftRight, BitVec.toNat_shiftLeft, BitVec.toNat_ushiftRight, Nat.shiftRight_eq_div_pow,
      Nat.shiftLeft_eq, Nat.mod_eq_of_lt (lt_of_le_of_lt hle w.isLt)]
  rw [← BitVec.toNat_inj, hval]
  simp [Nat.div_eq_zero_iff]

/-- A kind admits exactly the words below its limit (R94, R99). -/
theorem Kind.admits_iff (k : Kind) (w : Word) : k.admits w = true ↔ w.toNat < kindLimit k := by
  have hmask : ∀ n, k.zeroBits = BitVec.allOnes 32 <<< n → kindLimit k = 2 ^ n →
      (k.admits w = true ↔ w.toNat < kindLimit k) := fun n hz hl => by
    rw [Kind.admits, beq_iff_eq, hz, hl, and_high_eq_zero_iff w n]
  cases k with
  | int32 | u32 => exact hmask 32 rfl rfl
  | byte => exact hmask 8 rfl rfl
  | bool => exact hmask 1 rfl rfl
  | rs2 => exact hmask 2 rfl rfl
  | addr7 => exact hmask 7 rfl rfl

theorem wordOfByte_byteOf {w : Word} (h : Kind.byte.admits w = true) : wordOfByte (byteOf w) = w := by
  have hlt : w.toNat < 256 := (Kind.admits_iff _ w).1 h
  apply BitVec.eq_of_toNat_eq
  simp [wordOfByte, byteOf]
  omega

theorem wordOfBool_boolOf {w : Word} (h : Kind.bool.admits w = true) : wordOfBool (boolOf w) = w := by
  have hlt : w.toNat < 2 := (Kind.admits_iff _ w).1 h
  have hw : w = 0 ∨ w = 1 := by bv_omega
  rcases hw with rfl | rfl <;> rfl

theorem zeroExtend_rs2Of {w : Word} (h : Kind.rs2.admits w = true) : (rs2Of w).zeroExtend 32 = w := by
  have hlt : w.toNat < 4 := (Kind.admits_iff _ w).1 h
  apply BitVec.eq_of_toNat_eq
  simp [rs2Of]
  omega

theorem zeroExtend_addr7Of {w : Word} (h : Kind.addr7.admits w = true) : (addr7Of w).zeroExtend 32 = w := by
  have hlt : w.toNat < 128 := (Kind.admits_iff _ w).1 h
  apply BitVec.eq_of_toNat_eq
  simp [addr7Of]
  omega

/-! ### The decoder's four checks, in their order (R95, R288) -/

section
variable {c : Encoded} {o : Opcode} {i : Instr}

theorem decode_of_row (hb : Opcode.ofByte c.op = some o) (hl : o.operandCount c.words ≤ c.words.length)
    (ha : o.wordsAdmitted c.words = true) (hx : o.assemble c.words = some i) : decode c = .ok i := by
  simp only [decode, hb, if_neg (Nat.not_lt.2 hl), if_pos ha, hx]

theorem decode_short (hb : Opcode.ofByte c.op = some o) (hl : c.words.length < o.operandCount c.words) :
    decode c = .error .shortCommand := by
  simp only [decode, hb, if_pos hl]

theorem decode_reservedBits (hb : Opcode.ofByte c.op = some o) (hl : o.operandCount c.words ≤ c.words.length)
    (ha : ¬o.wordsAdmitted c.words = true) : decode c = .error .reservedOperandBits := by
  simp only [decode, hb, if_neg (Nat.not_lt.2 hl), if_neg ha]

theorem decode_reservedOpcode_iff : decode c = .error .reservedOpcode ↔ Opcode.ofByte c.op = none := by
  cases hb : Opcode.ofByte c.op with
  | none => simp [decode, hb]
  | some o =>
    simp only [decode, hb]
    split
    · simp
    · split
      · split <;> simp
      · simp

/-- A command that decodes passed the four checks. -/
theorem decode_cases (h : decode c = .ok i) : ∃ o, Opcode.ofByte c.op = some o ∧
    o.operandCount c.words ≤ c.words.length ∧ o.wordsAdmitted c.words = true ∧ o.assemble c.words = some i := by
  unfold decode at h
  split at h
  · cases h
  · next o hb =>
    split at h
    · cases h
    · next hl =>
      split at h
      · next ha =>
        split at h
        · next hx => cases h; exact ⟨o, hb, Nat.not_lt.1 hl, ha, hx⟩
        · cases h
      · cases h

end

/-! ### Decode after encode -/

/-- The encoding of a well-formed command is as long as its row says, and each word is of its kind (R91, R93, R94). -/
theorem encodedLength (i : Instr) : Laws.EncodedLength.Statement i := by
  cases i with
  | tobcd n => exact Laws.EncodedLength.tobcd n
  | frombcd b => exact Laws.EncodedLength.frombcd b
  | dec12h b => exact Laws.EncodedLength.dec12h b
  | enc12h h => exact Laws.EncodedLength.enc12h h
  | config c d v => exact Laws.EncodedLength.config c d v
  | deconfig => exact Laws.EncodedLength.deconfig
  | gettime => exact Laws.EncodedLength.gettime
  | settime t => exact Laws.EncodedLength.settime t
  | getraw => exact Laws.EncodedLength.getraw
  | setraw d => exact Laws.EncodedLength.setraw d
  | gethalt => exact Laws.EncodedLength.gethalt
  | sethalt v => exact Laws.EncodedLength.sethalt v
  | getout => exact Laws.EncodedLength.getout
  | setout v => exact Laws.EncodedLength.setout v
  | getsqwe => exact Laws.EncodedLength.getsqwe
  | setsqwe v => exact Laws.EncodedLength.setsqwe v
  | getrate => exact Laws.EncodedLength.getrate
  | setrate v => exact Laws.EncodedLength.setrate v
  | get12h => exact Laws.EncodedLength.get12h
  | set12h v => exact Laws.EncodedLength.set12h v
  | getram o l => exact Laws.EncodedLength.getram o l
  | setram o bs => exact Laws.EncodedLength.setram o bs

/-- SETRAM's data words are all the words that its length word counts (R93, R101). -/
theorem take_setramWords {bytes : List Byte} (h : bytes.length < 2 ^ 32) :
    (((bytes.map wordOfByte).take (BitVec.ofNat 32 bytes.length).toNat).map byteOf) = bytes := by
  have hlen : (BitVec.ofNat 32 bytes.length).toNat = bytes.length := by
    rw [BitVec.toNat_ofNat, Nat.mod_eq_of_lt h]
  have hall : (bytes.map wordOfByte).take bytes.length = bytes.map wordOfByte := List.take_of_length_le (by simp)
  rw [hlen, hall, List.map_map]
  exact List.map_id'' byteOf_wordOfByte bytes

/-- The words of an encoding make up the command again. -/
theorem assemble_encode (i : Instr) (h : i.wellFormed = true) :
    (Instr.opcode i).assemble (encode i).words = some i := by
  cases i with
  | frombcd b => exact congrArg (some ∘ Instr.frombcd) (byteOf_wordOfByte b)
  | dec12h b => exact congrArg (some ∘ Instr.dec12h) (byteOf_wordOfByte b)
  | config c d v => exact congrArg (fun x => some (Instr.config c x v)) (addr7Of_zeroExtend d)
  | setraw d => simp [Instr.opcode, encode, RawData.words, Opcode.assemble, byteOf_wordOfByte, boolOf_wordOfBool]
  | sethalt v => exact congrArg (some ∘ Instr.sethalt) (boolOf_wordOfBool v)
  | setout v => exact congrArg (some ∘ Instr.setout) (boolOf_wordOfBool v)
  | setsqwe v => exact congrArg (some ∘ Instr.setsqwe) (boolOf_wordOfBool v)
  | setrate v => exact congrArg (some ∘ Instr.setrate) (rs2Of_zeroExtend v)
  | set12h v => exact congrArg (some ∘ Instr.set12h) (boolOf_wordOfBool v)
  | setram o bs => exact congrArg (some ∘ Instr.setram o) (take_setramWords (of_decide_eq_true h))
  | _ => rfl

/-- Settles O52: the encoding is of its row's length and kinds, so the decoder's checks pass, and the words make up the
command again. -/
theorem decodeOfEncode : Obligations.DecodeOfEncode := by
  intro i hi
  obtain ⟨o, hop, hlen, hadm⟩ := encodedLength i hi
  have ho : o = Instr.opcode i := Opcode.byte_injective (hop.symm.trans (encode_op i))
  subst ho
  exact decode_of_row (hop ▸ Opcode.ofByte_byte _) hlen.ge hadm (assemble_encode i hi)

/-! ### The words of a command that passed the check of their kinds (R94, R99) -/

/-- A word that the format gives a kind is of that kind. -/
theorem Opcode.admits_fixed {o : Opcode} {words : List Word} (ha : o.wordsAdmitted words = true) (j : Nat) {k : Kind}
    {w : Word} (hk : o.kinds[j]? = some k) (hw : words[j]? = some w) : k.admits w = true := by
  obtain ⟨hfixed, -⟩ := Bool.and_eq_true_iff.1 ha
  have hmem : (k, w) ∈ o.kinds.zip words := List.mem_of_getElem? (i := j) (List.getElem?_zip_eq_some.2 ⟨hk, hw⟩)
  exact List.all_eq_true.1 hfixed _ hmem

/-- SETRAM's data words are BYTE words. -/
theorem Opcode.admits_data {words : List Word} (ha : Opcode.setram.wordsAdmitted words = true) :
    ((words.drop 2).take (Opcode.setram.dataCount words)).all Kind.byte.admits = true := by
  obtain ⟨-, hdata⟩ := Bool.and_eq_true_iff.1 ha
  exact hdata

/-! ### Encode after decode -/

/-- The words of SETRAM's data that it reads, as they were presented (R101). -/
theorem map_wordOfByte_byteOf {l : List Word} (h : l.all Kind.byte.admits = true) :
    (l.map byteOf).map wordOfByte = l := by
  rw [List.map_map]
  conv_rhs => rw [← List.map_id l]
  exact List.map_congr_left fun w hw => wordOfByte_byteOf (List.all_eq_true.1 h w hw)

/-- SETRAM with all its data words is the encoding of its offset and bytes (R93, R101). -/
theorem encode_setram_prefix {offset length : Word} {data : List Word} (hl : length.toNat ≤ data.length)
    (ha : (data.take length.toNat).all Kind.byte.admits = true) :
    (encode (.setram offset ((data.take length.toNat).map byteOf))).words <+: offset :: length :: data := by
  have hlen : BitVec.ofNat 32 ((data.take length.toNat).map byteOf).length = length := by
    rw [List.length_map, List.length_take, Nat.min_eq_left hl, BitVec.ofNat_toNat, BitVec.setWidth_eq]
  simp only [encode, hlen, map_wordOfByte_byteOf ha, List.prefix_cons_inj]
  exact List.take_prefix _ _

/-- What a row assembles from words of its kinds is encoded as the words it read. -/
theorem encode_assemble {o : Opcode} {words : List Word} {i : Instr} (hl : o.operandCount words ≤ words.length)
    (ha : o.wordsAdmitted words = true) (hx : o.assemble words = some i) :
    i.wellFormed = true ∧ Instr.opcode i = o ∧ (encode i).words <+: words := by
  have adm := Opcode.admits_fixed ha
  cases o with
  | deconfig | gettime | getraw | gethalt | getout | getsqwe | getrate | get12h =>
    cases hx
    exact ⟨rfl, rfl, List.nil_prefix⟩
  | tobcd | enc12h | settime | getram =>
    simp only [Opcode.assemble] at hx
    split at hx <;> cases hx
    exact ⟨rfl, rfl, _, rfl⟩
  | frombcd | dec12h =>
    simp only [Opcode.assemble] at hx
    split at hx <;> cases hx
    refine ⟨rfl, rfl, ?_⟩
    rw [encode, wordOfByte_byteOf (adm 0 rfl rfl)]
    exact ⟨_, rfl⟩
  | sethalt | setout | setsqwe | set12h =>
    simp only [Opcode.assemble] at hx
    split at hx <;> cases hx
    refine ⟨rfl, rfl, ?_⟩
    rw [encode, wordOfBool_boolOf (adm 0 rfl rfl)]
    exact ⟨_, rfl⟩
  | setrate =>
    simp only [Opcode.assemble] at hx
    split at hx <;> cases hx
    refine ⟨rfl, rfl, ?_⟩
    rw [encode, zeroExtend_rs2Of (adm 0 rfl rfl)]
    exact ⟨_, rfl⟩
  | config =>
    simp only [Opcode.assemble] at hx
    split at hx <;> cases hx
    refine ⟨rfl, rfl, ?_⟩
    rw [encode, zeroExtend_addr7Of (adm 1 rfl rfl)]
    exact ⟨_, rfl⟩
  | setraw =>
    simp only [Opcode.assemble] at hx
    split at hx <;> cases hx
    refine ⟨rfl, rfl, ?_⟩
    simp only [encode, RawData.words, wordOfByte_byteOf (adm 0 rfl rfl), wordOfByte_byteOf (adm 1 rfl rfl),
      wordOfByte_byteOf (adm 2 rfl rfl), wordOfBool_boolOf (adm 3 rfl rfl), wordOfBool_boolOf (adm 4 rfl rfl),
      wordOfByte_byteOf (adm 5 rfl rfl), wordOfByte_byteOf (adm 6 rfl rfl), wordOfByte_byteOf (adm 7 rfl rfl),
      wordOfByte_byteOf (adm 8 rfl rfl)]
    exact ⟨_, rfl⟩
  | setram =>
    simp only [Opcode.assemble] at hx
    split at hx <;> cases hx
    next offset length data =>
    have hcount : 2 + length.toNat ≤ (offset :: length :: data).length := hl
    have hlen : length.toNat ≤ data.length := by rw [List.length_cons, List.length_cons] at hcount; omega
    have hlt : ((data.take length.toNat).map byteOf).length < 2 ^ 32 := by
      rw [List.length_map, List.length_take]
      have := length.isLt
      omega
    exact ⟨decide_eq_true hlt, rfl, encode_setram_prefix hlen (Opcode.admits_data ha)⟩

/-- Settles O53: the row that passed the decoder's checks assembles its words, which are those of the encoding of what
it assembles. -/
theorem encodeOfDecode : Obligations.EncodeOfDecode := by
  intro c i h
  obtain ⟨o, hb, hl, ha, hx⟩ := decode_cases h
  obtain ⟨hwf, hrow, hpre⟩ := encode_assemble hl ha hx
  exact ⟨hwf, by rw [encode_op, hrow, Opcode.byte_of_ofByte hb], hpre⟩

/-! ### What the decoder refuses (R98, R99, R95) -/

/-- The bytes that no row of the opcode map has (R98), among the 256 there are. -/
theorem Opcode.ofByte_eq_none_iff : ∀ op : Byte, Opcode.ofByte op = none ↔
    op.toNat = 0 ∨ (0x05 ≤ op.toNat ∧ op.toNat ≤ 0x0F) ∨ (0x12 ≤ op.toNat ∧ op.toNat ≤ 0x1F) ∨
    (0x24 ≤ op.toNat ∧ op.toNat ≤ 0x2F) ∨ (0x3A ≤ op.toNat ∧ op.toNat ≤ 0x3F) ∨ 0x42 ≤ op.toNat := by decide

/-- Settles O54: the decoder looks for the row before anything else, and a step refuses what the decoder refuses. -/
theorem reservedOpcodesAreRefused : Obligations.ReservedOpcodesAreRefused := by
  intro op words n reserved
  have hiff : decode ⟨op, words⟩ = .error .reservedOpcode ↔ reserved :=
    decode_reservedOpcode_iff.trans (Opcode.ofByte_eq_none_iff op)
  exact ⟨hiff, fun hr s k rest hin => step_undecodable (hiff.2 hr) hin⟩

/-- A word at or above its kind's limit is not admitted, whether it is a fixed operand or a data word of SETRAM. -/
theorem Opcode.not_wordsAdmitted {o : Opcode} {words : List Word} {j : Nat} {k : Kind} {w : Word}
    (hw : words[j]? = some w) (hk : kindLimit k ≤ w.toNat)
    (hj : o.kinds[j]? = some k ∨ (o = .setram ∧ k = .byte ∧ 2 ≤ j ∧ j < o.operandCount words)) :
    ¬o.wordsAdmitted words = true := by
  intro ha
  have hadm : k.admits w = true := by
    rcases hj with hj | ⟨rfl, rfl, hj, hlt⟩
    · exact Opcode.admits_fixed ha j hj hw
    · refine List.all_eq_true.1 (Opcode.admits_data ha) w (List.mem_of_getElem? (i := j - 2) ?_)
      have hlen : j < 2 + Opcode.setram.dataCount words := hlt
      rw [List.getElem?_take_of_lt (by omega), List.getElem?_drop, Nat.add_sub_of_le hj, hw]
  exact absurd ((Kind.admits_iff k w).1 hadm) (by omega)

/-- Settles O55: the command has all its words, so the decoder comes to the check of their kinds, which this word
fails. -/
theorem reservedOperandBitsAreRefused : Obligations.ReservedOperandBitsAreRefused := by
  intro o words j k w hl hw hk hj
  have hd : decode ⟨o.byte, words⟩ = .error .reservedOperandBits :=
    decode_reservedBits (Opcode.ofByte_byte o) hl (Opcode.not_wordsAdmitted hw hk hj)
  exact ⟨hd, fun s n rest hin => step_undecodable hd hin⟩

/-- Settles O56: the length word counts the data words, and the count comes before the look at their bits. -/
theorem shortSetramIsRefused : Obligations.ShortSetramIsRefused := by
  intro offset length data hlt
  have hd : decode ⟨0x41, offset :: length :: data⟩ = .error .shortCommand := by
    refine decode_short (o := .setram) rfl ?_
    simp [Opcode.operandCount, Opcode.kinds, Opcode.dataCount]
    omega
  exact ⟨hd, fun s k rest hin => step_undecodable hd hin⟩

/-- Settles O58: five closed words, each of them decoded. -/
theorem vectorWordsDecode : Obligations.VectorWordsDecode := by
  unfold Obligations.VectorWordsDecode
  decide

end Sys2Proof.Machine
end

section
/-! Proofs, 10_state and 60_exceptions: the invariant, at reset and over every step; a unit is one RC[k] of
R296. -/
namespace Sys2Proof.Machine

section
variable {s t : State}

/-! ### The invariant, one unit at a time -/

/-- What the invariant asks of one unit. -/
structure Rc.Inv (r : Rc) : Prop where
  cfg     : r.cfg.Inv
  port    : r.port.Inv
  pending : ∀ p, r.pending = some p → r.InProgress p

theorem Rc.inv_reset : Rc.reset.Inv where
  cfg := ⟨rfl, by decide⟩
  port := ⟨by decide, fun _ => rfl⟩
  pending _ h := by cases h

theorem State.Inv.rcInv (h : s.Inv) (k : Nat) : (s.rcAt k).Inv := ⟨h.cfg k, h.port k, h.pending k⟩

theorem State.inv_of_rcInv (hm : s.mem.wf = true) (ht : s.tableWf) (hr : ∀ k, (s.rcAt k).Inv)
    (hl : ∀ e ∈ s.busLog, e.op.InImage) : s.Inv :=
  ⟨hm, ht, fun k => (hr k).cfg, fun k => (hr k).port, fun k => (hr k).pending, hl⟩

/-- The invariant is about the image, the units and the record alone. -/
theorem State.Inv.congr (h : s.Inv) (hm : t.mem = s.mem) (hi : t.insts = s.insts) (hl : t.busLog = s.busLog) : t.Inv :=
  State.inv_of_rcInv (hm ▸ h.mem) ((State.tableWf_congr hi).2 h.tableWf)
    (fun k => State.rcAt_congr hi k ▸ h.rcInv k) (hl ▸ h.log)

/-! ### What keeps the invariant -/

theorem State.Inv.setRcAt (h : s.Inv) {k : Nat} {r : Rc} (hr : r.Inv) : (s.setRcAt k r).Inv := by
  refine State.inv_of_rcInv h.mem (State.setRcAt_tableWf h.tableWf k r) (fun j => ?_) h.log
  rw [State.rcAt_setRcAt h.tableWf]
  split
  · exact hr
  · exact h.rcInv j

/-- A port keeps the invariant of its unit where a command that is in progress stays on it. -/
theorem State.Inv.setPort (h : s.Inv) {p : Port} (hp : p.Inv)
    (hc : s.port.hasCommand = true → p.hasCommand = true) : (s.setPort p).Inv :=
  h.setRcAt ⟨h.cfg s.cur, hp, fun q hq => by
    obtain ⟨hcfg, hcmd, hin⟩ := h.pending s.cur q hq
    exact ⟨hcfg, hc hcmd, hin⟩⟩

/-- A command ends with result words only with OK. -/
theorem Port.Inv.ended {p : Port} (h : p.Inv) {st : Status} {ws : List Word} (hw : ws ≠ [] → st = .ok) :
    (p.ended st ws).Inv :=
  ⟨fun hne => ⟨rfl, hw hne⟩, h.2⟩

theorem State.Inv.complete (h : s.Inv) (ws : List Word) : (s.complete ws).Inv :=
  h.setPort ((h.port s.cur).ended fun _ => rfl) id

theorem State.Inv.raise (h : s.Inv) (e : ErrorKind) : (s.raise e).Inv :=
  h.setPort ((h.port s.cur).ended fun hne => absurd rfl hne) id

theorem State.Inv.present (h : s.Inv) (k : Nat) (c : Encoded) : (s.present k c).Inv :=
  State.Inv.setPort (s := { s with cur := k }) (h.congr rfl rfl rfl)
    ⟨fun hne => absurd rfl hne, fun hc => by cases hc⟩ fun _ => rfl

theorem State.Inv.skipBytes (h : s.Inv) (n : Nat) : (s.skipBytes n).Inv := h.congr rfl rfl rfl

/-- One more entry in the record, inside the image. -/
theorem State.Inv.record (h : s.Inv) {op : BusOp} (hop : op.InImage) :
    ∀ e ∈ s.busLog ++ [⟨s.cur, op⟩], e.op.InImage := by
  simp only [List.mem_append, List.mem_singleton]
  rintro e (he | rfl)
  · exact h.log e he
  · exact hop

theorem State.Inv.transacted (h : s.Inv) {m : Memory} (hm : m.wf = true) {op : BusOp} (hop : op.InImage) :
    (s.transacted m op).Inv :=
  State.inv_of_rcInv hm h.tableWf h.rcInv (h.record hop)

theorem State.Inv.recordBus (h : s.Inv) {op : BusOp} (hop : op.InImage) : (s.recordBus op).Inv :=
  State.inv_of_rcInv h.mem h.tableWf h.rcInv (h.record hop)

theorem State.Inv.afterRead (h : s.Inv) {a n : Nat} (ha : a + n ≤ 64) : (s.afterRead a n).Inv :=
  h.transacted (State.imageNow_wf h.mem) ha

theorem State.Inv.afterFailedRead (h : s.Inv) {a n : Nat} (ha : a + n ≤ 64) : (s.afterFailedRead a n).Inv :=
  h.transacted (State.imageNow_wf h.mem) ha

theorem State.Inv.afterWrite (h : s.Inv) {a : Nat} {v : List Byte} (ha : a + v.length ≤ 64) : (s.afterWrite a v).Inv :=
  h.transacted (State.afterWrite_wf h.mem a v) ha

theorem State.Inv.afterFailedWrite (h : s.Inv) {a : Nat} {v : List Byte} (ha : a + v.length ≤ 64) :
    (s.afterFailedWrite a v).Inv :=
  h.transacted (State.afterFailedWrite_wf h.mem a v) ha

theorem State.Inv.writeAndEnd (h : s.Inv) {a : Nat} {v : List Byte} (ha : a + v.length ≤ 64) :
    (s.writeAndEnd a v).Inv := by
  rcases State.writeAndEnd_cases s a v with ⟨-, he⟩ | ⟨-, he⟩ <;> rw [he]
  · exact (h.afterWrite ha).complete _
  · exact (h.afterFailedWrite ha).raise _

theorem State.Inv.setPending_none (h : s.Inv) : (s.setPending none).Inv :=
  h.setRcAt ⟨h.cfg s.cur, h.port s.cur, fun _ hq => by cases hq⟩

/-- A configured unit with a command on its port may owe a write inside the registers. -/
theorem State.Inv.hold (h : s.Inv) (hc : s.cfg.configured = true) (hcmd : s.port.hasCommand = true) {a : Nat}
    {v : List Byte} (hv : a + v.length ≤ 8) : (s.hold a v).Inv :=
  h.setRcAt ⟨h.cfg s.cur, h.port s.cur, fun q hq => by cases hq; exact ⟨hc, hcmd, hv⟩⟩

/-- A handle keeps the invariant where its unit owes no write. -/
theorem State.Inv.setCfg (h : s.Inv) {c : Cfg} (hc : c.Inv) (hp : s.rc.pending = none) : (s.setCfg c).Inv :=
  h.setRcAt ⟨hc, h.port s.cur, fun q hq => by cases hp.symm.trans hq⟩

/-- Only a configured unit owes a write (R22). -/
theorem State.Inv.pending_of_unconfigured (h : s.Inv) (hc : s.cfg.configured = false) : s.rc.pending = none := by
  cases hp : s.rc.pending with
  | none => rfl
  | some p =>
    obtain ⟨hcfg, -, -⟩ := h.pending s.cur p hp
    cases hc.symm.trans hcfg

/-- The base of the century normalisation is a multiple of 100 (R121). -/
theorem yearBase_emod {c : Int} {yb : Word} (h : yearBase c = some yb) : yb.toInt % 100 = 0 := by
  rw [yearBase_toInt h, Int.mul_emod_left]

theorem State.Inv.configure (h : s.Inv) (hc : s.cfg.configured = false) (d : BitVec 7) (v : Word) {c : Int} {yb : Word}
    (hy : yearBase c = some yb) : (s.configure d v yb).Inv := by
  have h₁ : ∀ o, (s.skipAttach.recordBus (.attach d v o)).Inv := fun o =>
    State.Inv.recordBus (s := s.skipAttach) (h.congr rfl rfl rfl) trivial
  unfold State.configure
  split
  · exact (h₁ none).raise _
  · next cap _ => exact ((h₁ (some cap)).recordBus (op := .detach (some cap) .ok) trivial).raise _
  · next cap _ =>
    exact ((h₁ (some cap)).setCfg ⟨rfl, fun _ => yearBase_emod hy⟩ (h.pending_of_unconfigured hc)).complete _

theorem State.Inv.deconfigure (h : s.Inv) (hp : s.rc.pending = none) : s.deconfigure.Inv := by
  have h₁ : (s.skipDetach.recordBus (.detach s.cfg.bus s.detachOutcome)).Inv :=
    State.Inv.recordBus (s := s.skipDetach) (h.congr rfl rfl rfl) trivial
  have h₂ : s.released.Inv := h₁.setCfg ⟨rfl, fun hc => by cases hc⟩ hp
  rcases s.deconfigure_cases with ⟨-, he⟩ | ⟨-, he⟩ <;> rw [he]
  · exact h₂.complete _
  · exact h₂.raise _

/-! ### A command keeps the invariant -/

/-- A way to do a final write, in a command that runs from `s`, that keeps the invariant where the write lies inside the
registers. -/
def KeepsInv (s : State) (w : State → Nat → List Byte → State) : Prop :=
  ∀ (u : State) (a : Nat) (v : List Byte), u.Inv → s.Quiet u → s.cfg.configured = true → a + v.length ≤ 8 →
    (w u a v).Inv

theorem keepsInv_writeAndEnd (s : State) : KeepsInv s State.writeAndEnd := fun _ _ _ h _ _ hv =>
  h.writeAndEnd (by omega)

theorem keepsInv_hold (hcmd : s.port.hasCommand = true) : KeepsInv s State.hold := fun _ _ _ h hq hc hv =>
  h.hold (by rw [hq.cfg, hc]) (by rw [hq.port, hcmd]) hv

/-- Every command keeps the invariant, however it ends; a DECONFIG, where its unit owes no write. -/
theorem Ends.inv {w : State → Nat → List Byte → State} {i : Instr} (h : Ends w i s t) (hs : s.Inv) (hw : KeepsInv s w)
    (hp : i = .deconfig → s.rc.pending = none) : t.Inv := by
  cases h with
  | noHandle | outOfRange => exact hs.raise _
  | readFailed a n rest hc hl ht ha => exact (hs.afterFailedRead ha).raise _
  | readThenDone a n rest ws hc hl ht ha => exact (hs.afterRead ha).complete _
  | readThenWrite a n k v hc hl ht ha hb hv =>
    exact hw _ _ v ((hs.afterRead ha).skipBytes k) ((s.quiet_afterRead a n).trans (State.quiet_skipBytes _ k)) hc hv
  | writeOnly o v hi hc hr => exact hs.writeAndEnd (by omega)
  | codec k r => exact (hs.skipBytes k).complete _
  | configured c d v yb hi hc hy => exact hs.configure hc d v hy
  | deconfigured hi hc => exact hs.deconfigure (hp hi)

/-- A command of the register image keeps the invariant, also beside a write that its unit owes. -/
theorem exec_inv {i : Instr} (he : exec i s = .next t) (hs : s.Inv) (hi : isLifecycle i = false) : t.Inv :=
  (exec_ends he).inv hs (keepsInv_writeAndEnd s) fun h => by rw [h] at hi; cases hi

/-! ### A step keeps the invariant -/

theorem State.present_rcAt (hs : s.tableWf) (k j : Nat) (c : Encoded) : (s.present k c).rcAt j =
    if j = k then { s.rcAt k with port := (s.rcAt k).port.presented c } else s.rcAt j :=
  State.rcAt_setPort (s := { s with cur := k }) hs _ j

theorem State.present_tableWf (hs : s.tableWf) (k : Nat) (c : Encoded) : (s.present k c).tableWf :=
  State.setPort_tableWf (s := { s with cur := k }) hs _

theorem State.present_rc (hs : s.tableWf) (k : Nat) (c : Encoded) :
    (s.present k c).rc = { s.rcAt k with port := (s.rcAt k).port.presented c } :=
  (State.present_rcAt hs k k c).trans (if_pos rfl)

theorem State.Inv.finish (h : s.Inv) (k : Nat) : (s.finish k).Inv := by
  cases hp : (s.rcAt k).pending with
  | none => rw [State.finish_idle hp]; exact h
  | some p =>
    obtain ⟨-, -, hin⟩ := h.pending k p hp
    have h₁ : State.Inv { s with cur := k } := h.congr rfl rfl rfl
    rw [State.finish_pending hp]
    exact h₁.setPending_none.writeAndEnd (by omega)

theorem State.Inv.responseRead (h : s.Inv) {k : Nat} (hp : (s.rcAt k).pending = none) : (s.responseRead k).Inv :=
  h.setRcAt ⟨h.cfg k, ⟨fun hne => absurd rfl hne, fun _ => rfl⟩, fun q hq => by cases hp.symm.trans hq⟩

theorem State.rcAt_blockReset (s : State) (k : Nat) : s.blockReset.rcAt k = Rc.reset := rfl

theorem State.Inv.blockReset (h : s.Inv) : s.blockReset.Inv :=
  State.inv_of_rcInv h.mem rfl (fun k => s.rcAt_blockReset k ▸ Rc.inv_reset) h.log

/-- Settles O60: a step is one of six; a command runs on a unit that owes no write and has it on its port, so its
nine ends keep the invariant, the write that a start holds included. -/
theorem stepKeepsInvariant : Obligations.StepKeepsInvariant := by
  intro s t hs h
  have hrest : ∀ rest, State.Inv { s with inbox := rest } := fun _ => hs.congr rfl rfl rfl
  rcases step_cases h with ⟨-, rfl⟩ | ⟨k, c, rest, i, -, -, hp, he⟩ | ⟨k, c, rest, i, -, -, hp, he⟩ |
    ⟨k, rest, -, rfl⟩ | ⟨k, rest, -, hp, rfl⟩ | ⟨rest, -, rfl⟩
  · exact hs
  · have hrc := State.present_rc (hrest rest).tableWf k c
    exact (exec_ends he).inv ((hrest rest).present k c) (keepsInv_writeAndEnd _) fun _ => by rw [hrc]; exact hp
  · have hrc := State.present_rc (hrest rest).tableWf k c
    refine (startCommand_ends he).inv ((hrest rest).present k c) (keepsInv_hold ?_) fun _ => by rw [hrc]; exact hp
    rw [State.port, hrc]
    rfl
  · exact (hrest rest).finish k
  · exact (hrest rest).responseRead hp
  · exact (hrest rest).blockReset

/-- Settles O59: nothing is listed in the image or recorded, and every unit is at its reset values. -/
theorem resetMeetsInvariant : Obligations.ResetMeetsInvariant :=
  State.inv_of_rcInv rfl rfl (fun _ => Rc.inv_reset) fun _ h => by cases h

end

end Sys2Proof.Machine
end

section
/-! Proofs, 40_handle_lifecycle and 60_exceptions: every outcome of CONFIG, who writes a handle, what needs one, and
which command can stop without an answer; a unit is one RC[k] of R296 (R21-R24, R121, R122, R281-R286). -/
namespace Sys2Proof.Machine

/-! ### CONFIG, by the outcome of its attach (R122) -/

section
variable {s t : State} {d : BitVec 7} {v yb : Word} {cap : Nat}

/-- The attach is recorded, with the capability it obtained, and the status not yet written (R122). -/
def State.attached (s : State) (d : BitVec 7) (v : Word) (o : Option Nat) : State :=
  s.skipAttach.recordBus (.attach d v o)

/-- The handle that CONFIG writes (R121, R122). -/
def Cfg.attachedTo (d : BitVec 7) (v yb : Word) (cap : Nat) : Cfg :=
  { configured := true, yearBase := yb, dev := d, speed := v, bus := some cap }

theorem State.quiet_attached (s : State) (d : BitVec 7) (v : Word) (o : Option Nat) : s.Quiet (s.attached d v o) :=
  s.quiet_skipAttach.trans (State.quiet_recordBus _ _)

theorem State.quiet_rolledBack (s : State) (d : BitVec 7) (v : Word) (cap : Nat) :
    s.Quiet ((s.attached d v (some cap)).recordBus (.detach (some cap) .ok)) :=
  (s.quiet_attached d v (some cap)).trans (State.quiet_recordBus _ _)

theorem State.configure_of_ok (h : s.attachOutcome = .ok cap) :
    s.configure d v yb = ((s.attached d v (some cap)).setCfg (Cfg.attachedTo d v yb cap)).complete [] := by
  simp only [State.configure, h]; rfl

theorem State.configure_of_attachFail (h : s.attachOutcome = .attachFail) :
    s.configure d v yb = (s.attached d v none).raise .busError := by
  simp only [State.configure, h]; rfl

theorem State.configure_of_allocFail (h : s.attachOutcome = .allocFail cap) : s.configure d v yb =
    ((s.attached d v (some cap)).recordBus (.detach (some cap) .ok)).raise .outOfMemory := by
  simp only [State.configure, h]; rfl

theorem State.configure_hostFrame (hs : s.tableWf) (d : BitVec 7) (v yb : Word) : s.HostFrame (s.configure d v yb) := by
  cases ho : s.attachOutcome with
  | ok cap =>
    have hq := s.quiet_attached d v (some cap)
    rw [State.configure_of_ok ho]
    exact (State.hostFrame_setCfg hq hs _).trans
      (State.complete_hostFrame (.refl _) (State.setCfg_tableWf (hq.tableWf hs) _) _)
  | attachFail => rw [State.configure_of_attachFail ho]; exact State.raise_hostFrame (s.quiet_attached d v none) hs _
  | allocFail cap => rw [State.configure_of_allocFail ho]; exact State.raise_hostFrame (s.quiet_rolledBack d v cap) hs _

@[simp] theorem State.mem_configure (s : State) (d : BitVec 7) (v yb : Word) : (s.configure d v yb).mem = s.mem := by
  cases ho : s.attachOutcome with
  | ok cap => rw [State.configure_of_ok ho]; rfl
  | attachFail => rw [State.configure_of_attachFail ho]; rfl
  | allocFail cap => rw [State.configure_of_allocFail ho]; rfl

@[simp] theorem State.pointer_configure (s : State) (d : BitVec 7) (v yb : Word) :
    (s.configure d v yb).pointer = s.pointer := by
  cases ho : s.attachOutcome with
  | ok cap => rw [State.configure_of_ok ho]; rfl
  | attachFail => rw [State.configure_of_attachFail ho]; rfl
  | allocFail cap => rw [State.configure_of_allocFail ho]; rfl

/-- The attach succeeded: OK, and the handle is written. -/
theorem State.configure_ok_spec (hs : s.tableWf) (h : s.attachOutcome = .ok cap) :
    (s.configure d v yb).Reports .ok [] ∧ (s.configure d v yb).cfg = Cfg.attachedTo d v yb cap := by
  have hq := (s.quiet_attached d v (some cap)).tableWf hs
  rw [State.configure_of_ok h]
  exact ⟨State.complete_reports (State.setCfg_tableWf hq _) _,
    (State.cfg_complete (State.setCfg_tableWf hq _) _).trans (State.cfg_setCfg hq _)⟩

/-- The attach failed: BusError, and the handle is as it was. -/
theorem State.configure_attachFail_spec (hs : s.tableWf) (h : s.attachOutcome = .attachFail) :
    (s.configure d v yb).Reports .busError [] ∧ (s.configure d v yb).cfg = s.cfg := by
  have hq := (s.quiet_attached d v none).tableWf hs
  rw [State.configure_of_attachFail h]
  exact ⟨State.raise_reports hq _, State.cfg_raise hq _⟩

/-- The allocation failed: OutOfMemory, the capability is released, and the handle is as it was (log 14). -/
theorem State.configure_allocFail_spec (hs : s.tableWf) (h : s.attachOutcome = .allocFail cap) :
    (s.configure d v yb).Reports .outOfMemory [] ∧ (s.configure d v yb).cfg = s.cfg ∧
      (s.configure d v yb).busLog =
        s.busLog ++ [⟨s.cur, .attach d v (some cap)⟩, ⟨s.cur, .detach (some cap) .ok⟩] := by
  have hq := (s.quiet_rolledBack d v cap).tableWf hs
  rw [State.configure_of_allocFail h]
  exact ⟨State.raise_reports hq _, State.cfg_raise hq _, List.append_assoc _ _ _⟩

theorem exec_config_configured (c : Word) (hc : s.cfg.configured = true) :
    exec (.config c d v) s = .refused .alreadyConfigured := by
  simp only [exec, execConfig, hc, if_true]

theorem exec_config_overflow {c : Word} (hc : s.cfg.configured = false) (hy : yearBase c.toInt = none) :
    exec (.config c d v) s = .fault .arithOverflow := by
  simp only [exec, execConfig, hc, hy, Bool.false_eq_true, if_false]

theorem exec_config_unconfigured {c : Word} (hc : s.cfg.configured = false) (hy : yearBase c.toInt = some yb) :
    exec (.config c d v) s = .next (s.configure d v yb) := by
  simp only [exec, execConfig, hc, hy, Bool.false_eq_true, if_false]

end

/-- Settles O7: the handle, then the base, then the outcome of the attach decide. -/
theorem configOutcomes : Obligations.ConfigOutcomes := by
  intro s century d v hs c yb
  have ht := hs.tableWf
  refine ⟨fun hc => exec_config_configured century hc,
    fun hc hout => exec_config_overflow hc (yearBase_none _ hout), fun hc hlo hhi => ?_⟩
  refine ⟨_, exec_config_unconfigured hc (yearBase_some _ hlo hhi), State.configure_hostFrame ht _ _ _,
    fun a => by simp, by simp, by simp, fun cap ho => ?_, fun ho => State.configure_attachFail_spec ht ho,
    fun cap ho => State.configure_allocFail_spec ht ho⟩
  obtain ⟨hrep, hcfg⟩ := State.configure_ok_spec (d := d) (v := v) (yb := int32Word yb) ht ho
  rw [hcfg]
  exact ⟨hrep, rfl, int32Word_toInt yb hlo hhi, rfl, rfl, rfl⟩

/-- Settles O8: in this range the base fits, so the attach decides, and it succeeds. -/
theorem configCompletesInCenturyRange : Obligations.ConfigCompletesInCenturyRange := by
  intro s century d v cap hs hc ho hlo hhi
  have hlow : -2 ^ 31 ≤ ((if century.toInt = 0 then 21 else if century.toInt < 0 then century.toInt + 1
      else century.toInt) - 20) * 100 := by split_ifs <;> omega
  have hhigh : ((if century.toInt = 0 then 21 else if century.toInt < 0 then century.toInt + 1
      else century.toInt) - 20) * 100 ≤ 2 ^ 31 - 1 := by split_ifs <;> omega
  obtain ⟨hrep, hcfg⟩ := State.configure_ok_spec (d := d) (v := v) (yb := int32Word _) hs.tableWf ho
  exact ⟨_, exec_config_unconfigured hc (yearBase_some _ hlow hhigh), hrep, by rw [hcfg]; rfl⟩

/-! ### The frame of a command, and of its handle (R22-R24, R296) -/

section
variable {w : State → Nat → List Byte → State} {i : Instr} {s t : State}

/-- A command that runs to its end leaves the host's side and the other units alone. -/
theorem Ends.hostFrame (h : Ends State.writeAndEnd i s t) (hs : s.tableWf) : s.HostFrame t := by
  cases h with
  | noHandle | outOfRange => exact State.raise_hostFrame (.refl s) hs _
  | readFailed a n => exact State.raise_hostFrame (s.quiet_afterFailedRead a n) hs _
  | readThenDone a n => exact State.complete_hostFrame (s.quiet_afterRead a n) hs _
  | readThenWrite a n k v =>
    exact State.writeAndEnd_hostFrame ((s.quiet_afterRead a n).trans (State.quiet_skipBytes _ k)) hs _ v
  | writeOnly o v => exact State.writeAndEnd_hostFrame (.refl s) hs _ v
  | codec k => exact State.complete_hostFrame (s.quiet_skipBytes k) hs _
  | configured c d v yb => exact State.configure_hostFrame hs d v yb
  | deconfigured => exact State.deconfigure_hostFrame hs

/-- CONFIG writes the handle of an unconfigured unit, DECONFIG leaves its unit unconfigured, and no other command
writes a handle; so one that is configured before and after a command is the same. -/
theorem Ends.cfg_fixed (h : Ends w i s t) (hs : s.tableWf) (hw : LocalWrite w) (k : Nat)
    (hb : (s.rcAt k).cfg.configured = true) (ha : (t.rcAt k).cfg.configured = true) :
    (t.rcAt k).cfg = (s.rcAt k).cfg := by
  cases hl : isLifecycle i with
  | false => exact h.handles hs hw hl k
  | true =>
    by_cases hk : k = s.cur
    · subst hk
      cases h with
      | noHandle hn hc | configured c d v yb hi hc => cases hb.symm.trans hc
      | deconfigured =>
        have hc : (s.deconfigure.rcAt s.cur).cfg.configured = false := by
          have hcur := (State.deconfigure_hostFrame hs).cur
          have hcfg := State.cfg_deconfigure hs
          rw [State.cfg, State.rc, hcur] at hcfg
          rw [hcfg]
        cases ha.symm.trans hc
      | outOfRange hc hr => exact State.raise_handlesFrame (.refl s) hs _ _
      | readFailed _ _ _ _ hf | readThenDone _ _ _ _ _ hf | readThenWrite _ _ _ _ _ hf | codec _ _ _ hf =>
        cases hl.symm.trans hf
      | writeOnly o v hi => subst hi; cases hl
    · rw [h.others hs hw k hk]

end

/-- Settles O36: HostFrame holds of each of the nine ends, and only the lifecycle's two write a handle. -/
theorem onlyLifecycleCommandsWriteHandles : Obligations.OnlyLifecycleCommandsWriteHandles := by
  intro i s t hs he
  exact ⟨(exec_ends he).hostFrame hs.tableWf, (exec_ends he).handles hs.tableWf localWrite_writeAndEnd⟩

/-- Presenting a command writes no handle (R23). -/
theorem State.present_cfg {s : State} (hs : s.tableWf) (k j : Nat) (c : Encoded) :
    ((s.present k c).rcAt j).cfg = (s.rcAt j).cfg := by
  rw [State.present_rcAt hs]
  split
  · next h => rw [h]
  · rfl

theorem State.rcAt_responseRead {s : State} (hs : s.tableWf) (k j : Nat) : (s.responseRead k).rcAt j =
    if j = k then { s.rcAt k with port := (s.rcAt k).port.read } else s.rcAt j :=
  State.rcAt_setRcAt hs k j _

/-- Reading a response writes no handle (R23). -/
theorem State.handlesFrame_responseRead {s : State} (hs : s.tableWf) (k : Nat) : s.HandlesFrame (s.responseRead k) := by
  intro j
  rw [State.rcAt_responseRead hs]
  split
  · next h => rw [h]
  · rfl

/-- Settles O37: of the six steps a command keeps what stays configured, a turn and a reading write no handle, and a
restart leaves none configured. -/
theorem yearBaseIsFixedWhileConfigured : Obligations.YearBaseIsFixedWhileConfigured := by
  intro s t j hs h hb ha
  have ht := hs.tableWf
  rcases step_cases h with ⟨-, rfl⟩ | ⟨k, c, rest, i, -, -, -, he⟩ | ⟨k, c, rest, i, -, -, -, he⟩ |
    ⟨k, rest, -, rfl⟩ | ⟨k, rest, -, -, rfl⟩ | ⟨rest, -, rfl⟩
  · rfl
  · have hp := State.present_cfg (s := { s with inbox := rest }) ht k j c
    exact ((exec_ends he).cfg_fixed (State.present_tableWf ht k c) localWrite_writeAndEnd j (by rwa [hp]) ha).trans hp
  · have hp := State.present_cfg (s := { s with inbox := rest }) ht k j c
    exact ((startCommand_ends he).cfg_fixed (State.present_tableWf ht k c) localWrite_hold j (by rwa [hp]) ha).trans hp
  · obtain ⟨-, hf, -⟩ := State.finish_spec (s := { s with inbox := rest }) ht k
    exact hf j
  · exact State.handlesFrame_responseRead (s := { s with inbox := rest }) ht k j
  · cases ha

/-- Settles O5: each of the four is the end of a command, at most one free byte drawn before it. -/
theorem codecCommandsTouchOnlyResponse : Obligations.CodecCommandsTouchOnlyResponse := by
  intro s n b hs i hi
  have frame : ∀ {u : State} (ws : List Word), s.Quiet u → u.mem = s.mem → u.pointer = s.pointer →
      u.busLog = s.busLog → s.HostFrame (u.complete ws) ∧ s.HandlesFrame (u.complete ws) ∧ s.BusFrame (u.complete ws) :=
    fun ws hq hm hp hl => ⟨State.complete_hostFrame hq hs.tableWf ws, State.complete_handlesFrame hq hs.tableWf ws,
      fun _ => congrArg (Memory.get · _) hm, hp, hl⟩
  simp only [List.mem_cons, List.not_mem_nil, or_false] at hi
  rcases hi with rfl | rfl | rfl | rfl
  · exact ⟨_, exec_tobcd n s, frame _ (s.quiet_skipBytes 1) rfl rfl rfl⟩
  · exact ⟨_, exec_frombcd b s, frame _ (.refl s) rfl rfl rfl⟩
  · exact ⟨_, exec_dec12h b s, frame _ (.refl s) rfl rfl rfl⟩
  · exact ⟨_, exec_enc12h n s, frame _ (s.quiet_skipBytes 1) rfl rfl rfl⟩

/-! ### Which commands stop without a next state (R281, R285, R286) -/

section
variable {w : State → Nat → List Byte → State} {s : State}

theorem State.withHandle_answers {k : State → Host.Outcome State Fault Refusal} (h : ∃ t, k s = .next t) :
    ∃ t, s.withHandle k = .next t := by
  unfold State.withHandle
  split
  · exact h
  · exact ⟨_, rfl⟩

theorem State.onRead_answers {a n : Nat} {k : (Nat → Byte) → State → Host.Outcome State Fault Refusal}
    (h : ∃ t, k (s.readByte a) (s.afterRead a n) = .next t) : ∃ t, s.onRead a n k = .next t := by
  unfold State.onRead
  split
  · exact h
  · exact ⟨_, rfl⟩

theorem State.withinRam_answers {o l : Nat} {k : State → Host.Outcome State Fault Refusal} (h : ∃ t, k s = .next t) :
    ∃ t, s.withinRam o l k = .next t := by
  unfold State.withinRam
  split
  · exact h
  · exact ⟨_, rfl⟩

/-- The handle check, one read, and a rest of the command that always answers. -/
theorem State.readCommand_answers {a n : Nat} {k : State → (Nat → Byte) → State → Host.Outcome State Fault Refusal}
    (h : ∃ t, k s (s.readByte a) (s.afterRead a n) = .next t) :
    ∃ t, (s.withHandle fun s => s.onRead a n (k s)) = .next t :=
  State.withHandle_answers (State.onRead_answers h)

theorem getField_answers (f : Field) (s : State) : ∃ t, getField f s = .next t := by
  unfold getField
  exact State.readCommand_answers ⟨_, rfl⟩

theorem setFieldWith_answers (w : State → Nat → List Byte → State) (f : Field) (v : Byte) (s : State) :
    ∃ t, setFieldWith w f v s = .next t := by
  unfold setFieldWith
  exact State.readCommand_answers ⟨_, rfl⟩

/-- A command answers a next state, but for the overflow of CONFIG and GETTIME and for CONFIG on a configured
unit. -/
theorem runWith_answers (w : State → Nat → List Byte → State) (i : Instr) (s : State) : (∃ t, runWith w i s = .next t) ∨
    (runWith w i s = .fault .arithOverflow ∧ ((i = .gettime ∧ s.cfg.configured = true ∧ s.txn.outcome = .ok) ∨
      (s.cfg.configured = false ∧ ∃ c d v, i = .config c d v))) ∨
    (runWith w i s = .refused .alreadyConfigured ∧ s.cfg.configured = true ∧ ∃ c d v, i = .config c d v) := by
  cases i with
  | config c d v =>
    cases hc : s.cfg.configured with
    | true => exact .inr (.inr ⟨exec_config_configured c hc, rfl, c, d, v, rfl⟩)
    | false =>
      cases hy : yearBase c.toInt with
      | none => exact .inr (.inl ⟨exec_config_overflow hc hy, .inr ⟨rfl, c, d, v, rfl⟩⟩)
      | some yb => exact .inl ⟨_, exec_config_unconfigured hc hy⟩
  | gettime =>
    cases hc : s.cfg.configured with
    | false => exact .inl ⟨_, (exec_gettime s).trans (State.withHandle_unconfigured hc)⟩
    | true =>
      cases ho : s.txn.outcome with
      | fail => exact .inl ⟨_, (exec_gettime s).trans ((State.withHandle_configured hc).trans (State.onRead_fail ho))⟩
      | ok =>
        have hx : runWith w .gettime s = _ := exec_of_read (exec_gettime s) hc ho
        by_cases hf : fitsInt32 (yearOf s.cfg.yearBase (s.readByte 0 6)) = true
        · exact .inl ⟨_, hx.trans (if_pos hf)⟩
        · exact .inr (.inl ⟨hx.trans (if_neg hf), .inl ⟨rfl, rfl, rfl⟩⟩)
  | tobcd | frombcd | dec12h | enc12h => exact .inl ⟨_, rfl⟩
  | deconfig => simp only [runWith, execDeconfig]; exact .inl (State.withHandle_answers ⟨_, rfl⟩)
  | getraw => simp only [runWith, execGetraw]; exact .inl (State.readCommand_answers ⟨_, rfl⟩)
  | settime => simp only [runWith, settimeWith]; exact .inl (State.readCommand_answers ⟨_, rfl⟩)
  | setraw => simp only [runWith, setrawWith]; exact .inl (State.readCommand_answers ⟨_, rfl⟩)
  | gethalt => exact .inl (getField_answers fieldCH s)
  | getout => exact .inl (getField_answers fieldOUT s)
  | getsqwe => exact .inl (getField_answers fieldSQWE s)
  | getrate => exact .inl (getField_answers fieldRS s)
  | get12h => exact .inl (getField_answers fieldMode s)
  | sethalt v => exact .inl (setFieldWith_answers w fieldCH _ s)
  | setout v => exact .inl (setFieldWith_answers w fieldOUT _ s)
  | setsqwe v => exact .inl (setFieldWith_answers w fieldSQWE _ s)
  | setrate v => exact .inl (setFieldWith_answers w fieldRS _ s)
  | set12h => simp only [runWith, set12hWith]; exact .inl (State.readCommand_answers ⟨_, rfl⟩)
  | getram =>
    simp only [runWith, execGetram]
    exact .inl (State.withHandle_answers (State.withinRam_answers (State.onRead_answers ⟨_, rfl⟩)))
  | setram =>
    simp only [runWith, execSetram]
    exact .inl (State.withHandle_answers (State.withinRam_answers ⟨_, rfl⟩))

theorem runWith_fault {i : Instr} {f : Fault} (h : runWith w i s = .fault f) : f = .arithOverflow ∧
    ((i = .gettime ∧ s.cfg.configured = true ∧ s.txn.outcome = .ok) ∨
      (s.cfg.configured = false ∧ ∃ c d v, i = .config c d v)) := by
  rcases runWith_answers w i s with ⟨t, he⟩ | ⟨he, hcause⟩ | ⟨he, -⟩
  · cases h.symm.trans he
  · cases h.symm.trans he; exact ⟨rfl, hcause⟩
  · cases h.symm.trans he

theorem runWith_refused {i : Instr} {r : Refusal} (h : runWith w i s = .refused r) : r = .alreadyConfigured ∧
    s.cfg.configured = true ∧ ∃ c d v, i = .config c d v := by
  rcases runWith_answers w i s with ⟨t, he⟩ | ⟨he, -⟩ | ⟨he, hcause⟩
  · cases h.symm.trans he
  · cases h.symm.trans he
  · cases h.symm.trans he; exact ⟨rfl, hcause⟩

end

/-! ### Without a handle (R22, R282) -/

/-- A command that needs a handle and has none answers, and of the nine ends only one is without a handle. -/
theorem exec_unconfigured {i : Instr} {s : State} (hn : needsHandle i = true) (hc : s.cfg.configured = false) :
    exec i s = .next (s.raise .invalidArgument) := by
  rcases runWith_answers State.writeAndEnd i s with ⟨t, he⟩ | ⟨-, hcause⟩ | ⟨-, hconf, -⟩
  · rw [exec_eq_runWith, he]
    cases runWith_ends he with
    | noHandle => rfl
    | codec k r hn' => cases hn.symm.trans hn'
    | configured c d v yb hi => subst hi; cases hn
    | outOfRange hc' | readFailed _ _ _ hc' | readThenDone _ _ _ _ hc' | readThenWrite _ _ _ _ hc' | writeOnly _ _ _ hc'
    | deconfigured _ hc' => cases hc.symm.trans hc'
  · rcases hcause with ⟨-, hconf, -⟩ | ⟨-, c, d, v, rfl⟩
    · cases hc.symm.trans hconf
    · cases hn
  · cases hc.symm.trans hconf

/-- Settles O35: the handle check is before any transaction. -/
theorem noHandleEndsInvalidArgument : Obligations.NoHandleEndsInvalidArgument := by
  intro i s hs hc hn
  exact ⟨_, exec_unconfigured hn hc, State.endsInvalid_raise hs.tableWf⟩

end Sys2Proof.Machine
end

section
/-! Proofs, 10_state and 70_reset_and_hazards: the host's events, one by one (R25, R26, R56, R281, R286, R321, R322). -/
namespace Sys2Proof.Machine

variable {s t : State} {k : Nat} {rest : List HostEvent}

theorem step_idle (h : s.inbox = []) : step s = .next s := by simp only [step, h]

theorem step_readResponse (h : s.inbox = .readResponse k :: rest) (hp : (s.rcAt k).pending = none) :
    step s = .next (State.responseRead { s with inbox := rest } k) := by
  simp [step, h, State.busy, hp]

theorem step_readResponse_busy (h : s.inbox = .readResponse k :: rest) (hp : (s.rcAt k).pending ≠ none) :
    step s = .fault .concurrentUse := by
  simp [step, h, State.busy, Option.isSome_iff_ne_none, hp]

theorem step_restart (h : s.inbox = .restart :: rest) : step s = .next (State.blockReset { s with inbox := rest }) := by
  simp only [step, h]

/-- Settles O45: a restart drops the table of units, so that every unit is at its reset values. -/
theorem restartResetsBlockNotImage : Obligations.RestartResetsBlockNotImage := by
  intro s rest h
  exact ⟨_, step_restart h, rfl, fun _ => rfl, rfl, rfl, fun _ => ⟨rfl, rfl, rfl, rfl, rfl, rfl, rfl⟩⟩

/-- Settles O46: the table after reset names no unit, so each has the reset values. -/
theorem resetStateIsTheSpecs : Obligations.ResetStateIsTheSpecs := fun _ =>
  ⟨rfl, rfl, rfl, rfl, rfl, rfl, rfl, rfl⟩

/-- Settles O47: reading a response rewrites the port of that unit alone. -/
theorem readResponseClearsWords : Obligations.ReadResponseClearsWords := by
  intro s k rest hs h hp
  have hr := State.rcAt_responseRead (s := { s with inbox := rest }) hs.tableWf k
  have hk : (State.responseRead { s with inbox := rest } k).rcAt k = { s.rcAt k with port := (s.rcAt k).port.read } :=
    (hr k).trans (if_pos rfl)
  refine ⟨_, step_readResponse h hp, ?_⟩
  rw [hk]
  exact ⟨rfl, rfl, rfl, rfl, rfl, hp, State.handlesFrame_responseRead (s := { s with inbox := rest }) hs.tableWf k,
    ⟨fun _ => rfl, rfl, rfl⟩, fun j hj => (hr j).trans (if_neg hj)⟩

/-- Settles O48: the decoder takes the command, and the unit is free to run it. -/
theorem stepRunsDecodedCommand : Obligations.StepRunsDecodedCommand := by
  intro s k c rest i hd hp
  refine ⟨fun h => (step_command h).trans ?_, fun h => (step_start h).trans ?_⟩
  · exact State.take_ok (s := { s with inbox := rest }) hd hp exec
  · exact State.take_ok (s := { s with inbox := rest }) hd hp startCommand

/-- Settles O49: presenting a command rewrites the port of that unit alone. -/
theorem presentedCommandIsOnThePort : Obligations.PresentedCommandIsOnThePort := by
  intro s k c hs t
  have hrc : t.rc = { s.rcAt k with port := (s.rcAt k).port.presented c } := State.present_rc hs.tableWf k c
  have hport : t.port = (s.rcAt k).port.presented c := by rw [State.port, hrc]
  have other := fun (j : Nat) (hj : j ≠ k) => (State.present_rcAt hs.tableWf k j c).trans (if_neg hj)
  rw [hport, hrc]
  exact ⟨rfl, rfl, rfl, rfl, rfl, rfl, rfl, rfl, fun j => State.present_cfg hs.tableWf k j c, ⟨fun _ => rfl, rfl, rfl⟩,
    rfl, rfl, rfl, other⟩

/-- Settles O50: the two idle steps. -/
theorem blockWaitsForTheHost : Obligations.BlockWaitsForTheHost := by
  intro s
  refine ⟨step_idle, fun k rest h hp => (step_finish h).trans ?_⟩
  rw [State.finish_idle (s := { s with inbox := rest }) hp]

/-! ### Refusals (R281, R286, R291) -/

theorem Session.advance_refused {S : Session} {r : Refusal} (h : step S.st = .refused r) :
    S.advance = .ok { st := { S.st with inbox := S.st.inbox.tail }, marks := S.marks ++ [r] } := by
  simp only [Session.advance, h]

/-- A command that decodes is refused only by its own meaning, on a unit that is free to run it. -/
theorem State.take_refused {c : Encoded} {i : Instr} {r : Refusal} {w : State → Nat → List Byte → State}
    {run : Instr → State → Host.Outcome State Fault Refusal} (hrun : ∀ i s, run i s = runWith w i s)
    (hs : s.tableWf) (hd : decode c = .ok i) (h : s.take k c run = .refused r) :
    (s.rcAt k).cfg.configured = true ∧ r = .alreadyConfigured := by
  by_cases hp : (s.rcAt k).pending = none
  · rw [State.take_ok hd hp, hrun] at h
    obtain ⟨hr, hc, -⟩ := runWith_refused h
    rw [State.cfg, State.rc, State.present_cfg hs] at hc
    exact ⟨hc, hr⟩
  · rw [State.take_busy hd hp] at h
    cases h

/-- Settles O51: the session keeps the machine's state but for the event, and a refusal is the decoder's or CONFIG's. -/
theorem refusedCommandChangesNothing : Obligations.RefusedCommandChangesNothing := by
  intro S k c rest r hs hin hr
  have htail : S.st.inbox.tail = rest := by rcases hin with h | h <;> rw [h] <;> rfl
  refine ⟨by rw [Session.advance_refused hr, htail], fun i hd => ?_, fun e hd => ?_⟩
  · rcases hin with h | h
    · exact State.take_refused (s := { S.st with inbox := rest }) exec_eq_runWith hs.tableWf hd
        ((step_command h).symm.trans hr)
    · exact State.take_refused (s := { S.st with inbox := rest }) (fun _ _ => rfl) hs.tableWf hd
        ((step_start h).symm.trans hr)
  · exact Host.Outcome.refused.inj (hr.symm.trans (step_undecodable hd hin))

end Sys2Proof.Machine
end

section
/-! Proofs, 20_memory section 8: a command between its two transactions, its turn, and the orders of several units,
a unit being one RC[k] (R72, R77, R78, R296, R297). -/
namespace Sys2Proof.Machine

/-! ### A started command against the whole one (R78; log 18) -/

section
variable {i : Instr} {s t : State}

/-- A command that ran to its end left what its unit owes as it was. -/
theorem pending_of_exec (he : exec i s = .next t) (hs : s.tableWf) : (t.rcAt s.cur).pending = s.rc.pending := by
  have hf := (exec_ends he).hostFrame hs
  have hp := hf.pending
  rwa [State.rc, hf.cur] at hp

/-- A started command issues at most one transaction. -/
theorem Ends.shapes_of_start (h : Ends State.hold i s t) : t.shapes.length ≤ s.shapes.length + 1 := by
  have hhold : ∀ (u : State) (a : Nat) (v : List Byte), (u.hold a v).shapes = u.shapes := fun _ _ _ => rfl
  cases h <;> simp [hhold]

end

/-- Settles O40: either the start was the whole command, whose unit then owes nothing, or the turn finds the write
that was held. -/
theorem startThenFinishIsTheCommand : Obligations.StartThenFinishIsTheCommand := by
  intro i s hs hp
  rcases startCommand_cases i s with heq | ⟨a, n, k, v, -, -, -, -, hstart, hexec⟩
  · rw [heq]
    refine ⟨fun t he => ?_, fun _ => id, fun _ => id⟩
    rw [he, State.finish_idle ((pending_of_exec he hs.tableWf).trans hp)]
  · refine ⟨fun t he => ?_, fun f he => ?_, fun r he => ?_⟩
    · cases hstart.symm.trans he
      exact hexec.trans (congrArg _ (State.finish_hold (s := (s.afterRead a n).skipBytes k) hs.tableWf hp _ v).symm)
    · cases hstart.symm.trans he
    · cases hstart.symm.trans he

/-- Settles O41: the two ways to start; the whole command issues two transactions exactly where its write is held. -/
theorem startedCommandStopsBeforeItsWrite : Obligations.StartedCommandStopsBeforeItsWrite := by
  intro i s hs hp
  rcases startCommand_cases i s with heq | ⟨a, n, k, v, ht, hv, -, -, hstart, hexec⟩
  · refine ⟨fun x y u _ he hu => ?_, fun _ => heq⟩
    have hle := (startCommand_ends (heq.trans he)).shapes_of_start
    rw [hu] at hle
    simp at hle
  · refine ⟨fun x y u hxy _ _ => ?_, fun hne => ?_⟩
    · have hx : x = .read a n := (List.cons.inj (hxy.symm.trans ht)).1
      have hq : State.tableWf ((s.afterRead a n).skipBytes k) := hs.tableWf
      exact ⟨_, ⟨(storedBytes i).1, v⟩, a, n, hstart, State.pending_setPending hq _, Prod.ext rfl hv.symm,
        State.port_setPending hq _, State.cfg_setPending hq _,
        fun j hj => (State.rcAt_setPending hq _ j).trans (if_neg hj), rfl, rfl, rfl, fun _ => rfl, hx, rfl⟩
    · exact absurd (by simp) (hne _ _ _ ht hexec)

/-! ### The turn of a unit that owes a write (R72, R77) -/

section
variable {s : State} {k : Nat} {p : Pending} {rest : List HostEvent}

/-- Instance `k` about to issue the write it owed, its event taken from the list. -/
def State.atTurn (s : State) (k : Nat) (rest : List HostEvent) : State :=
  State.setPending { { s with inbox := rest } with cur := k } none

theorem step_turn (hin : s.inbox = .finish k :: rest) (hp : (s.rcAt k).pending = some p) :
    step s = .next ((s.atTurn k rest).writeAndEnd p.addr p.bytes) :=
  (step_finish hin).trans (congrArg _ (State.finish_pending (s := { s with inbox := rest }) hp))

theorem State.atTurn_tableWf (hs : s.tableWf) : (s.atTurn k rest).tableWf :=
  State.turn_tableWf (s := { s with inbox := rest }) hs k

theorem State.atTurn_rcAt (hs : s.tableWf) (j : Nat) :
    (s.atTurn k rest).rcAt j = if j = k then { s.rcAt k with pending := none } else s.rcAt j :=
  State.rcAt_turn (s := { s with inbox := rest }) hs k j

theorem State.atTurn_rc (hs : s.tableWf) : (s.atTurn k rest).rc = { s.rcAt k with pending := none } :=
  (State.atTurn_rcAt hs k).trans (if_pos rfl)

/-- The turn uses one transaction input. -/
theorem State.onward_turn (s : State) (k : Nat) (rest : List HostEvent) (a : Nat) (v : List Byte) :
    ∃ l, s.Onward ((s.atTurn k rest).writeAndEnd a v) l 1 :=
  have h := State.onward_writeAndEnd (s.atTurn k rest) a v
  ⟨_, h.log, h.txns, h.nTxn⟩

end

/-- Settles O42: the turn is the final write of a command, at a state that differs from the last one in the unit that
runs and in what it owes. -/
theorem finishIssuesTheWriteOwed : Obligations.FinishIssuesTheWriteOwed := by
  intro s k p rest hs hp hin
  have ht : (s.atTurn k rest).tableWf := State.atTurn_tableWf hs.tableWf
  have hm : (s.atTurn k rest).imageNow.wf = true := State.imageNow_wf (s := s) hs.mem
  have hrc : (s.atTurn k rest).rc = { s.rcAt k with pending := none } := State.atTurn_rc hs.tableWf
  have hport : (s.atTurn k rest).port = (s.rcAt k).port := by rw [State.port, hrc]
  have hcfg : (s.atTurn k rest).cfg = (s.rcAt k).cfg := by rw [State.cfg, hrc]
  have hf := State.writeAndEnd_hostFrame (.refl _) ht p.addr p.bytes
  have hh := State.writeAndEnd_handlesFrame (.refl _) ht p.addr p.bytes k
  have hlog := (State.onward_writeAndEnd (s.atTurn k rest) p.addr p.bytes).log
  obtain ⟨-, -, hin8⟩ := hs.pending k p hp
  have ha : p.addr + p.bytes.length ≤ 64 := by omega
  obtain ⟨-, -, hout⟩ := State.writeAndEnd_spec ht hm ha
  refine ⟨_, step_turn hin hp, hf.cur, ?_, ?_, ?_, ?_, ?_, fun j hj => ?_, hf.coding, hf.inbox, ?_, hout,
    State.writeAndEnd_of_ok ht hm ha, fun ho => ?_⟩
  · rw [hf.pending, hrc]
  · rw [State.cfg, State.rc, hf.cur]
    exact hh.trans hcfg
  · rw [hf.hasCommand, hport]
  · rw [hf.op, hport]
  · rw [hf.operands, hport]
  · rw [hf.others j hj, State.atTurn_rcAt hs.tableWf, if_neg hj]
  · rw [hlog, hcfg]
    rfl
  · obtain ⟨hrep, hnoise, -⟩ := State.writeAndEnd_of_fail ht hm ha ho
    exact ⟨hrep, hnoise⟩

/-! ### A command in progress (R297) -/

section
variable {s t : State} {k : Nat}

/-- A step leaves a unit in progress as it was, but in its own turn and a restart. -/
theorem step_rcAt_of_pending (hs : s.tableWf) (hp : (s.rcAt k).pending ≠ none) (h : step s = .next t) :
    t.rcAt k = s.rcAt k ∨ (∃ rest, s.inbox = .finish k :: rest) ∨ ∃ rest, s.inbox = .restart :: rest := by
  have free : ∀ j, (s.rcAt j).pending = none → k ≠ j := fun j hj hkj => hp (hkj ▸ hj)
  rcases step_cases h with ⟨-, rfl⟩ | ⟨j, c, rest, i, -, -, hj, he⟩ | ⟨j, c, rest, i, -, -, hj, he⟩ |
    ⟨j, rest, hin, rfl⟩ | ⟨j, rest, -, hj, rfl⟩ | ⟨rest, hin, rfl⟩
  · exact .inl rfl
  · have hne := free j hj
    have hpres := (State.present_rcAt (s := { s with inbox := rest }) hs j k c).trans (if_neg hne)
    exact .inl (((exec_ends he).others (State.present_tableWf hs j c) localWrite_writeAndEnd k hne).trans hpres)
  · have hne := free j hj
    have hpres := (State.present_rcAt (s := { s with inbox := rest }) hs j k c).trans (if_neg hne)
    exact .inl (((startCommand_ends he).others (State.present_tableWf hs j c) localWrite_hold k hne).trans hpres)
  · by_cases hkj : k = j
    · exact .inr (.inl ⟨rest, hkj ▸ hin⟩)
    · obtain ⟨hothers, -, -⟩ := State.finish_spec (s := { s with inbox := rest }) hs j
      exact .inl (hothers k hkj)
  · exact .inl ((State.rcAt_responseRead (s := { s with inbox := rest }) hs j k).trans (if_neg (free j hj)))
  · exact .inr (.inr ⟨rest, hin⟩)

/-- A command ends with the host's list as it was, also where its final write is held. -/
theorem Ends.inbox {i : Instr} (h : Ends State.hold i s t) (hs : s.tableWf) : t.inbox = s.inbox := by
  cases h with
  | writeOnly o v => exact (State.writeAndEnd_hostFrame (.refl s) hs _ v).inbox
  | configured c d v yb => exact (State.configure_hostFrame hs d v yb).inbox
  | deconfigured => exact (State.deconfigure_hostFrame hs).inbox
  | _ => rfl

/-- A step takes the event at the head of the list, and nothing else of it. -/
theorem step_inbox {e : HostEvent} {rest : List HostEvent} (hs : s.tableWf) (hin : s.inbox = e :: rest)
    (h : step s = .next t) : t.inbox = rest := by
  have tail : ∀ {e' : HostEvent} {rest' : List HostEvent}, s.inbox = e' :: rest' → rest' = rest := fun h' =>
    (List.cons.inj (h'.symm.trans hin)).2
  rcases step_cases h with ⟨hnil, -⟩ | ⟨j, c, rest', i, hin', -, -, he⟩ | ⟨j, c, rest', i, hin', -, -, he⟩ |
    ⟨j, rest', hin', rfl⟩ | ⟨j, rest', hin', -, rfl⟩ | ⟨rest', hin', rfl⟩
  · cases hnil.symm.trans hin
  · exact ((exec_ends he).hostFrame (State.present_tableWf hs j c)).inbox.trans (tail hin')
  · exact ((startCommand_ends he).inbox (State.present_tableWf hs j c)).trans (tail hin')
  · refine Eq.trans ?_ (tail hin')
    cases hp : (s.rcAt j).pending with
    | none => rw [State.finish_idle (s := { s with inbox := rest' }) hp]
    | some p =>
      rw [State.finish_pending (s := { s with inbox := rest' }) hp]
      exact (State.writeAndEnd_hostFrame (.refl _) (State.turn_tableWf (s := { s with inbox := rest' }) hs j) _ _).inbox
  · exact tail hin'
  · exact tail hin'

/-- Under SOLE_WRITER for a unit in progress, with TICK the identity, a step that is not its turn leaves the
image as it was (R75, R76). -/
theorem step_mem_of_soleWriter (hp : (s.rcAt k).pending ≠ none) (hturn : ∀ rest, s.inbox ≠ .finish k :: rest)
    (h : step s = .next t) (hw : s.SoleWriterUntil t k) (hc : s.ClockStandsUntil t) : t.mem = s.mem := by
  obtain ⟨l, m, ho, hown, hmem⟩ := step_onward h
  have hinst := hw.instances
  have henv := hw.env
  rw [ho.recordedUntil] at hinst
  rw [ho.txnsUntil] at henv
  rw [State.ClockStandsUntil, ho.txnsUntil] at hc
  refine hmem (fun r hr => ?_) henv hc
  rw [Bool.eq_false_iff]
  intro hwr
  have hrk := hinst r hr hwr
  rcases hown r hr with hfree | ⟨rest, hin⟩
  · exact hp (hrk ▸ hfree)
  · exact hturn rest (hrk ▸ hin)

end

/-- How a turn that no other writer came before leaves its unit and the image: the command has ended, and only the
bytes of the write differ. -/
def State.TurnAlone (s t : State) (k : Nat) (p : Pending) : Prop :=
  (t.rcAt k).pending = none ∧ (t.rcAt k).cfg = (s.rcAt k).cfg ∧
    (∀ a, (a < p.addr ∨ p.addr + p.bytes.length ≤ a) → t.mem.get a = s.mem.get a) ∧
    ((t.rcAt k).port.status = .ok ∨ (t.rcAt k).port.status = .busError) ∧
    ((t.rcAt k).port.status = .ok → ∀ i (h : i < p.bytes.length), t.mem.get (p.addr + i) = p.bytes[i])

/-- Over a run to the turn of a unit in progress, under SOLE_WRITER and with TICK the identity, the write meets the
image that stood at the start of the run. -/
theorem run_to_turn {k : Nat} {p : Pending} {rest : List HostEvent} {t : State} (evs : List HostEvent) :
    ∀ s : State, s.Inv → (s.rcAt k).pending = some p → s.inbox = evs ++ .finish k :: rest →
      (∀ e ∈ evs, e ≠ .finish k ∧ e ≠ .restart) → Host.Core.run Sys2Proof.core (evs.length + 1) s = .next t →
      s.SoleWriterUntil t k → s.ClockStandsUntil t → t.inbox = rest ∧ s.TurnAlone t k p := by
  induction evs with
  | nil =>
    intro s hs hp hin _ hrun hw hc
    obtain ⟨t', hstep, hcur, hpend, hcfg, -, -, -, -, -, hinbox, hlog, hout, hok, hfail⟩ :=
      finishIssuesTheWriteOwed s k p rest hs hp hin
    obtain ⟨t'', hstep', hrun'⟩ := run_succ hrun
    cases hstep.symm.trans hstep'
    cases hrun'
    have hused : s.txnsUntil t = 1 := by
      cases (step_turn hin hp).symm.trans hstep
      obtain ⟨l, ho⟩ := s.onward_turn k rest p.addr p.bytes
      exact ho.txnsUntil
    have henv := hw.env
    rw [hused] at henv
    rw [State.ClockStandsUntil, hused] at hc
    have himage : s.imageNow = s.mem :=
      State.imageNow_of_still (s.txn_eq_txnAt ▸ henv 0 (by omega)) (s.txn_eq_txnAt ▸ hc 0 (by omega))
    have hport : t.port = (t.rcAt k).port := by rw [State.port, State.rc, hcur]
    rw [State.rc, hcur] at hpend
    rw [State.cfg, State.rc, hcur] at hcfg
    rw [himage] at hout
    rw [State.Reports, hport] at hok hfail
    cases hto : s.txn.outcome with
    | ok =>
      obtain ⟨⟨-, hst, -⟩, hbytes⟩ := hok hto
      exact ⟨hinbox, hpend, hcfg, hout, .inl hst, fun _ => hbytes⟩
    | fail =>
      obtain ⟨⟨-, hst, -⟩, -⟩ := hfail hto
      exact ⟨hinbox, hpend, hcfg, hout, .inr hst, fun hok => by cases hst.symm.trans hok⟩
  | cons e evs ih =>
    intro s hs hp hin hev hrun hw hc
    obtain ⟨a, hstep, hrun'⟩ := run_succ hrun
    obtain ⟨hne, hnr⟩ := hev e List.mem_cons_self
    have hpn : (s.rcAt k).pending ≠ none := by rw [hp]; simp
    have hturn : ∀ r, s.inbox ≠ .finish k :: r := fun r h => hne (List.cons.inj (hin.symm.trans h)).1
    have hsame : a.rcAt k = s.rcAt k := by
      rcases step_rcAt_of_pending hs.tableWf hpn hstep with h | ⟨r, h⟩ | ⟨r, h⟩
      · exact h
      · exact absurd h (hturn r)
      · exact absurd (List.cons.inj (hin.symm.trans h)).1 hnr
    obtain ⟨l, m, h₁, -⟩ := step_onward hstep
    obtain ⟨l', m', h₂⟩ := run_onward hrun'
    obtain ⟨hw₁, hw₂⟩ := hw.split h₁ h₂
    obtain ⟨hc₁, hc₂⟩ := hc.split h₁ h₂
    have hmem : a.mem = s.mem := step_mem_of_soleWriter hpn hturn hstep hw₁ hc₁
    have hend := ih a (stepKeepsInvariant s a hs hstep) (hsame ▸ hp) (step_inbox hs.tableWf hin hstep)
      (fun e' he' => hev e' (List.mem_cons_of_mem _ he')) hrun' hw₂ hc₂
    rwa [State.TurnAlone, hsame, hmem] at hend

/-- Settles O43: what one step leaves alone, and over a run to the turn the image it meets. -/
theorem commandInProgressEndsByItsOwnTurn : Obligations.CommandInProgressEndsByItsOwnTurn := by
  intro s k hs hp
  exact ⟨fun t => step_rcAt_of_pending hs.tableWf hp, fun c i rest hd hin => step_busy hd hp hin,
    fun rest hin => step_readResponse_busy hin hp, fun p evs rest t hpend hin hev hrun hw hc =>
      run_to_turn evs s hs hpend hin hev hrun hw hc⟩

/-! ### Two units that each run a SETTIME (R77, R296) -/

section
variable {s t : State} {k : Nat} {rest : List HostEvent} {d : CalendarTime}

/-- The record, each entry as its unit and the transaction it shows. -/
def State.issued (s : State) : List (Nat × Option TxnShape) := s.busLog.map fun r => (r.rc, r.shape)

/-- From `s` the machine ran to `t` with `rest` still to come, each step having issued one transaction of the list. -/
structure State.Ran (s t : State) (l : List (Nat × Option TxnShape)) (rest : List HostEvent) : Prop where
  run    : Host.Core.run Sys2Proof.core l.length s = .next t
  inv    : t.Inv
  inbox  : t.inbox = rest
  txns   : t.inputs.txns = s.inputs.txns.drop l.length
  issued : t.issued = s.issued ++ l

/-- Instance `k` has a handle and no command in progress. -/
def State.Ready (s : State) (k : Nat) : Prop := (s.rcAt k).cfg.configured = true ∧ (s.rcAt k).pending = none

/-- Instance `k` stands before the write of its SETTIME. -/
def State.OwesTimes (s : State) (k : Nat) : Prop := ∃ v : List Byte, v.length = 7 ∧ (s.rcAt k).pending = some ⟨0, v⟩

/-- The command of unit `k` has ended OK. -/
def State.EndedOk (s : State) (k : Nat) : Prop :=
  (s.rcAt k).pending = none ∧ (s.rcAt k).port.hasStatus = true ∧ (s.rcAt k).port.status = .ok

theorem State.Ran.refl (hs : s.Inv) : s.Ran s [] s.inbox := ⟨rfl, hs, rfl, rfl, by simp⟩

/-- A run from a state that steps goes on from the next one. -/
theorem run_of_step {n : Nat} {s a : Sys2Proof.core.State} (h : Sys2Proof.core.step s = .next a) :
    Host.Core.run Sys2Proof.core (n + 1) s = Host.Core.run Sys2Proof.core n a := by
  rw [Host.Core.run, h]

/-- A run and one step more. -/
theorem run_snoc {n : Nat} {s t u : State} (h : Host.Core.run Sys2Proof.core n s = .next t) (hu : step t = .next u) :
    Host.Core.run Sys2Proof.core (n + 1) s = .next u := by
  induction n generalizing s with
  | zero => cases h; exact run_of_step hu
  | succ n ih =>
    obtain ⟨a, ha, h⟩ := run_succ h
    exact (run_of_step ha).trans (ih h)

/-- A run of which the last step issued `x` in the name of unit `k`. -/
theorem State.Ran.snoc {u : State} {e : HostEvent} {l : List (Nat × Option TxnShape)} {x : Nat × Option TxnShape}
    (h : s.Ran t l (e :: rest)) (hu : step t = .next u) (htxns : u.inputs.txns = t.inputs.txns.tail)
    (hissued : u.issued = t.issued ++ [x]) : s.Ran u (l ++ [x]) rest where
  run := by rw [List.length_append]; exact run_snoc h.run hu
  inv := stepKeepsInvariant t u h.inv hu
  inbox := step_inbox h.inv.tableWf h.inbox hu
  txns := by rw [htxns, h.txns, List.tail_drop, List.length_append]; rfl
  issued := by rw [hissued, h.issued, List.append_assoc]

theorem startCommand_settime_of_read (hc : s.cfg.configured = true) (ho : s.txn.outcome = .ok) :
    startCommand (.settime d) s =
      .next (((s.afterRead 0 3).skipBytes 7).hold 0 (timeBytes d (s.readByte 0) s.freeByte)) := by
  simp only [startCommand, runWith, settimeWith, State.withHandle_configured hc, State.onRead_ok ho,
    State.freeByte_afterRead]

/-- The start of a SETTIME whose read succeeds. -/
theorem State.Ran.start_settime {l : List (Nat × Option TxnShape)}
    (h : s.Ran t l (.start k (encode (.settime d)) :: rest)) (hk : t.Ready k) (ho : t.txn.outcome = .ok) :
    ∃ u, s.Ran u (l ++ [(k, some (.read 0 3))]) rest ∧ u.OwesTimes k ∧ ∀ j, j ≠ k → u.rcAt j = t.rcAt j := by
  obtain ⟨hc, hp⟩ := hk
  have htw := h.inv.tableWf
  have hcfg := State.present_cfg (s := { t with inbox := rest }) htw k k (encode (.settime d))
  have htab := State.present_tableWf (s := { t with inbox := rest }) htw k (encode (.settime d))
  have hstep := (step_start h.inbox).trans ((State.take_ok (s := { t with inbox := rest }) (decodeOfEncode _ rfl) hp
    startCommand).trans (startCommand_settime_of_read ((congrArg Cfg.configured hcfg).trans hc) ho))
  refine ⟨_, h.snoc hstep rfl List.map_append, ?_, fun j hj => ?_⟩
  · refine ⟨_, ?_, State.pending_setPending htab _⟩
    rfl
  · exact ((State.rcAt_setPending htab _ j).trans (if_neg hj)).trans
      ((State.present_rcAt (s := { t with inbox := rest }) htw k j _).trans (if_neg hj))

/-- The turn of a SETTIME whose write succeeds. -/
theorem State.Ran.finish_settime {l : List (Nat × Option TxnShape)} (h : s.Ran t l (.finish k :: rest))
    (hk : t.OwesTimes k) (ho : t.txn.outcome = .ok) :
    ∃ u, s.Ran u (l ++ [(k, some (.write 0 7))]) rest ∧ u.EndedOk k ∧ ∀ j, j ≠ k → u.rcAt j = t.rcAt j := by
  obtain ⟨v, hv, hp⟩ := hk
  obtain ⟨u, hstep, hcur, hpend, -, -, -, -, hothers, -, -, hlog, -, hok, -⟩ :=
    finishIssuesTheWriteOwed t k ⟨0, v⟩ rest h.inv hp h.inbox
  obtain ⟨⟨hst, hstatus, -⟩, -⟩ := hok ho
  have htxns : u.inputs.txns = t.inputs.txns.tail := by
    cases (step_turn h.inbox hp).symm.trans hstep
    obtain ⟨l, h⟩ := t.onward_turn k rest 0 v
    rw [h.txns, List.drop_one]
  rw [State.rc, hcur] at hpend
  rw [State.port, State.rc, hcur] at hst hstatus
  exact ⟨u, h.snoc hstep htxns (by simp [State.issued, hlog, BusRecord.shape, hv]), ⟨hpend, hst, hstatus⟩, hothers⟩

/-- The transactions of a run come in the order of the script. -/
theorem State.Ran.txn_ok {l : List (Nat × Option TxnShape)} {xs more : List Txn} (h : s.Ran t l rest)
    (hx : s.inputs.txns = xs ++ more) (ho : ∀ x ∈ xs, x.outcome = .ok) (hl : l.length < xs.length) :
    t.txn.outcome = .ok := by
  have hget : t.inputs.txns = xs[l.length] :: (xs.drop (l.length + 1) ++ more) := by
    rw [h.txns, hx, List.drop_append_of_le_length hl.le, List.drop_eq_getElem_cons hl, List.cons_append]
  simp only [State.txn, hget]
  exact ho _ (List.getElem_mem hl)

end

/-- Settles O44: each step of a schedule issues one transaction and leaves the other unit alone. -/
theorem instancesInterleaveInEveryOrder : Obligations.InstancesInterleaveInEveryOrder := by
  intro s j k d e t₁ t₂ t₃ t₄ more hs hjk hcj hck hpj hpk htx hok startJ startK readOf writeOf row hrow
  have hinv : ∀ evs, State.Inv { s with inbox := evs } := fun _ => hs.congr rfl rfl rfl
  have first : ∀ evs, State.Ran { s with inbox := evs } { s with inbox := evs } [] evs := fun evs => .refl (hinv evs)
  have ok : ∀ {evs t l rest}, State.Ran { s with inbox := evs } t l rest → l.length < 4 → t.txn.outcome = .ok :=
    fun h hl => h.txn_ok (xs := [t₁, t₂, t₃, t₄]) htx hok hl
  simp only [List.mem_cons, List.not_mem_nil, or_false] at hrow
  have ready : ∀ {t : State} {n}, t.rcAt n = s.rcAt n → (s.rcAt n).cfg.configured = true → (s.rcAt n).pending = none →
      t.Ready n := fun h hc hp => ⟨by rw [h, hc], by rw [h, hp]⟩
  have owes : ∀ {t u : State} {n}, u.rcAt n = t.rcAt n → t.OwesTimes n → u.OwesTimes n := fun h ho => by
    rwa [State.OwesTimes, h]
  have ended : ∀ {t u : State} {n}, u.rcAt n = t.rcAt n → t.EndedOk n → u.EndedOk n := fun h he => by
    rwa [State.EndedOk, h]
  have both : ∀ {t : State}, t.EndedOk j → t.EndedOk k → ∀ n ∈ [j, k], t.EndedOk n := fun ej ek => by
    rw [List.forall_mem_cons, List.forall_mem_singleton]
    exact ⟨ej, ek⟩
  rcases hrow with rfl | rfl | rfl
  · obtain ⟨a, ha, oa, fa⟩ := (first _).start_settime ⟨hcj, hpj⟩ (ok (first _) (by simp))
    obtain ⟨b, hb, eb, fb⟩ := ha.finish_settime oa (ok ha (by simp))
    obtain ⟨c, hc, oc, fc⟩ := hb.start_settime (ready ((fb k hjk.symm).trans (fa k hjk.symm)) hck hpk) (ok hb (by simp))
    obtain ⟨u, hu, eu, fu⟩ := hc.finish_settime oc (ok hc (by simp))
    exact ⟨u, hu.run, hu.issued, both (ended ((fu j hjk).trans (fc j hjk)) eb) eu⟩
  · obtain ⟨a, ha, oa, fa⟩ := (first _).start_settime ⟨hcj, hpj⟩ (ok (first _) (by simp))
    obtain ⟨b, hb, ob, fb⟩ := ha.start_settime (ready (fa k hjk.symm) hck hpk) (ok ha (by simp))
    obtain ⟨c, hc, ec, fc⟩ := hb.finish_settime (owes (fb j hjk) oa) (ok hb (by simp))
    obtain ⟨u, hu, eu, fu⟩ := hc.finish_settime (owes (fc k hjk.symm) ob) (ok hc (by simp))
    exact ⟨u, hu.run, hu.issued, both (ended (fu j hjk) ec) eu⟩
  · obtain ⟨a, ha, oa, fa⟩ := (first _).start_settime ⟨hcj, hpj⟩ (ok (first _) (by simp))
    obtain ⟨b, hb, ob, fb⟩ := ha.start_settime (ready (fa k hjk.symm) hck hpk) (ok ha (by simp))
    obtain ⟨c, hc, ec, fc⟩ := hb.finish_settime ob (ok hb (by simp))
    obtain ⟨u, hu, eu, fu⟩ := hc.finish_settime (owes ((fc j hjk).trans (fb j hjk)) oa) (ok hc (by simp))
    exact ⟨u, hu.run, hu.issued, both eu (ended (fu k hjk.symm) ec)⟩

end Sys2Proof.Machine
end

section
/-! Proofs, 20_memory and 60_exceptions: what every command stores, records and reports, whatever comes of it (R27,
R36-R39, R61, R66, R281-R286, R298). -/
namespace Sys2Proof.Machine

/-! ### The bits of a read (R38, R39) -/

/-- Settles O26: the two halves of the byte read are kept apart by the mask. -/
theorem readsReturnStoredBits : Obligations.ReadsReturnStoredBits := by
  intro s a i j hj
  simp only [State.readByte, readBack, BitVec.getLsbD_or, BitVec.getLsbD_and, BitVec.getLsbD_not]
  cases (reservedMask (a + i)).getLsbD j <;> simp [hj]

/-- Settles O27: eight registers bit by bit, and the RAM, none of whose bits is reserved. -/
theorem reservedBitsAreThese : Obligations.ReservedBitsAreThese := by
  intro a j hj
  by_cases ha : a < 8
  · have hall : ∀ a j : Fin 8, (reservedMask a).getLsbD j = true ↔
        (a.1 = 1 ∧ j.1 = 7) ∨ (a.1 = 2 ∧ j.1 = 7) ∨ (a.1 = 3 ∧ 3 ≤ j.1) ∨ (a.1 = 4 ∧ 6 ≤ j.1) ∨ (a.1 = 5 ∧ 5 ≤ j.1) ∨
        (a.1 = 7 ∧ (j.1 = 6 ∨ j.1 = 5 ∨ j.1 = 3 ∨ j.1 = 2)) := by decide
    exact hall ⟨a, ha⟩ ⟨j, hj⟩
  · rw [reservedMask_ram (by omega)]
    simp
    omega

/-! ### The response (R27, R91, R289) -/

section
variable {i : Instr} {s t : State}

/-- A response with a status, and `n` result words where it is OK. -/
def State.Responds (t : State) (n : Nat) : Prop :=
  t.port.hasStatus = true ∧ (t.port.status = .ok → t.port.results.length = n) ∧
    (t.port.status ≠ .ok → t.port.results = [])

theorem State.responds_complete (hs : s.tableWf) (ws : List Word) : (s.complete ws).Responds ws.length := by
  obtain ⟨hst, hok, hws⟩ := State.complete_reports hs ws
  exact ⟨hst, fun _ => by rw [hws], fun hne => absurd hok hne⟩

theorem State.responds_raise (hs : s.tableWf) (e : ErrorKind) (n : Nat) : (s.raise e).Responds n := by
  obtain ⟨hst, -, hws⟩ := State.raise_reports hs e
  exact ⟨hst, fun hok => absurd hok (State.raise_status_ne_ok hs e), fun _ => hws⟩

theorem State.responds_writeAndEnd (hs : s.tableWf) (a : Nat) (v : List Byte) : (s.writeAndEnd a v).Responds 0 := by
  rcases State.writeAndEnd_cases s a v with ⟨-, he⟩ | ⟨-, he⟩ <;> rw [he]
  · exact State.responds_complete (s := s.afterWrite a v) hs []
  · exact State.responds_raise (s := s.afterFailedWrite a v) hs _ _

theorem State.responds_configure (hs : s.tableWf) (d : BitVec 7) (v yb : Word) : (s.configure d v yb).Responds 0 := by
  cases ho : s.attachOutcome with
  | ok cap =>
    rw [State.configure_of_ok ho]
    exact State.responds_complete (State.setCfg_tableWf ((s.quiet_attached d v (some cap)).tableWf hs) _) []
  | attachFail => rw [State.configure_of_attachFail ho]; exact State.responds_raise (s := s.attached d v none) hs _ _
  | allocFail cap =>
    rw [State.configure_of_allocFail ho]
    exact State.responds_raise ((s.quiet_rolledBack d v cap).tableWf hs) _ _

theorem State.responds_deconfigure (hs : s.tableWf) : s.deconfigure.Responds 0 := by
  rcases s.deconfigure_cases with ⟨-, he⟩ | ⟨-, he⟩ <;> rw [he]
  · exact State.responds_complete (State.released_tableWf hs) []
  · exact State.responds_raise (State.released_tableWf hs) _ _

/-- Every end of a command writes the response of its row. -/
theorem Ends.responds (h : Ends State.writeAndEnd i s t) (hs : s.tableWf) : t.Responds (resultCount i) := by
  cases h with
  | noHandle | outOfRange => exact State.responds_raise hs _ _
  | readFailed a n => exact State.responds_raise (s := s.afterFailedRead a n) hs _ _
  | readThenDone a n rest ws hc hl ht ha ho hw => rw [← hw]; exact State.responds_complete (s := s.afterRead a n) hs ws
  | readThenWrite a n k v hc hl ht ha hb hv ho hw =>
    rw [hw]
    exact State.responds_writeAndEnd (s := (s.afterRead a n).skipBytes k) hs _ v
  | writeOnly o v hi => subst hi; exact State.responds_writeAndEnd hs _ v
  | codec k r hn hl ht hr => rw [hr]; exact State.responds_complete (s := s.skipBytes k) hs [r]
  | configured c d v yb hi => subst hi; exact State.responds_configure hs d v yb
  | deconfigured hi => subst hi; exact State.responds_deconfigure hs

/-- Settles O38: each of the nine ends writes a status, and result words with OK alone. -/
theorem responsesHaveTheirShape : Obligations.ResponsesHaveTheirShape := fun _ _ _ hs he =>
  (exec_ends he).responds hs.tableWf

/-! ### The image outside the stored bytes (R67, R72, R74) -/

/-- Every end of a command leaves the other bytes as ENV left them before its last transaction. -/
theorem Ends.get_outside (h : Ends State.writeAndEnd i s t) (hs : s.Inv) {a : Nat}
    (ha : a < (storedBytes i).1 ∨ (storedBytes i).1 + (storedBytes i).2 ≤ a) :
    t.mem.get a = (s.imageAfter (t.shapes.length - s.shapes.length)).get a := by
  have issued : ∀ {n : Nat}, t.shapes.length = s.shapes.length + n → t.shapes.length - s.shapes.length = n := by omega
  cases h with
  | noHandle | outOfRange | codec | configured | deconfigured => rw [issued (n := 0) (by simp)]; simp [State.imageAfter]
  | readFailed | readThenDone => rw [issued (n := 1) (by simp)]; rfl
  | readThenWrite b n k v hc hl ht hb hlen hv =>
    obtain ⟨-, -, hout⟩ := State.writeAndEnd_spec (t := (s.afterRead b n).skipBytes k) (a := (storedBytes i).1) (v := v)
      hs.tableWf (State.secondImage_wf hs.mem) (by omega)
    rw [issued (n := 2) (by simp)]
    exact hout a (hlen ▸ ha)
  | writeOnly o v hi hc hr =>
    subst hi
    obtain ⟨-, -, hout⟩ := State.writeAndEnd_spec (a := 8 + o.toNat) (v := v) hs.tableWf (State.imageNow_wf hs.mem)
      (by omega)
    rw [issued (n := 1) (by simp)]
    exact hout a ha

/-- Settles O28: the nine ends store to the bytes of the table alone. -/
theorem commandsStoreOnlyTheirBytes : Obligations.CommandsStoreOnlyTheirBytes := fun _ _ _ hs he _ =>
  (exec_ends he).get_outside hs

theorem State.Undisturbed.imageNow (h : s.Undisturbed) : s.imageNow = s.mem := by
  obtain ⟨hw, hc, -, -⟩ := h
  exact State.imageNow_of_still hw hc

theorem State.Undisturbed.secondImage (h : s.Undisturbed) : s.secondImage = s.mem := by
  obtain ⟨-, -, hw, hc⟩ := id h
  exact (State.imageNow_of_still (s := s.afterRead 0 0) hw hc).trans h.imageNow

theorem State.Undisturbed.imageAfter (h : s.Undisturbed) (n : Nat) : s.imageAfter n = s.mem := by
  unfold State.imageAfter
  split
  · rfl
  · exact h.imageNow
  · exact h.secondImage

/-- With no step of ENV a command leaves every byte that it does not store to as it was. -/
theorem exec_get_outside (he : exec i s = .next t) (hs : s.Inv) (hu : s.Undisturbed) {a : Nat}
    (ha : a < (storedBytes i).1 ∨ (storedBytes i).1 + (storedBytes i).2 ≤ a) : t.mem.get a = s.mem.get a := by
  rw [(exec_ends he).get_outside hs ha, hu.imageAfter]

/-- Every command but SETRAM stores to registers. -/
theorem storedBytes_le (hi : ∀ o bs, i ≠ .setram o bs) : (storedBytes i).1 + (storedBytes i).2 ≤ 8 := by
  cases i with
  | setram o bs => exact absurd rfl (hi o bs)
  | _ => simp [storedBytes, fieldCH, fieldOUT, fieldSQWE, fieldRS, fieldMode]

/-- Of the commands on registers only three store to the control register. -/
theorem storedBytes_le_of_not_control (hi : ∀ o bs, i ≠ .setram o bs) (hout : ∀ v, i ≠ .setout v)
    (hsqwe : ∀ v, i ≠ .setsqwe v) (hrate : ∀ v, i ≠ .setrate v) : (storedBytes i).1 + (storedBytes i).2 ≤ 7 := by
  cases i with
  | setram o bs => exact absurd rfl (hi o bs)
  | setout v => exact absurd rfl (hout v)
  | setsqwe v => exact absurd rfl (hsqwe v)
  | setrate v => exact absurd rfl (hrate v)
  | _ => simp [storedBytes, fieldCH, fieldMode]

/-- Settles O30: SETRAM stores from 0x08 on, the others below it, and only three of them to 0x07. -/
theorem eachFamilyKeepsToItsRegisters : Obligations.EachFamilyKeepsToItsRegisters := by
  intro i s t hs hu he a
  refine ⟨fun hi ha => exec_get_outside he hs hu (.inr ?_), ?_, fun hout hsqwe hrate ha => ?_⟩
  · exact (storedBytes_le hi).trans ha
  · rintro ⟨o, bs, rfl⟩ ha
    exact exec_get_outside he hs hu (.inl (show a < 8 + o.toNat by omega))
  · by_cases hi : ∃ o bs, i = .setram o bs
    · obtain ⟨o, bs, rfl⟩ := hi
      exact exec_get_outside he hs hu (.inl (show a < 8 + o.toNat by omega))
    · simp only [not_exists] at hi
      have hle := storedBytes_le_of_not_control hi hout hsqwe hrate
      exact exec_get_outside he hs hu (.inr (by omega))

/-! ### The cause of each status (R281-R286) -/

/-- What a command that ended with a status had met. -/
def EndCause (i : Instr) (s t : State) (st : Status) : Prop :=
  match st with
  | .ok => True
  | .invalidArgument => t.busLog = s.busLog ∧
      ((needsHandle i = true ∧ s.cfg.configured = false) ∨
        (s.cfg.configured = true ∧ ∃ o l, i = .getram o l ∧ 56 < o.toNat + l.toNat) ∨
        (s.cfg.configured = true ∧ ∃ o bs, i = .setram o bs ∧ 56 < o.toNat + bs.length))
  | .outOfMemory => s.cfg.configured = false ∧ (∃ cap, s.attachOutcome = .allocFail cap) ∧ ∃ c d v, i = .config c d v
  | .busError =>
      (s.txn.outcome = .fail ∧ ∃ x rest, txnTable i = x :: rest ∧ t.shapes = s.shapes ++ [x]) ∨
      (s.txn.outcome = .ok ∧ s.secondTxn.outcome = .fail ∧
        ∃ x y, txnTable i = [x, y] ∧ t.shapes = s.shapes ++ [x, y]) ∨
      (s.cfg.configured = false ∧ s.attachOutcome = .attachFail ∧ (∃ c d v, i = .config c d v) ∧ t.shapes = s.shapes) ∨
      (s.cfg.configured = true ∧ s.detachOutcome = .fail ∧ i = .deconfig ∧ t.shapes = s.shapes)

theorem EndCause.of_reports {st : Status} {ws : List Word} (h : t.Reports st ws) (hc : EndCause i s t st) :
    EndCause i s t t.port.status := by
  obtain ⟨-, hst, -⟩ := h
  rwa [hst]

/-- A final write that succeeded needs no cause; one that failed is it. -/
theorem EndCause.of_writeAndEnd {u : State} {a : Nat} {v : List Byte} (hu : u.tableWf)
    (hc : u.txn.outcome = .fail → EndCause i s (u.writeAndEnd a v) .busError) :
    EndCause i s (u.writeAndEnd a v) (u.writeAndEnd a v).port.status := by
  rcases State.writeAndEnd_cases u a v with ⟨-, he⟩ | ⟨ho, he⟩
  · rw [he]
    exact .of_reports (State.complete_reports (t := u.afterWrite a v) hu []) trivial
  · have hrep := State.raise_reports (t := u.afterFailedWrite a v) hu .busError
    rw [← he] at hrep
    exact .of_reports hrep (hc ho)

/-- Every end of a command has its cause. -/
theorem Ends.cause (h : Ends State.writeAndEnd i s t) (hs : s.tableWf) : EndCause i s t t.port.status := by
  cases h with
  | noHandle hn hc => exact .of_reports (State.raise_reports hs _) ⟨rfl, .inl ⟨hn, hc⟩⟩
  | outOfRange hc hr =>
    refine .of_reports (State.raise_reports hs _) ⟨rfl, .inr ?_⟩
    exact hr.imp (fun h => ⟨hc, h⟩) fun h => ⟨hc, h⟩
  | readFailed a n rest hc hl ht ha ho =>
    exact .of_reports (State.raise_reports (t := s.afterFailedRead a n) hs _) (.inl ⟨ho, _, rest, ht, by simp⟩)
  | readThenDone a n rest ws => exact .of_reports (State.complete_reports (t := s.afterRead a n) hs ws) trivial
  | readThenWrite a n k v hc hl ht ha hb hv ho =>
    exact .of_writeAndEnd (u := (s.afterRead a n).skipBytes k) hs fun hf =>
      .inr (.inl ⟨ho, hf, _, _, ht, by simp⟩)
  | writeOnly o v hi hc hr =>
    subst hi
    exact .of_writeAndEnd hs fun hf => .inl ⟨hf, _, [], txnTable.eq_def _, by simp⟩
  | codec k r => exact .of_reports (State.complete_reports (t := s.skipBytes k) hs [r]) trivial
  | configured c d v yb hi hc hy =>
    cases ho : s.attachOutcome with
    | ok cap =>
      obtain ⟨hrep, -⟩ := State.configure_ok_spec (d := d) (v := v) (yb := yb) hs ho
      exact .of_reports hrep trivial
    | attachFail =>
      obtain ⟨hrep, -⟩ := State.configure_attachFail_spec (d := d) (v := v) (yb := yb) hs ho
      exact .of_reports hrep (.inr (.inr (.inl ⟨hc, ho, ⟨c, d, v, hi⟩, by simp⟩)))
    | allocFail cap =>
      obtain ⟨hrep, -, -⟩ := State.configure_allocFail_spec (d := d) (v := v) (yb := yb) hs ho
      exact .of_reports hrep ⟨hc, ⟨cap, ho⟩, c, d, v, hi⟩
  | deconfigured hi hc =>
    cases ho : s.detachOutcome with
    | ok => exact .of_reports (State.deconfigure_reports_ok hs ho) trivial
    | fail =>
      exact .of_reports (State.deconfigure_reports_busError hs ho) (.inr (.inr (.inr ⟨hc, ho, hi, by simp⟩)))

/-- Settles O39: the stops of a command, and the cause of each status it can end with. -/
theorem outcomesHaveTheirCauses : Obligations.OutcomesHaveTheirCauses := by
  intro i s hs
  refine ⟨fun f he => runWith_fault ((exec_eq_runWith i s).symm.trans he),
    fun r he => runWith_refused ((exec_eq_runWith i s).symm.trans he), fun t he => ?_⟩
  have hcause := (exec_ends he).cause hs.tableWf
  refine ⟨fun hst => ?_, fun hst => ?_, fun hst => ?_⟩ <;> rwa [hst] at hcause

/-! ### The transaction record, entry by entry (R61, R298) -/

/-- What an entry shows that a command added to the record. -/
def BusRecord.ShownBy (e : BusRecord) (i : Instr) (s t : State) : Prop :=
  e.rc = s.cur ∧
    (∀ dev cap a n r, e.op = .memRead dev cap a n r → dev = s.cfg.dev ∧ cap = s.cfg.bus ∧ s.cfg.configured = true ∧
      r = if s.txn.outcome = .ok then some ((List.range n).map (s.readByte a)) else none) ∧
    (∀ dev cap a v o, e.op = .memWrite dev cap a v o → dev = s.cfg.dev ∧ cap = s.cfg.bus ∧
      s.cfg.configured = true ∧ (a, v.length) = storedBytes i ∧
      (∀ off bs, i = .setram off bs → v = bs ∧ o = s.txn.outcome) ∧
      ((∀ off bs, i ≠ .setram off bs) → o = s.secondTxn.outcome) ∧
      (o = .ok → ∀ j (h : j < v.length), t.mem.get (a + j) = v[j])) ∧
    (∀ dev speed cap, e.op = .attach dev speed cap → ∃ c, i = .config c dev speed) ∧
    (∀ cap o, e.op = .detach cap o → isLifecycle i = true)

/-- The entry of the read of a command with a handle. -/
theorem shownBy_read (hc : s.cfg.configured = true) {a n : Nat} {r : Option (List Byte)}
    (hr : r = if s.txn.outcome = .ok then some ((List.range n).map (s.readByte a)) else none) :
    BusRecord.ShownBy ⟨s.cur, .memRead s.cfg.dev s.cfg.bus a n r⟩ i s t := by
  refine ⟨rfl, ?_, by simp, by simp, by simp⟩
  rintro _ _ _ _ _ ⟨⟩
  exact ⟨rfl, rfl, hc, hr⟩

/-- The entry of the final write of a command with a handle. -/
theorem shownBy_write (hc : s.cfg.configured = true) {a : Nat} {v : List Byte} {o : BusOutcome}
    (hplace : (a, v.length) = storedBytes i) (hram : ∀ off bs, i = .setram off bs → v = bs ∧ o = s.txn.outcome)
    (hreg : (∀ off bs, i ≠ .setram off bs) → o = s.secondTxn.outcome)
    (hget : o = .ok → ∀ j (h : j < v.length), t.mem.get (a + j) = v[j]) :
    BusRecord.ShownBy ⟨s.cur, .memWrite s.cfg.dev s.cfg.bus a v o⟩ i s t := by
  refine ⟨rfl, by simp, ?_, by simp, by simp⟩
  rintro _ _ _ _ _ ⟨⟩
  exact ⟨rfl, rfl, hc, hplace, hram, hreg, hget⟩

theorem shownBy_attach (c v : Word) (d : BitVec 7) (cap : Option Nat) :
    BusRecord.ShownBy ⟨s.cur, .attach d v cap⟩ (.config c d v) s t := by
  simp [BusRecord.ShownBy]

theorem shownBy_detach (hi : isLifecycle i = true) (cap : Option Nat) (o : BusOutcome) :
    BusRecord.ShownBy ⟨s.cur, .detach cap o⟩ i s t := by
  simp [BusRecord.ShownBy, hi]

/-- Every end of a command of the register image or the codec adds the entries of its transactions. -/
theorem Ends.record (h : Ends State.writeAndEnd i s t) (hs : s.Inv) (hi : isLifecycle i = false) :
    ∃ l, t.busLog = s.busLog ++ l ∧ ∀ e ∈ l, e.ShownBy i s t := by
  cases h with
  | noHandle | outOfRange | codec => exact ⟨[], (List.append_nil _).symm, by simp⟩
  | readFailed a n rest hc hl ht ha ho =>
    exact ⟨[_], rfl, by rw [List.forall_mem_singleton]; exact shownBy_read hc (by rw [ho]; rfl)⟩
  | readThenDone a n rest ws hc hl ht ha ho =>
    exact ⟨[_], rfl, by rw [List.forall_mem_singleton]; exact shownBy_read hc (by rw [if_pos ho])⟩
  | readThenWrite a n k v hc hl ht ha hlen hv ho =>
    have hlog := (State.onward_writeAndEnd ((s.afterRead a n).skipBytes k) (storedBytes i).1 v).log
    have hram : ∀ off bs, i ≠ .setram off bs := by rintro off bs rfl; cases ht
    refine ⟨[_, _], hlog.trans (List.append_assoc _ _ _), ?_⟩
    rw [List.forall_mem_cons, List.forall_mem_singleton]
    refine ⟨shownBy_read hc (by rw [if_pos ho]), shownBy_write hc (Prod.ext rfl hlen.symm)
      (fun off bs h => absurd h (hram off bs)) (fun _ => rfl) fun hok => ?_⟩
    obtain ⟨-, hget⟩ := State.writeAndEnd_of_ok (s := (s.afterRead a n).skipBytes k) (a := (storedBytes i).1)
      (bytes := v) hs.tableWf (State.secondImage_wf hs.mem) (by omega) hok
    exact hget
  | writeOnly o v hram hc hr =>
    subst hram
    refine ⟨[_], (State.onward_writeAndEnd s _ v).log, ?_⟩
    rw [List.forall_mem_singleton]
    refine shownBy_write hc rfl (fun off bs h => ?_) (fun h => absurd rfl (h o v)) fun hok => ?_
    · cases h
      exact ⟨rfl, rfl⟩
    · obtain ⟨-, hget⟩ := State.writeAndEnd_of_ok (a := 8 + o.toNat) (bytes := v) hs.tableWf (State.imageNow_wf hs.mem)
        (by omega) hok
      exact hget
  | configured c d v yb hc => subst hc; cases hi
  | deconfigured hc => subst hc; cases hi

/-- What CONFIG's attach adds to the record, by its outcome (log 14). -/
theorem State.configure_record (s : State) (c : Word) (d : BitVec 7) (v yb : Word) :
    ∃ l, (s.configure d v yb).busLog = s.busLog ++ l ∧
      (∀ e ∈ l, e.ShownBy (.config c d v) s (s.configure d v yb)) ∧
      (∀ cap, s.attachOutcome = .ok cap → l = [⟨s.cur, .attach d v (some cap)⟩]) ∧
      (s.attachOutcome = .attachFail → l = [⟨s.cur, .attach d v none⟩]) ∧
      (∀ cap, s.attachOutcome = .allocFail cap →
        l = [⟨s.cur, .attach d v (some cap)⟩, ⟨s.cur, .detach (some cap) .ok⟩]) := by
  cases ho : s.attachOutcome with
  | ok cap =>
    refine ⟨[⟨s.cur, .attach d v (some cap)⟩], by rw [State.configure_of_ok ho]; rfl, ?_, ?_⟩
    · rw [List.forall_mem_singleton]; exact shownBy_attach c v d _
    · simp
  | attachFail =>
    refine ⟨[⟨s.cur, .attach d v none⟩], by rw [State.configure_of_attachFail ho]; rfl, ?_, ?_⟩
    · rw [List.forall_mem_singleton]; exact shownBy_attach c v d _
    · simp
  | allocFail cap =>
    refine ⟨[⟨s.cur, .attach d v (some cap)⟩, ⟨s.cur, .detach (some cap) .ok⟩], ?_, ?_, ?_⟩
    · rw [State.configure_of_allocFail ho]; exact List.append_assoc _ _ _
    · rw [List.forall_mem_cons, List.forall_mem_singleton]
      exact ⟨shownBy_attach c v d _, shownBy_detach rfl _ _⟩
    · simp

theorem State.deconfigure_log (s : State) :
    s.deconfigure.busLog = s.busLog ++ [⟨s.cur, .detach s.cfg.bus s.detachOutcome⟩] := by
  rcases s.deconfigure_cases with ⟨-, he⟩ | ⟨-, he⟩ <;> rw [he] <;> rfl

/-- CONFIG that answers is one on an unconfigured unit whose base fits. -/
theorem exec_config_next {c v : Word} {d : BitVec 7} (he : exec (.config c d v) s = .next t) :
    ∃ yb, t = s.configure d v yb := by
  cases exec_ends he with
  | configured c' d' v' yb hi => cases hi; exact ⟨yb, rfl⟩
  | noHandle hn => cases hn
  | outOfRange hc hr => simp at hr
  | readFailed _ _ _ _ hl | readThenDone _ _ _ _ _ hl | readThenWrite _ _ _ _ _ hl | codec _ _ _ hl => cases hl
  | writeOnly _ _ hi | deconfigured hi => cases hi

end

/-- Settles O34: the two lifecycle commands record what their attach and detach gave, every other command its
transactions. -/
theorem recordShowsTheCommandsTransactions : Obligations.RecordShowsTheCommandsTransactions := by
  intro i s t hs he
  by_cases hl : isLifecycle i = false
  · obtain ⟨l, hlog, hshown⟩ := (exec_ends he).record hs hl
    refine ⟨l, hlog, hshown, ?_, ?_⟩
    · rintro c d v rfl; cases hl
    · rintro rfl; cases hl
  · cases i with
    | config c d v =>
      obtain ⟨yb, rfl⟩ := exec_config_next he
      obtain ⟨l, hlog, hshown, hcases⟩ := s.configure_record c d v yb
      refine ⟨l, hlog, hshown, ?_, by simp⟩
      rintro _ _ _ ⟨⟩
      exact hcases
    | deconfig =>
      rcases State.withHandle_cases ((exec_deconfig s).symm.trans he) with ⟨hc, he⟩ | ⟨hc, rfl⟩
      · cases he
        refine ⟨_, s.deconfigure_log, ?_, by simp, fun _ _ => rfl⟩
        rw [List.forall_mem_singleton]
        exact shownBy_detach (i := .deconfig) rfl _ _
      · exact ⟨[], (List.append_nil _).symm, by simp, by simp, by simp [hc]⟩
    | _ => exact absurd rfl hl

end Sys2Proof.Machine
end

section
/-! Proofs, 43_field_accessors, 44_ram and 10_state section 3: what a field, the mode, the hour and the RAM hold after
the commands that write them, as later reads show (R36-R40, R212, R213, R225, R264, R331). -/
namespace Sys2Proof.Machine

section
variable {i : Instr} {s t : State}

/-- A command that is not of the lifecycle leaves its own handle as it was. -/
theorem exec_cfg (he : exec i s = .next t) (hs : s.tableWf) (hi : isLifecycle i = false) : t.cfg = s.cfg := by
  rw [State.cfg, State.rc, ((exec_ends he).hostFrame hs).cur]
  exact (exec_ends he).handles hs localWrite_writeAndEnd hi s.cur

/-! ### A setter that ends OK leaves its field at the value (R212, R213) -/

section
variable {f : Field} {v nb : Byte}

/-- The field of a byte into which a value was inserted (R212). -/
theorem Field.insert_and_mask (f : Field) (r v : Byte) : f.insert r v &&& f.mask = f.newBits v := by
  refine BitVec.eq_of_getLsbD_eq fun j hj => ?_
  simp only [Field.insert, Field.newBits, BitVec.getLsbD_and, BitVec.getLsbD_or, BitVec.getLsbD_not, hj, decide_true]
  cases f.mask.getLsbD j <;> simp

/-- Outside its mask the inserted byte is the byte read (R212). -/
theorem Field.insert_bit (f : Field) (r v : Byte) {j : Nat} (hj : j < 8) (hm : f.mask.getLsbD j = false) :
    (f.insert r v).getLsbD j = r.getLsbD j := by
  simp only [Field.insert, Field.newBits, BitVec.getLsbD_and, BitVec.getLsbD_or, BitVec.getLsbD_not, hj, hm]
  simp

/-- A status of OK is not that of a report of BusError. -/
theorem State.Reports.absurd_ok {ws : List Word} {P : Prop} (h : t.Reports .busError ws) (hst : t.port.status = .ok) :
    P := by
  obtain ⟨-, hbad, -⟩ := h
  cases hst.symm.trans hbad

/-- A setter that ended OK: its read succeeded, and the register holds the value in the field, found there or written
over the other bits read. -/
theorem setField_of_ok (hx : exec i s = setField f v s) (hres : f.mask &&& reservedMask f.addr = 0)
    (ha : f.addr < 64) (hs : s.Inv) (hc : s.cfg.configured = true) (he : exec i s = .next t)
    (hst : t.port.status = .ok) : t.mem.get f.addr &&& f.mask = f.newBits v := by
  obtain ⟨-, hfail, hskip, hstore⟩ := setField_outcomes hx hres ha rfl hs
  cases ho : s.txn.outcome with
  | fail =>
    obtain ⟨t', he', hrep, -⟩ := hfail hc ho
    cases he.symm.trans he'
    exact hrep.absurd_ok hst
  | ok =>
    by_cases hv : s.imageNow.get f.addr &&& f.mask = f.newBits v
    · obtain ⟨t', he', ⟨-, -, -, hmem⟩, -⟩ := hskip hc ho hv
      cases he.symm.trans he'
      rw [hmem, hv]
    · obtain ⟨t', he', -, -, -, -, hbad, hok⟩ := hstore hc ho hv
      cases he.symm.trans he'
      cases ho₂ : s.secondTxn.outcome with
      | fail =>
        obtain ⟨hrep, -⟩ := hbad ho₂
        exact hrep.absurd_ok hst
      | ok =>
        obtain ⟨-, hget⟩ := hok ho₂
        rw [hget]
        exact f.insert_and_mask _ v

/-- With no step of ENV and both transactions succeeding a setter ends OK, and the register differs from what it was in
the field alone, and in the reserved bits. -/
theorem setField_undisturbed (hx : exec i s = setField f v s) (hres : f.mask &&& reservedMask f.addr = 0)
    (ha : f.addr < 64) (hnb : f.newBits v = nb) (hs : s.Inv) (hc : s.cfg.configured = true) (hu : s.Undisturbed)
    (ho : s.txn.outcome = .ok) (ho₂ : s.secondTxn.outcome = .ok) :
    ∃ t, exec i s = .next t ∧ t.Reports .ok [] ∧ t.mem.get f.addr &&& f.mask = nb ∧
      (∀ j, j < 8 → f.mask.getLsbD j = false → (reservedMask f.addr).getLsbD j = false →
        (t.mem.get f.addr).getLsbD j = (s.mem.get f.addr).getLsbD j) ∧
      (∀ x, x ≠ f.addr → t.mem.get x = s.mem.get x) := by
  subst hnb
  obtain ⟨-, -, hskip, hstore⟩ := setField_outcomes hx hres ha rfl hs
  by_cases hv : s.imageNow.get f.addr &&& f.mask = f.newBits v
  · obtain ⟨t, he, ⟨hrep, -, -, hmem⟩, -⟩ := hskip hc ho hv
    rw [hu.imageNow] at hmem
    obtain ⟨-, hst, -⟩ := id hrep
    exact ⟨t, he, hrep, setField_of_ok hx hres ha hs hc he hst, fun j _ _ _ => by rw [hmem], fun x _ => hmem x⟩
  · obtain ⟨t, he, -, -, hrest, -, -, hok⟩ := hstore hc ho hv
    obtain ⟨hrep, hget⟩ := hok ho₂
    obtain ⟨-, hst, -⟩ := id hrep
    rw [hu.secondImage] at hrest
    refine ⟨t, he, hrep, setField_of_ok hx hres ha hs hc he hst, fun j hj hm hr => ?_, hrest⟩
    calc (t.mem.get f.addr).getLsbD j = (f.insert (s.readByte f.addr 0) v).getLsbD j := by rw [hget]; rfl
      _ = (s.readByte f.addr 0).getLsbD j := f.insert_bit _ v hj hm
      _ = (s.imageNow.get f.addr).getLsbD j := s.readByte_bit f.addr 0 j hj hr
      _ = (s.mem.get f.addr).getLsbD j := by rw [hu.imageNow]

end

end

/-- Settles O18: the four rows of the setter pattern, with ENV still. -/
theorem settersStoreTheirFieldOnly : Obligations.SettersStoreTheirFieldOnly := by
  intro s v rs hs hc hu ho ho₂ row hrow
  simp only [List.mem_cons, List.not_mem_nil, or_false] at hrow
  rcases hrow with rfl | rfl | rfl | rfl
  · exact setField_undisturbed (f := fieldCH) rfl rfl (by decide) (Field.newBits_boolByte rfl v) hs hc hu ho ho₂
  · exact setField_undisturbed (f := fieldOUT) rfl rfl (by decide) (Field.newBits_boolByte rfl v) hs hc hu ho ho₂
  · exact setField_undisturbed (f := fieldSQWE) rfl rfl (by decide) (Field.newBits_boolByte rfl v) hs hc hu ho ho₂
  · exact setField_undisturbed (f := fieldRS) rfl rfl (by decide) (fieldRS_newBits rs) hs hc hu ho ho₂

/-- Two bytes with the same bit 7 have the same CH field (R40). -/
theorem and_CH_congr {b b' : Byte} (h : b.getLsbD 7 = b'.getLsbD 7) : b &&& fieldCH.mask = b' &&& fieldCH.mask := by
  have hmask : ∀ j < 8, j ≠ 7 → fieldCH.mask.getLsbD j = false := by decide
  refine BitVec.eq_of_getLsbD_eq fun j hj => ?_
  rw [BitVec.getLsbD_and, BitVec.getLsbD_and]
  by_cases h7 : j = 7
  · rw [h7, h]
  · rw [hmask j hj h7, Bool.and_false, Bool.and_false]

/-- Settles O19: the first SETHALT left CH at the value, so the second finds it there. -/
theorem repeatedSetHaltSkipsTheWrite : Obligations.RepeatedSetHaltSkipsTheWrite := by
  intro s t v hs hc he hst ho hch
  have ht : t.Inv := exec_inv he hs rfl
  have hct : t.cfg.configured = true := by rw [exec_cfg he hs.tableWf rfl, hc]
  have hheld : t.imageNow.get 0 &&& fieldCH.mask = fieldCH.newBits (boolByte v) :=
    (and_CH_congr hch).trans (setField_of_ok (f := fieldCH) rfl rfl (by decide) hs hc he hst)
  obtain ⟨-, -, hskip, -⟩ := setField_outcomes (i := .sethalt v) (f := fieldCH) rfl rfl (by decide) rfl ht
  obtain ⟨u, heu, ⟨hrep, -, -, hmem⟩, hshapes⟩ := hskip hct ho hheld
  exact ⟨u, heu, hrep, hshapes, hmem⟩

/-! ### The mode switch (R31, R225) -/

section
variable {b free : Byte} {h : Nat}

theorem hour12Byte_bounds (hh : h ≤ 23) : 64 ≤ hour12Byte h ∧ hour12Byte h < 128 := by
  obtain ⟨k, h1, hk, rfl | rfl⟩ := hour_cases hh
  · rw [hour12Byte_am h1 hk]; have := bcd_dial_lt hk; omega
  · rw [hour12Byte_pm h1 hk]; have := bcd_dial_lt hk; omega

theorem bcd_hour_lt (hh : h ≤ 37) : bcd h < 64 := by unfold bcd; omega

/-- The hours byte of an hour 0..23 in a mode (R31). -/
def hoursByteOf (mode : Bool) (h : Nat) : Nat := if mode then hour12Byte h else bcd h

/-- A legal hours byte is the byte of an hour of day in one of the two modes (R31). -/
theorem legalHours_iff : LegalHours b ↔ ∃ h mode, h ≤ 23 ∧ b.toNat = hoursByteOf mode h := by
  constructor
  · rintro (⟨h, hh, hb⟩ | ⟨k, h1, hk, hb | hb⟩)
    · exact ⟨h, false, hh, hb⟩
    · exact ⟨k % 12, true, by omega, hb.trans (hour12Byte_am h1 hk).symm⟩
    · exact ⟨k % 12 + 12, true, by omega, hb.trans (hour12Byte_pm h1 hk).symm⟩
  · rintro ⟨h, mode, hh, hb⟩
    cases mode with
    | false => exact .inl ⟨h, hh, hb⟩
    | true =>
      obtain ⟨k, h1, hk, rfl | rfl⟩ := hour_cases hh
      · exact .inr ⟨k, h1, hk, .inl (hb.trans (hour12Byte_am h1 hk))⟩
      · exact .inr ⟨k, h1, hk, .inr (hb.trans (hour12Byte_pm h1 hk))⟩

theorem shownHour_hoursByteOf (mode : Bool) (hh : h ≤ 23) : shownHour (hoursByteOf mode h) = h := by
  cases mode with
  | false => exact shownHour_bcd hh
  | true => exact shownHour_hour12Byte hh

theorem mode_of_hoursByteOf {mode : Bool} (hh : h ≤ 23) (hb : b.toNat = hoursByteOf mode h) : b.getLsbD 6 = mode := by
  cases mode with
  | false =>
    have hlt : b.toNat < 64 := hb ▸ bcd_hour_lt (by omega)
    rw [byte_bit, decide_eq_false_iff_not]
    omega
  | true =>
    have hbounds : 64 ≤ b.toNat ∧ b.toNat < 128 := hb ▸ hour12Byte_bounds hh
    rw [byte_bit, decide_eq_true_eq]
    omega

/-- Re-encoding in the other mode gives the byte of the same hour. -/
theorem reencode_hoursByteOf {mode : Bool} (hh : h ≤ 23) (hb : b.toNat = hoursByteOf mode h) :
    (reencode b (!mode) free).toNat = hoursByteOf (!mode) h := by
  rw [reencode_toNat, hb]
  cases mode with
  | false => exact (congrArg hour12Or (unbcd_bcd_mod (by omega) (bcd_hour_lt (by omega)))).trans (hour12Or_eq h hh)
  | true => exact congrArg bcd ((hour12Of_mod _).trans (hour12Of_hour12Byte hh))

end

/-- Settles O21: the re-encoded byte is that of the same hour in the other mode, and the other mode's other mode is the
first. -/
theorem modeSwitchKeepsHour : Obligations.ModeSwitchKeepsHour := by
  intro b free hlegal b'
  obtain ⟨h, mode, hh, hb⟩ := legalHours_iff.1 hlegal
  have hmode := mode_of_hoursByteOf hh hb
  have hb' : b'.toNat = hoursByteOf (!mode) h := by
    simp only [b', hmode]
    exact reencode_hoursByteOf hh hb
  refine ⟨legalHours_iff.2 ⟨h, !mode, hh, hb'⟩, ?_, ?_, ?_⟩
  · rw [hb', hb, shownHour_hoursByteOf _ hh, shownHour_hoursByteOf _ hh]
  · rw [mode_of_hoursByteOf hh hb', hmode]
  · have hback := reencode_hoursByteOf (free := free) hh hb'
    rw [Bool.not_not] at hback
    rw [hmode]
    exact BitVec.eq_of_toNat_eq (hback.trans hb.symm)

section
variable {s t : State} {v : Bool}

/-- SET12H ended OK: the byte that was there is in the mode, or its re-encoding was written. -/
theorem set12h_of_ok (hs : s.Inv) (hc : s.cfg.configured = true) (he : exec (.set12h v) s = .next t)
    (hst : t.port.status = .ok) :
    ((s.imageNow.get 2).toNat / 64 % 2 = (if v then 1 else 0) ∧ t.mem.get 2 = s.imageNow.get 2) ∨
    ((s.imageNow.get 2).toNat / 64 % 2 ≠ (if v then 1 else 0) ∧ (t.mem.get 2).toNat =
      if v then hour12Or (unbcd ((s.imageNow.get 2).toNat % 64)) else bcd (hour12Of (s.imageNow.get 2).toNat)) := by
  obtain ⟨-, hfail, hskip, hstore⟩ := set12hOutcomes s v hs
  cases ho : s.txn.outcome with
  | fail =>
    obtain ⟨t', he', hrep, -⟩ := hfail hc ho
    cases he.symm.trans he'
    exact hrep.absurd_ok hst
  | ok =>
    by_cases hm : (s.imageNow.get 2).toNat / 64 % 2 = if v then 1 else 0
    · obtain ⟨t', he', ⟨-, -, -, hmem⟩, -⟩ := hskip hc ho hm
      cases he.symm.trans he'
      exact .inl ⟨hm, hmem 2⟩
    · obtain ⟨t', he', -, -, -, -, hbad, hok⟩ := hstore hc ho hm
      cases he.symm.trans he'
      cases ho₂ : s.secondTxn.outcome with
      | fail =>
        obtain ⟨hrep, -⟩ := hbad ho₂
        exact hrep.absurd_ok hst
      | ok =>
        obtain ⟨-, hget⟩ := hok ho₂
        exact .inr ⟨hm, hget⟩

/-- The converter's byte carries the mode bit (R147). -/
theorem hour12Or_mode (n : Nat) : hour12Or n / 64 % 2 = 1 := by
  have hbit : (hour12Or n).testBit 6 = true := by
    unfold hour12Or
    simp only [Nat.testBit_or]
    simp
    exact .inr (by decide)
  simpa [Nat.testBit_eq_decide_div_mod_eq] using hbit

theorem hour12Of_le (b : Nat) : hour12Of b ≤ 37 := by unfold hour12Of unbcd; split_ifs <;> omega

/-- After a SET12H that ended OK the hours byte is in the mode. -/
theorem mode_of_set12h (hs : s.Inv) (hc : s.cfg.configured = true) (he : exec (.set12h v) s = .next t)
    (hst : t.port.status = .ok) : (t.mem.get 2).toNat / 64 % 2 = if v then 1 else 0 := by
  rcases set12h_of_ok hs hc he hst with ⟨hm, hget⟩ | ⟨-, hget⟩
  · rw [hget, hm]
  · rw [hget]
    cases v with
    | true => exact hour12Or_mode _
    | false =>
      have := bcd_hour_lt (hour12Of_le (s.imageNow.get 2).toNat)
      simp only [Bool.false_eq_true, if_false]
      omega

/-- After a SET12H that ended OK on a legal hours byte the register holds a legal byte that shows the same hour. -/
theorem hour_of_set12h (hs : s.Inv) (hc : s.cfg.configured = true) (he : exec (.set12h v) s = .next t)
    (hst : t.port.status = .ok) (hlegal : LegalHours (s.imageNow.get 2)) :
    LegalHours (t.mem.get 2) ∧ shownHour (t.mem.get 2).toNat = shownHour (s.imageNow.get 2).toNat := by
  rcases set12h_of_ok hs hc he hst with ⟨-, hget⟩ | ⟨hm, hget⟩
  · rw [hget]
    exact ⟨hlegal, rfl⟩
  · have hv : v = !(s.imageNow.get 2).getLsbD 6 := by
      rw [byte_bit]
      cases v <;> simp at hm ⊢ <;> omega
    have hre : t.mem.get 2 = reencode (s.imageNow.get 2) v 0 := by
      apply BitVec.eq_of_toNat_eq
      rw [hget, reencode_toNat, hour12Of_mod]
    obtain ⟨hlegal', hshown, -, -⟩ := modeSwitchKeepsHour (s.imageNow.get 2) 0 hlegal
    rw [hre, hv]
    exact ⟨hlegal', hshown⟩

end

/-- The hour, and in 12-hour mode the PM flag, that GETRAW reports of a legal hours byte make up the hour it shows. -/
theorem rawHour_shows {b : Byte} (hlegal : LegalHours b) :
    (if b.toNat / 64 % 2 = 1 then unbcd (b.toNat % 32) % 12 + 12 * (b.toNat / 32 % 2) else unbcd (b.toNat % 64)) =
      shownHour b.toNat := by
  unfold shownHour
  split
  · next hm =>
    have hdial : unbcd (b.toNat % 32) ≤ 12 := by
      rcases hlegal with ⟨h, hh, hb⟩ | ⟨k, -, hk, hb⟩
      · have := bcd_hour_lt (h := h) (by omega)
        omega
      · have := bcd_dial_lt hk
        have hlow : b.toNat % 32 = bcd k := by omega
        rw [hlow, unbcd_bcd k (by omega)]
        exact hk
    unfold hour12Of
    split_ifs <;> omega
  · rfl

/-- Settles O22: GET12H reads the mode that SET12H left, and GETRAW an hour of day that is the one there was. -/
theorem set12hThenReadsShowModeAndHour : Obligations.Set12hThenReadsShowModeAndHour := by
  intro s t v hs hc he hst ho hkeep
  have ht : t.Inv := exec_inv he hs rfl
  have hct : t.cfg.configured = true := by rw [exec_cfg he hs.tableWf rfl, hc]
  have hmode := mode_of_set12h hs hc he hst
  refine ⟨?_, fun hu hlegal hdec => ?_⟩
  · obtain ⟨-, -, hok⟩ := getterOutcomes t ht (.get12h, 0x02, 64, 2) (by simp)
    obtain ⟨u, heu, -, hrep, -⟩ := hok hct ho
    refine ⟨u, heu, ?_⟩
    rw [hkeep, hmode] at hrep
    cases v <;> exact hrep
  · have hcoding : t.coding = .decimal := ((exec_ends he).hostFrame hs.tableWf).coding.trans hdec
    rw [← hu.imageNow] at hlegal
    obtain ⟨hlegal', hshown⟩ := hour_of_set12h hs hc he hst hlegal
    have hhour := rawHour_shows hlegal'
    obtain ⟨-, -, hok⟩ := getrawOutcomes t ht
    obtain ⟨u, w, heu, ⟨hrep, -⟩, -, hw⟩ := hok hct ho
    have word : ∀ n, (w.getD n 0).toNat = (w.map BitVec.toNat).getD n 0 := fun _ =>
      (List.getD_map w 0 BitVec.toNat).symm
    simp only [hkeep, hcoding, hmode] at hw
    rw [hmode, hshown, hu.imageNow] at hhour
    refine ⟨u, w, heu, hrep, ?_, ?_⟩
    · rw [word, hw]
      rfl
    · rw [word, word, hw, ← hhour]
      cases v <;> rfl

/-! ### RAM (R264) -/

/-- Settles O25: SETRAM that ended OK left its bytes in the image, where GETRAM reads them. -/
theorem setRamThenGetRamReturnsBytes : Obligations.SetRamThenGetRamReturnsBytes := by
  intro s t offset bytes hs hc hle he hst ho hkeep
  have ht : t.Inv := exec_inv he hs rfl
  have hct : t.cfg.configured = true := by rw [exec_cfg he hs.tableWf rfl, hc]
  have hlen : (BitVec.ofNat 32 bytes.length).toNat = bytes.length := by
    rw [BitVec.toNat_ofNat, Nat.mod_eq_of_lt (by omega)]
  have hbytes : ∀ j (hj : j < bytes.length), t.imageNow.get (8 + offset.toNat + j) = bytes[j] := by
    obtain ⟨-, hram⟩ := setramOutcomes s offset bytes hs
    obtain ⟨t', he', -, -, -, -, hbad, hok⟩ := hram hc hle
    cases he.symm.trans he'
    cases ho₁ : s.txn.outcome with
    | fail =>
      obtain ⟨hrep, -⟩ := hbad ho₁
      exact hrep.absurd_ok hst
    | ok =>
      obtain ⟨-, hget⟩ := hok ho₁
      exact fun j hj => (hkeep _ (by omega) (by omega)).trans (hget j hj)
  obtain ⟨-, -, hread⟩ := getramOutcomes t offset (BitVec.ofNat 32 bytes.length) ht
  rw [hlen] at hread
  obtain ⟨u, heu, -, hrep, -⟩ := hread hct hle ho
  refine ⟨u, heu, ?_⟩
  have hwords : ((List.range bytes.length).map fun j => (t.imageNow.get (8 + offset.toNat + j)).zeroExtend 32) =
      bytes.map fun b => b.zeroExtend 32 := by
    refine List.ext_getElem (by simp) fun j hj _ => ?_
    simp only [List.length_map, List.length_range] at hj
    simp [hbytes j hj]
  rwa [hwords] at hrep

/-! ### CH and the mode under every command (R40) -/

section
variable {i : Instr} {s t : State}

/-- With no step of ENV, a command on registers leaves the image as it was, or has a handle and its read succeeds. -/
theorem exec_mem_or_read (he : exec i s = .next t) (hu : s.Undisturbed) (hi : ∀ o bs, i ≠ .setram o bs) :
    t.mem = s.mem ∨ (s.cfg.configured = true ∧ s.txn.outcome = .ok) := by
  cases exec_ends he with
  | noHandle | outOfRange | codec => exact .inl rfl
  | readFailed => exact .inl hu.imageNow
  | readThenDone _ _ _ _ hc _ _ _ ho | readThenWrite _ _ _ _ hc _ _ _ _ _ ho => exact .inr ⟨hc, ho⟩
  | writeOnly o v h => exact absurd h (hi o v)
  | configured => exact .inl (State.mem_configure _ _ _ _)
  | deconfigured => exact .inl (State.mem_deconfigure _)

/-- SETTIME writes back the CH that it read, for a second in its range (R174). -/
theorem settime_keeps_CH {d : CalendarTime} (he : exec (.settime d) s = .next t) (hs : s.Inv) (hu : s.Undisturbed)
    (hsec : 0 ≤ d.sec.toInt ∧ d.sec.toInt ≤ 59) (hw : s.txn.outcome = .ok → s.secondTxn.outcome = .ok) :
    (t.mem.get 0).getLsbD 7 = (s.mem.get 0).getLsbD 7 := by
  rcases exec_mem_or_read he hu (by simp) with hmem | ⟨hc, ho⟩
  · rw [hmem]
  · obtain ⟨-, -, hok⟩ := settimeOutcomes s d hs
    obtain ⟨t', he', -, -, -, -, -, hstored⟩ := hok hc ho
    cases he.symm.trans he'
    obtain ⟨-, h0, -⟩ := hstored (hw ho)
    rw [if_pos hsec, hu.imageNow] at h0
    beta_reduce at h0
    have hlow : bcd d.sec.toInt.toNat < 128 := bcd_lt_128 (by omega)
    rw [byte_bit, byte_bit, decide_eq_decide]
    omega

/-- SETTIME writes the hour in the mode that it read, for an hour in its range (R174). -/
theorem settime_keeps_mode {d : CalendarTime} (he : exec (.settime d) s = .next t) (hs : s.Inv) (hu : s.Undisturbed)
    (hhour : 0 ≤ d.hour.toInt ∧ d.hour.toInt ≤ 23) (hw : s.txn.outcome = .ok → s.secondTxn.outcome = .ok) :
    (t.mem.get 2).getLsbD 6 = (s.mem.get 2).getLsbD 6 := by
  rcases exec_mem_or_read he hu (by simp) with hmem | ⟨hc, ho⟩
  · rw [hmem]
  · obtain ⟨-, -, hok⟩ := settimeOutcomes s d hs
    obtain ⟨t', he', -, -, -, -, -, hstored⟩ := hok hc ho
    cases he.symm.trans he'
    obtain ⟨-, -, -, h2, -⟩ := hstored (hw ho)
    rw [if_pos hhour, hu.imageNow] at h2
    have hhours : (t.mem.get 2).toNat = hoursByteOf ((s.mem.get 2).getLsbD 6) d.hour.toInt.toNat := by
      rw [h2, hoursByteOf, byte_bit]
      simp only [decide_eq_true_eq]
      rfl
    exact mode_of_hoursByteOf (by omega) hhours

/-- SETRAW writes back the CH that it read (R178). -/
theorem setraw_keeps_CH {d : RawData} (he : exec (.setraw d) s = .next t) (hs : s.Inv) (hu : s.Undisturbed)
    (hw : s.txn.outcome = .ok → s.secondTxn.outcome = .ok) : (t.mem.get 0).getLsbD 7 = (s.mem.get 0).getLsbD 7 := by
  rcases exec_mem_or_read he hu (by simp) with hmem | ⟨hc, ho⟩
  · rw [hmem]
  · obtain ⟨-, -, hok⟩ := setrawOutcomes s d hs
    obtain ⟨t', he', -, -, -, -, -, hstored⟩ := hok hc ho
    cases he.symm.trans he'
    obtain ⟨-, h0, -⟩ := hstored (hw ho)
    rw [hu.imageNow] at h0
    beta_reduce at h0
    have hlow := rawBits_lt (m := 128) (by omega) s.coding d.seconds (s.freeByte 0)
    rw [byte_bit, byte_bit, decide_eq_decide]
    omega

end

/-- Settles O31: SETTIME and SETRAW write back what they read; of the other commands only the excepted ones store to the
register. -/
theorem clockHaltAndModeArePreserved : Obligations.ClockHaltAndModeArePreserved := by
  intro i s t hs hu he
  refine ⟨fun hset hsec hw => ?_, fun hset hraw htime => ?_⟩
  · cases i with
    | sethalt v => exact absurd rfl (hset v)
    | settime d => exact settime_keeps_CH he hs hu (hsec d rfl) (hw ⟨rfl, by simp [storedBytes]⟩)
    | setraw d => exact setraw_keeps_CH he hs hu (hw ⟨rfl, by simp [storedBytes]⟩)
    | _ => rw [exec_get_outside he hs hu (by simp [storedBytes, fieldOUT, fieldSQWE, fieldRS, fieldMode, ramBase])]
  · cases i with
    | set12h v => exact absurd rfl (hset v)
    | setraw d => exact absurd rfl (hraw d)
    | settime d =>
      obtain ⟨hhour, hw⟩ := htime d rfl
      exact settime_keeps_mode he hs hu hhour hw
    | _ =>
      rw [exec_get_outside he hs hu (by simp [storedBytes, fieldCH, fieldOUT, fieldSQWE, fieldRS, ramBase] <;> omega)]

/-! ### The read-modify-write window (R331) -/

/-- Another agent writes OUT between the read and the write of the command that comes. -/
def windowTxns : List Txn := [⟨[], .ok, [0]⟩, ⟨[⟨.other, 7, 0x80⟩], .ok, [0]⟩]

/-- A configured block whose control register is clear, and the two transactions. -/
def windowState : State :=
  { State.reset with
    insts := [(0, { Rc.reset with cfg := Cfg.attachedTo 0x68 100000 100 7 })]
    inputs := { Inputs.reset with txns := windowTxns } }

theorem windowState_inv : windowState.Inv := by
  refine State.inv_of_rcInv rfl rfl (fun k => ?_) fun _ h => by cases h
  have hrc : windowState.rcAt k = { Rc.reset with cfg := Cfg.attachedTo 0x68 100000 100 7 } ∨
      windowState.rcAt k = Rc.reset := by
    unfold State.rcAt windowState Sparse.get
    split
    · exact .inl rfl
    · exact .inr rfl
  rcases hrc with h | h <;> rw [h]
  · exact ⟨⟨rfl, fun _ => by decide⟩, Rc.inv_reset.port, fun _ hp => by cases hp⟩
  · exact Rc.inv_reset

/-- Settles O32: SETSQWE read OUT clear and writes it back over the other agent's bit. -/
theorem setterUndoesAnotherWriter : Obligations.SetterUndoesAnotherWriter := by
  refine ⟨windowState, (windowState.afterRead 7 1).writeAndEnd 7 [0x10], windowState_inv, ?_⟩
  exact ⟨by decide, by decide, by decide, rfl, ⟨by decide, by decide, by decide⟩, by decide, by decide⟩

end Sys2Proof.Machine
end
